-- ==== Sys2Proof/Word.lean ====
section
/-! DEFINITION. The words the spec's rules are about (00_scope R12, R13; 30_encoding R80, R86): plain widths, and the
two-valued Symbol of the trellis. -/

namespace Sys2Proof

/-- One command word, `cmd` port (30_encoding R80). -/
abbrev Word := BitVec 32

/-- One response word, `rsp` port (30_encoding R86). -/
abbrev RspWord := BitVec 64

/-- Four codeword samples, `cw` port (30_encoding R87). -/
abbrev CwWord := BitVec 64

/-- The domain Bit (00_scope R13). -/
abbrev Bit := BitVec 1

/-- The domain Sample (00_scope R13): 16 bits, two's complement, raw value `r` standing for `r / 256`. -/
abbrev Sample := BitVec 16

/-- A state index 0..7 (00_scope R13, 41_trellis_model R121). -/
abbrev Idx := BitVec 3

/-- The domain Symbol (00_scope R13): −1 or +1. -/
inductive Symbol where
  | neg
  | pos
  deriving DecidableEq, Repr

end Sys2Proof
end

