-- ==== Sys2Proof/Syntax.lean ====
section
/-! DEFINITION. The fifteen commands (30_encoding R81, R84), one constructor per row of the opcode table, each operand a
bit vector of the width its field has in the format. -/

namespace Sys2Proof

/-- A command with its operands as the formats of 30_encoding R81 cut them. -/
inductive Instr where
  /-- `NOP`, format Z (45_system_ops R205). -/
  | nop
  /-- `RESET`, format Z (45_system_ops R206). -/
  | reset
  /-- `RDSTAT`, format Z (45_system_ops R207). -/
  | rdstat
  /-- `CLRERR`, format Z (45_system_ops R208). -/
  | clrerr
  /-- `B2S bit`, format B (40_symbol_mapper R113). -/
  | b2s (bitv : BitVec 24)
  /-- `S2B y`, format S (40_symbol_mapper R114). -/
  | s2b (samp : Sample)
  /-- `TRANS state, bit`, format T (41_trellis_model R130). -/
  | trans (stv : BitVec 8) (bitv8 : BitVec 8)
  /-- `ESTART`, format Z (42_convolutional_encoder R141). -/
  | estart
  /-- `EBIT bit`, format B (42_convolutional_encoder R142). -/
  | ebit (bitv : BitVec 24)
  /-- `DSTART len`, format L (43_viterbi_forward R156). -/
  | dstart (len : BitVec 24)
  /-- `DSAMP y`, format S (43_viterbi_forward R158). -/
  | dsamp (samp : Sample)
  /-- `DTERM`, format Z (44_viterbi_traceback R185). -/
  | dterm
  /-- `DRD k`, format K (44_viterbi_traceback R191). -/
  | drd (k : BitVec 16)
  /-- `RDPM s`, format P (45_system_ops R210). -/
  | rdpm (si : Idx)
  /-- `RDSV tt, s`, format V (45_system_ops R211). -/
  | rdsv (tt : BitVec 16) (si : Idx)
  deriving DecidableEq, Repr

end Sys2Proof
end

