-- ==== Sys2Proof/WellFormed.lean ====
section
/-! DEFINITION. The spec's written form of a command (30_encoding R93): a mnemonic and integer operands, each with the range
the table of R93 gives it. The range check is the well-formedness of a command as it is written down; a command of
`Instr`, whose operands have the widths of their fields, is well formed when its written form is. The text itself is not
parsed (log 17). -/

namespace Sys2Proof

/-- A sample operand "may be written as a signed decimal raw value (`-256`) or as its 16-bit pattern (`0xFF00`)" (R93). -/
inductive SampleOperand where
  | raw (y : Int)
  | pattern (p : Nat)
  deriving DecidableEq, Repr

/-- The written form of a command (30_encoding R93). -/
inductive Written where
  | nop
  | reset
  | rdstat
  | clrerr
  | b2s (bit : Nat)
  | s2b (y : SampleOperand)
  | trans (state bit : Nat)
  | estart
  | ebit (bit : Nat)
  | dstart (len : Nat)
  | dsamp (y : SampleOperand)
  | dterm
  | drd (k : Nat)
  | rdpm (si : Nat)
  | rdsv (tt si : Nat)
  deriving DecidableEq, Repr

/-- A raw sample is in −32768..32767, a pattern has 16 bits (R93). -/
def SampleOperand.wellFormed : SampleOperand → Bool
  | .raw y => decide (-32768 ≤ y ∧ y ≤ 32767)
  | .pattern p => decide (p ≤ 65535)

/-- The operand's 16 bits: `y AND 0xFFFF` (R93). -/
def SampleOperand.bits : SampleOperand → Sample
  | .raw y => BitVec.ofInt 16 y
  | .pattern p => BitVec.ofNat 16 p

/-- The operand ranges of 30_encoding R93. -/
def Written.wellFormed : Written → Bool
  | .nop => true
  | .reset => true
  | .rdstat => true
  | .clrerr => true
  | .b2s bit => decide (bit ≤ 16777215)
  | .s2b y => y.wellFormed
  | .trans state bit => decide (state ≤ 255) && decide (bit ≤ 255)
  | .estart => true
  | .ebit bit => decide (bit ≤ 16777215)
  | .dstart len => decide (len ≤ 16777215)
  | .dsamp y => y.wellFormed
  | .dterm => true
  | .drd k => decide (k ≤ 65535)
  | .rdpm si => decide (si ≤ 7)
  | .rdsv tt si => decide (tt ≤ 65535) && decide (si ≤ 7)

/-- The command a written form stands for, operands cut to their fields. -/
def Written.cut : Written → Instr
  | .nop => .nop
  | .reset => .reset
  | .rdstat => .rdstat
  | .clrerr => .clrerr
  | .b2s bit => .b2s (BitVec.ofNat 24 bit)
  | .s2b y => .s2b y.bits
  | .trans state bit => .trans (BitVec.ofNat 8 state) (BitVec.ofNat 8 bit)
  | .estart => .estart
  | .ebit bit => .ebit (BitVec.ofNat 24 bit)
  | .dstart len => .dstart (BitVec.ofNat 24 len)
  | .dsamp y => .dsamp y.bits
  | .dterm => .dterm
  | .drd k => .drd (BitVec.ofNat 16 k)
  | .rdpm si => .rdpm (BitVec.ofNat 3 si)
  | .rdsv tt si => .rdsv (BitVec.ofNat 16 tt) (BitVec.ofNat 3 si)

/-- The assembler of R93: an operand out of its range is refused, never cut. -/
def Written.assemble (x : Written) : Option Instr :=
  if x.wellFormed then some x.cut else none

/-- The written form of a command, sample operands as signed raw values. -/
def Instr.written : Instr → Written
  | .nop => .nop
  | .reset => .reset
  | .rdstat => .rdstat
  | .clrerr => .clrerr
  | .b2s bitv => .b2s bitv.toNat
  | .s2b samp => .s2b (.raw samp.toInt)
  | .trans stv bitv8 => .trans stv.toNat bitv8.toNat
  | .estart => .estart
  | .ebit bitv => .ebit bitv.toNat
  | .dstart len => .dstart len.toNat
  | .dsamp samp => .dsamp (.raw samp.toInt)
  | .dterm => .dterm
  | .drd k => .drd k.toNat
  | .rdpm si => .rdpm si.toNat
  | .rdsv tt si => .rdsv tt.toNat si.toNat

/-- A command is well formed when its written form is within the ranges of R93. -/
def Instr.wellFormed (i : Instr) : Bool := i.written.wellFormed

end Sys2Proof
end

