-- ==== Sys2Proof/Decode.lean ====
section
/-! DEFINITION. The decoder (30_encoding R80 to R85, R88), total on every 32-bit word and refusing an illegal word by
name; then the encoder (R93), and the word of every constructor written out from the spec's tables. A command is one
word, so there is no length computation (R90) and no byte order (20_memory R60). -/

namespace Sys2Proof

/-- Why a word selects no command (30_encoding R88): the opcode is unassigned, or a reserved bit is set. Both are
`ERR_OP` to the block. -/
inductive IllegalWord where
  | unassignedOpcode (op : BitVec 8)
  | reservedBit (op : BitVec 8)
  deriving DecidableEq, Repr

/-- `op = w[31:24]` (R80). -/
def opOf (w : Word) : BitVec 8 := w.extractLsb' 24 8

/-- `imm = w[23:0]` (R80). -/
def immOf (w : Word) : BitVec 24 := w.extractLsb' 0 24

/-- Format Z: `imm[23:0]` reserved (R81). -/
def formatZ (op : BitVec 8) (imm : BitVec 24) (i : Instr) : Except IllegalWord Instr :=
  if imm = 0#24 then .ok i else .error (.reservedBit op)

/-- Formats S and K: `imm[23:16]` reserved, `imm[15:0]` the operand (R81). -/
def formatS (op : BitVec 8) (imm : BitVec 24) (f : BitVec 16 → Instr) : Except IllegalWord Instr :=
  if imm.extractLsb' 16 8 = 0#8 then .ok (f (imm.extractLsb' 0 16)) else .error (.reservedBit op)

/-- Format T: `imm[23:16]` reserved, `stv = imm[15:8]`, `bitv8 = imm[7:0]` (R81). -/
def formatT (op : BitVec 8) (imm : BitVec 24) (f : BitVec 8 → BitVec 8 → Instr) : Except IllegalWord Instr :=
  if imm.extractLsb' 16 8 = 0#8 then .ok (f (imm.extractLsb' 8 8) (imm.extractLsb' 0 8))
  else .error (.reservedBit op)

/-- Format P: `imm[23:3]` reserved, `s = imm[2:0]` (R81). -/
def formatP (op : BitVec 8) (imm : BitVec 24) (f : Idx → Instr) : Except IllegalWord Instr :=
  if imm.extractLsb' 3 21 = 0#21 then .ok (f (imm.extractLsb' 0 3)) else .error (.reservedBit op)

/-- Format V: `imm[23:19]` reserved, `tt = imm[18:3]`, `s = imm[2:0]` (R81). -/
def formatV (op : BitVec 8) (imm : BitVec 24) (f : BitVec 16 → Idx → Instr) : Except IllegalWord Instr :=
  if imm.extractLsb' 19 5 = 0#5 then .ok (f (imm.extractLsb' 3 16) (imm.extractLsb' 0 3))
  else .error (.reservedBit op)

/-- The opcode map (R83) and the formats (R81): the command an opcode and its operand field select. Formats B and L have
no reserved bit. -/
def decodeFields (op : BitVec 8) (imm : BitVec 24) : Except IllegalWord Instr :=
  match op with
  | 0x00#8 => formatZ op imm .nop
  | 0x01#8 => formatZ op imm .reset
  | 0x02#8 => formatZ op imm .rdstat
  | 0x03#8 => formatZ op imm .clrerr
  | 0x10#8 => .ok (.b2s imm)
  | 0x11#8 => formatS op imm .s2b
  | 0x18#8 => formatT op imm .trans
  | 0x20#8 => formatZ op imm .estart
  | 0x21#8 => .ok (.ebit imm)
  | 0x30#8 => .ok (.dstart imm)
  | 0x31#8 => formatS op imm .dsamp
  | 0x32#8 => formatZ op imm .dterm
  | 0x33#8 => formatS op imm .drd
  | 0x38#8 => formatP op imm .rdpm
  | 0x39#8 => formatV op imm .rdsv
  | _ => .error (.unassignedOpcode op)

/-- Decoding (R85): it "looks at nothing but the word". -/
def decode (w : Word) : Except IllegalWord Instr := decodeFields (opOf w) (immOf w)

/-- The word of an instruction whose bits are `w`, numbered from bit 0 of the one command word; every bit above `nbits` is
0 (log 15). -/
def tableWord (nbits w : Nat) : Word := BitVec.ofNat 32 (w % 2 ^ nbits)

/-- What the decoder reads from an instruction whose bits are `w`. -/
def decodeTableWord (nbits w : Nat) : Option Instr :=
  match decode (tableWord nbits w) with
  | .ok i => some i
  | .error _ => none

/-- One row of 30_encoding R84: "a word `w` selects the row when `w AND mask = match`". -/
structure OpRow where
  mnemonic : String
  matchBits : Word
  mask : Word
  deriving DecidableEq, Repr

/-- The complete command list of R84. -/
def opTable : List OpRow := [
  ⟨"NOP", 0x00000000, 0xFFFFFFFF⟩,
  ⟨"RESET", 0x01000000, 0xFFFFFFFF⟩,
  ⟨"RDSTAT", 0x02000000, 0xFFFFFFFF⟩,
  ⟨"CLRERR", 0x03000000, 0xFFFFFFFF⟩,
  ⟨"B2S", 0x10000000, 0xFF000000⟩,
  ⟨"S2B", 0x11000000, 0xFFFF0000⟩,
  ⟨"TRANS", 0x18000000, 0xFFFF0000⟩,
  ⟨"ESTART", 0x20000000, 0xFFFFFFFF⟩,
  ⟨"EBIT", 0x21000000, 0xFF000000⟩,
  ⟨"DSTART", 0x30000000, 0xFF000000⟩,
  ⟨"DSAMP", 0x31000000, 0xFFFF0000⟩,
  ⟨"DTERM", 0x32000000, 0xFFFFFFFF⟩,
  ⟨"DRD", 0x33000000, 0xFFFF0000⟩,
  ⟨"RDPM", 0x38000000, 0xFFFFFFF8⟩,
  ⟨"RDSV", 0x39000000, 0xFFF80000⟩]

/-- `w AND mask = match` (R84). -/
def OpRow.selects (r : OpRow) (w : Word) : Bool := w &&& r.mask == r.matchBits

/-- The mnemonic of a command, as R84 spells it. -/
def Instr.mnemonic : Instr → String
  | .nop => "NOP"
  | .reset => "RESET"
  | .rdstat => "RDSTAT"
  | .clrerr => "CLRERR"
  | .b2s _ => "B2S"
  | .s2b _ => "S2B"
  | .trans _ _ => "TRANS"
  | .estart => "ESTART"
  | .ebit _ => "EBIT"
  | .dstart _ => "DSTART"
  | .dsamp _ => "DSAMP"
  | .dterm => "DTERM"
  | .drd _ => "DRD"
  | .rdpm _ => "RDPM"
  | .rdsv _ _ => "RDSV"

/-- The `op` byte of a command (R83, R84). -/
def Instr.op : Instr → BitVec 8
  | .nop => 0x00
  | .reset => 0x01
  | .rdstat => 0x02
  | .clrerr => 0x03
  | .b2s _ => 0x10
  | .s2b _ => 0x11
  | .trans _ _ => 0x18
  | .estart => 0x20
  | .ebit _ => 0x21
  | .dstart _ => 0x30
  | .dsamp _ => 0x31
  | .dterm => 0x32
  | .drd _ => 0x33
  | .rdpm _ => 0x38
  | .rdsv _ _ => 0x39

/-- The `imm` field of a command: its operands at the places R81 gives them, reserved bits 0. -/
def Instr.imm : Instr → BitVec 24
  | .nop => 0
  | .reset => 0
  | .rdstat => 0
  | .clrerr => 0
  | .b2s bitv => bitv
  | .s2b samp => 0#8 ++ samp
  | .trans stv bitv8 => 0#8 ++ stv ++ bitv8
  | .estart => 0
  | .ebit bitv => bitv
  | .dstart len => len
  | .dsamp samp => 0#8 ++ samp
  | .dterm => 0
  | .drd k => 0#8 ++ k
  | .rdpm si => 0#21 ++ si
  | .rdsv tt si => 0#5 ++ tt ++ si

/-- The encoder: `w = (op << 24) | imm` (R93). -/
def encode (i : Instr) : Word := i.op ++ i.imm

/-- The 16 bits of a written sample operand as a number: `y AND 0xFFFF` (R93). -/
def SampleOperand.value : SampleOperand → Nat
  | .raw y => (y % 65536).toNat
  | .pattern p => p

/-- The mnemonic a written form begins with (R93, R84). -/
def Written.mnemonic : Written → String
  | .nop => "NOP"
  | .reset => "RESET"
  | .rdstat => "RDSTAT"
  | .clrerr => "CLRERR"
  | .b2s _ => "B2S"
  | .s2b _ => "S2B"
  | .trans _ _ => "TRANS"
  | .estart => "ESTART"
  | .ebit _ => "EBIT"
  | .dstart _ => "DSTART"
  | .dsamp _ => "DSAMP"
  | .dterm => "DTERM"
  | .drd _ => "DRD"
  | .rdpm _ => "RDPM"
  | .rdsv _ _ => "RDSV"

/-- The operand field of a written form as a number: the `imm` column of R93. -/
def Written.immValue : Written → Nat
  | .nop => 0
  | .reset => 0
  | .rdstat => 0
  | .clrerr => 0
  | .b2s bit => bit
  | .s2b y => y.value
  | .trans state bit => 256 * state + bit
  | .estart => 0
  | .ebit bit => bit
  | .dstart len => len
  | .dsamp y => y.value
  | .dterm => 0
  | .drd k => k
  | .rdpm si => si
  | .rdsv tt si => 8 * tt + si

/-! One word per constructor, from the match column of R84 with operands placed by R81 and R93. -/

theorem decode_word_nop : decode 0x00000000 = .ok .nop := by decide
theorem decode_word_reset : decode 0x01000000 = .ok .reset := by decide
theorem decode_word_rdstat : decode 0x02000000 = .ok .rdstat := by decide
theorem decode_word_clrerr : decode 0x03000000 = .ok .clrerr := by decide
theorem decode_word_b2s : decode 0x10FFFFFF = .ok (.b2s 0xFFFFFF) := by decide
theorem decode_word_s2b : decode 0x1100FF00 = .ok (.s2b 0xFF00) := by decide
theorem decode_word_trans : decode 0x18000601 = .ok (.trans 6 1) := by decide
theorem decode_word_estart : decode 0x20000000 = .ok .estart := by decide
theorem decode_word_ebit : decode 0x21000001 = .ok (.ebit 1) := by decide
theorem decode_word_dstart : decode 0x3003FFFC = .ok (.dstart 262140) := by decide
theorem decode_word_dsamp : decode 0x3100FED4 = .ok (.dsamp (-300)) := by decide
theorem decode_word_dterm : decode 0x32000000 = .ok .dterm := by decide
theorem decode_word_drd : decode 0x3300FFFF = .ok (.drd 65535) := by decide
theorem decode_word_rdpm : decode 0x38000007 = .ok (.rdpm 7) := by decide
theorem decode_word_rdsv : decode 0x39000016 = .ok (.rdsv 2 6) := by decide

end Sys2Proof
end

