-- ==== Sys2Proof/Config.lean ====
section
/-! DEFINITION. What the platform fixes: the one open parameter of the spec, `N_MAX` (00_scope R6, 92 D10, 93 U8). The
model takes it as an argument: it stands in the state, no step writes it, and a statement over all states holds for every
value of it. The spec leaves no value to a draw, so there is no free value here. -/

namespace Sys2Proof

/-- The platform parameter. `nMax` is the largest bit count of one decode frame, the depth of the survivor memory and of
the decoded-bit buffer (00_scope R6). -/
structure Config where
  nMax : Nat
  deriving DecidableEq, Repr

/-- `1 ≤ N_MAX ≤ 65535` (00_scope R6). -/
abbrev Config.Legal (c : Config) : Prop := 1 ≤ c.nMax ∧ c.nMax ≤ 65535

/-- The suggested value 1024 (00_scope R6). DESIGN CHOICE (log 4), unsafe for a claim about runs from `State.reset`; a
claim about every state does not rest on it. -/
def Config.suggested : Config := { nMax := 1024 }

end Sys2Proof
end

