-- ==== Sys2Proof/Machine/State.lean ====
section
/-! DEFINITION. The architectural state (10_state R20), the model's own fields beside it (the platform parameter, what the
host will send, the ports' outputs of the step just done), the reasons a step can stop, and the state after reset. -/

namespace Sys2Proof.Machine

/-- The decoder's sequencing state (10_state R23). The two-bit value 3 "is never written; a model may leave it out of the
type" (log 13). -/
inductive Dst where
  | idle
  | run
  | done
  deriving DecidableEq, Repr

/-- A path metric (00_scope R13, 43_viterbi_forward R160): the flag `inf`, or a finite value. R7: "a model may hold a
finite metric as an unbounded natural number with the same results as the hardware" (log 10). -/
inductive Metric where
  | inf
  | fin (m : Nat)
  deriving DecidableEq, Repr

/-- A memory of entries `w` bits wide: (address, entry) pairs, addresses strictly rising; an address not listed has never
been written and holds no value (10_state R35, logs 6 and 7). -/
abbrev Memory (w : Nat) := List (Nat × BitVec w)

/-- What the host can do to the block (70_reset_and_hazards R271): drive one command word on the `cmd` port (20_memory
R58), or assert the reset input (R255). -/
inductive HostInput where
  | command (w : Word)
  | resetInput
  deriving DecidableEq, Repr

/-- Reasons the machine stops. The spec's errors are none of these: an error is an ordinary step (60_exceptions R249). No
state that meets the invariant of 10_state R34 reaches a fault. -/
inductive Fault where
  /-- Raised by `RDSV` and `DTERM` reading an entry of the survivor memory that nothing has written. Safe: 10_state R35
  says no read meets one (log 6). -/
  | svUnwritten (addr : Nat)
  /-- Raised by `RDSV`, `DTERM` and the `DSAMP` that completes a time step, on an address outside rows 1..`N_MAX`, which
  20_memory R50 says does not exist. Safe (log 8). -/
  | svNoAddress (addr : Nat)
  /-- Raised by `DRD` reading a decoded bit that nothing has written. Safe: 10_state R35 (log 6). -/
  | dbUnwritten (addr : Nat)
  /-- Raised by `DRD` and `DTERM` on an address at or above `N_MAX`, outside the space of 20_memory R55. Safe (log 8). -/
  | dbNoAddress (addr : Nat)
  /-- Raised by `DTERM` when the traceback reads an entry with `valid = 0`. Safe: 93 U6 asks for "an explicit failure"
  here, and 44_viterbi_traceback R189 says the branch is unreachable (log 9). -/
  | missingBackPointer (addr : Nat)
  deriving DecidableEq, Repr

/-- Reasons a step has no meaning. -/
inductive Refusal where
  /-- The instruction of this mnemonic is not modelled yet. Raised by an arm of `exec` only; at present by none. Safe. -/
  | notModelled (mnemonic : String)
  deriving DecidableEq, Repr

structure State where
  /-- The platform parameter `N_MAX` (00_scope R6, log 4). No step writes it. -/
  cfg : Config
  /-- `enc_state`, 3 bits (R21). -/
  encState : Idx
  /-- `eflt`, 1 bit (R22). -/
  eflt : Bool
  /-- `dst` (R23). -/
  dst : Dst
  /-- `n`, 16 bits (R25). -/
  n : BitVec 16
  /-- `t`, 16 bits (R26). -/
  t : BitVec 16
  /-- `ph`, 2 bits (R26). -/
  ph : BitVec 2
  /-- `ybuf[0..2]` (R28). -/
  ybuf : Vector Sample 3
  /-- `pm[0..7]` (R27). -/
  pm : Vector Metric 8
  /-- The survivor memory, space SV, 5-bit entries (R32, 20_memory R50, R51). -/
  sv : Memory 5
  /-- The decoded-bit buffer, space DB (R32, 20_memory R55). -/
  dbuf : Memory 1
  /-- `errflags`, 6 bits (R29). -/
  errflags : BitVec 6
  /-- `lasterr`, 4 bits (R30). -/
  lasterr : BitVec 4
  /-- What the host sends next, in order; not storage of the block (R8, R270, log 1). -/
  inputs : List HostInput
  /-- The `rsp` port: the response of the step just done, if it produced one (30_encoding R86, log 2). -/
  rsp : Option RspWord
  /-- The `cw` port: the samples the step just done produced, if any (30_encoding R87, log 2). -/
  cw : Option CwWord
  deriving DecidableEq, Repr

/-- The reset state (70_reset_and_hazards R255) on a platform `cfg`. The contents of `ybuf` and `pm`, which R255 calls
"unspecified and not observable", are zeros (DESIGN CHOICE, log 5); the memories list nothing (log 6). -/
def State.resetOn (cfg : Config) : State where
  cfg := cfg
  encState := 7
  eflt := false
  dst := .idle
  n := 0
  t := 0
  ph := 0
  ybuf := #v[0, 0, 0]
  pm := #v[.fin 0, .fin 0, .fin 0, .fin 0, .fin 0, .fin 0, .fin 0, .fin 0]
  sv := []
  dbuf := []
  errflags := 0
  lasterr := 0
  inputs := []
  rsp := none
  cw := none

/-- The machine right after reset, with the suggested `N_MAX` (log 4). -/
def State.reset : State := State.resetOn Config.suggested

/-- What a step or a meaning answers. -/
abbrev Result := Host.Outcome State Fault Refusal

end Sys2Proof.Machine
end

