-- ==== Sys2Proof/Machine/Operands.lean ====
section
/-! DEFINITION. The operand forms (30_encoding R82) and the pure functions of the symbol_mapper (40_symbol_mapper R110 to
R112) and of the state index (41_trellis_model R121). -/

namespace Sys2Proof

/-- The symbol code `sc`: `sc(+1) = 1`, `sc(−1) = 0` (00_scope R13). -/
def Symbol.code : Symbol → BitVec 1
  | .neg => 0#1
  | .pos => 1#1

/-- The number −1 or +1 a Symbol is (00_scope R13). -/
def Symbol.val : Symbol → Int
  | .neg => -1
  | .pos => 1

/-- The product of the numbers −1 and +1 (41_trellis_model R122). -/
def Symbol.mul : Symbol → Symbol → Symbol
  | .pos, x => x
  | .neg, .pos => .neg
  | .neg, .neg => .pos

/-- `bitToSymbol`: bit 0 → −1, 1 → +1 (40_symbol_mapper R110). -/
def b2s (u : Bit) : Symbol := if u = 1#1 then .pos else .neg

/-- `symbolToBit`: 1 when `y ≥ 0`, else 0 (40_symbol_mapper R111). -/
def s2b (y : Sample) : Bit := if 0 ≤ y.toInt then 1#1 else 0#1

/-- `ONE = 256`, the raw value of the real number 1 (00_scope R6). -/
def one : Int := 256

/-- The sample of a symbol: `16'h0100` for +1, `16'hFF00` for −1 (40_symbol_mapper R112). -/
def sym2sample : Symbol → Sample
  | .pos => 0x0100#16
  | .neg => 0xFF00#16

end Sys2Proof

namespace Sys2Proof.Machine

/-- A bit operand wider than one bit (30_encoding R81): the Bit it is, or nothing when it is greater than 1 (the
`ERR_BIT` test of 60_exceptions R227). -/
def asBit {w : Nat} (v : BitVec w) : Option Bit :=
  if v.toNat ≤ 1 then some (BitVec.ofNat 1 v.toNat) else none

/-- The state operand of `TRANS`: the state index it is, or nothing when it is greater than 7 (60_exceptions R231). -/
def asIdx (v : BitVec 8) : Option Idx :=
  if v.toNat ≤ 7 then some (BitVec.ofNat 3 v.toNat) else none

/-- A sample operand `y = sext_16(imm[15:0])`, −32768..32767 (30_encoding R82). -/
def sampleValue (y : Sample) : Int := y.toInt

/-- `data` zero-extended to 56 bits (00_scope R14, `respond`). -/
def zext56 {w : Nat} (v : BitVec w) : BitVec 56 := v.setWidth 56

/-- `allStates()`: 0, 1, ..., 7 in that order (41_trellis_model R121). -/
def allStates : List Idx := [0, 1, 2, 3, 4, 5, 6, 7]

/-- Entry `i` of a table indexed by state. -/
def at8 {α : Type} (v : Vector α 8) (i : Idx) : α := v[i.toNat]'i.isLt

/-- The table whose entry `i` is `f i`. -/
def byState {α : Type} (f : Idx → α) : Vector α 8 := Vector.ofFn (fun i => f (BitVec.ofFin i))

end Sys2Proof.Machine
end

