-- ==== Sys2Proof/Machine/Flags.lean ====
section
/-! DEFINITION. The six error causes and their codes (60_exceptions R225), the sticky flags (10_state R29), the response
word (30_encoding R86) and the status word (10_state R31). -/

namespace Sys2Proof.Machine

/-- The six error causes (60_exceptions R225). -/
inductive Err where
  | len
  | bit
  | seq
  | cap
  | idx
  | op
  deriving DecidableEq, Repr

/-- The code of a cause (60_exceptions R225). -/
def Err.code : Err → BitVec 4
  | .len => 1
  | .bit => 2
  | .seq => 3
  | .cap => 4
  | .idx => 5
  | .op => 6

/-- The sticky flag of a cause: "Bit `k − 1` of `errflags` belongs to error code `k`" (10_state R29). -/
def Err.flag : Err → BitVec 6
  | .len => 0b000001
  | .bit => 0b000010
  | .seq => 0b000100
  | .cap => 0b001000
  | .idx => 0b010000
  | .op => 0b100000

/-- The response of a command that succeeds: `{4'h0, 4'h0, data}` (00_scope R14, 30_encoding R86). -/
def okResponse (data : BitVec 56) : RspWord := 0#4 ++ 0#4 ++ data

/-- The response of a command that fails: `{c[3:0], 60'h0}` (60_exceptions R232). -/
def errResponse (e : Err) : RspWord := e.code ++ 0#60

/-- The field `st` of a response (30_encoding R86). -/
def rspStatus (r : RspWord) : BitVec 4 := r.extractLsb' 60 4

/-- The field `data` of a response (30_encoding R86). -/
def rspData (r : RspWord) : BitVec 56 := r.extractLsb' 0 56

/-- The field `DST` of the status word: 0 IDLE, 1 RUN, 2 DONE (10_state R20, R31). -/
def Dst.bits : Dst → BitVec 2
  | .idle => 0
  | .run => 1
  | .done => 2

/-- The status word `STATUS` (10_state R31, 45_system_ops R207). -/
def statusWord (s : State) : BitVec 56 :=
  s.n ++ s.t ++ 0#4 ++ s.lasterr ++ 0#2 ++ s.errflags ++ 0#3 ++ s.ph ++ BitVec.ofBool s.eflt ++ s.dst.bits

end Sys2Proof.Machine
end

