-- ==== Sys2Proof/Machine/Ops.lean ====
section
/-! DEFINITION. The operations every meaning is written with: answering and failing (what an error does is ONE operation,
60_exceptions R232), the two memories, the metrics, reset, and what the host sends next. -/

namespace Sys2Proof.Machine

/-! ## Ending a command -/

/-- `respond(data)`: the command ends normally (00_scope R14), nothing on `cw`. -/
def respond (data : BitVec 56) (s : State) : State :=
  { s with rsp := some (okResponse data), cw := none }

/-- A successful `EBIT` also produces four samples on `cw` (30_encoding R87). -/
def respondCw (data : BitVec 56) (samples : CwWord) (s : State) : State :=
  { s with rsp := some (okResponse data), cw := some samples }

/-- `raise ERR_x` (60_exceptions R232): the flag of the cause is set, `lasterr` gets the code, the response is
`{code, 60'h0}`, nothing appears on `cw`, and the rest of the state is as before. There is no vector, no handler, no mode
and no saved state. -/
def raise (e : Err) (s : State) : State :=
  { s with errflags := s.errflags ||| e.flag, lasterr := e.code, rsp := some (errResponse e), cw := none }

/-- The outcome of a command that ends normally. -/
def answer (data : BitVec 56) (s : State) : Result := .next (respond data s)

/-- The outcome of a command that raises `e`: an ordinary step (60_exceptions R249). -/
def fail (e : Err) (s : State) : Result := .next (raise e s)

/-- An illegal word raises `ERR_OP` (30_encoding R88, 60_exceptions R234). -/
def execIllegal (s : State) : Result := fail .op s

/-! ## Reset and recovery -/

/-- The registers that have a reset value take it; `pm`, `ybuf`, `sv` and `dbuf` are not written (45_system_ops R206,
70_reset_and_hazards R255). -/
def resetRegs (s : State) : State :=
  { s with encState := 7, eflt := false, dst := .idle, n := 0, t := 0, ph := 0, errflags := 0, lasterr := 0 }

/-- The hardware reset input: as `RESET`, but it "produces no response word" (70_reset_and_hazards R255). -/
def hardwareReset (s : State) : State :=
  { resetRegs s with rsp := none, cw := none }

/-- `errflags <- 0; lasterr <- 0` (45_system_ops R208). -/
def clearErrors (s : State) : State :=
  { s with errflags := 0, lasterr := 0 }

/-- The decoder to `IDLE`, no frame: the writes of a failing `DSTART` that survive (60_exceptions R233 item 2). -/
def abandonFrame (s : State) : State :=
  { s with dst := .idle, n := 0, t := 0, ph := 0 }

/-! ## The memories -/

/-- The canonical form: addresses strictly rising. -/
def Memory.wf {w : Nat} : Memory w → Bool
  | [] => true
  | (a, _) :: rest => rest.all (fun c => decide (a < c.1)) && Memory.wf rest

/-- The entry last written at `a`, if any (20_memory R52). -/
def Memory.read {w : Nat} : Memory w → Nat → Option (BitVec w)
  | [], _ => none
  | (b, v) :: rest, a => if a = b then some v else Memory.read rest a

/-- Store entry `v` at `a` (20_memory R52). -/
def Memory.write {w : Nat} : Memory w → Nat → BitVec w → Memory w
  | [], a, v => [(a, v)]
  | (b, x) :: rest, a, v =>
    if a < b then (a, v) :: (b, x) :: rest
    else if a = b then (a, v) :: rest
    else (b, x) :: Memory.write rest a v

/-- The address of the entry of time step `t'` and state `i`: `8·t' + s` (20_memory R50). -/
def svAddr (t' : Nat) (i : Idx) : Nat := 8 * t' + i.toNat

/-- Rows `1..N_MAX` exist (20_memory R50). -/
def svRowExists (c : Config) (t' : Nat) : Bool := decide (1 ≤ t') && decide (t' ≤ c.nMax)

/-- Addresses `0..N_MAX − 1` of DB exist (20_memory R55). -/
def dbExists (c : Config) (k : Nat) : Bool := decide (k < c.nMax)

/-- `MemRead(SV, 8·t' + s)` (20_memory R52). -/
def svRead (c : Config) (m : Memory 5) (t' : Nat) (i : Idx) : Except Fault (BitVec 5) :=
  if svRowExists c t' then
    match m.read (svAddr t' i) with
    | some e => .ok e
    | none => .error (.svUnwritten (svAddr t' i))
  else .error (.svNoAddress (svAddr t' i))

/-- `MemRead(DB, k)` (20_memory R56). -/
def dbRead (c : Config) (m : Memory 1) (k : Nat) : Except Fault Bit :=
  if dbExists c k then
    match m.read k with
    | some b => .ok b
    | none => .error (.dbUnwritten k)
  else .error (.dbNoAddress k)

/-- `MemWrite(DB, k, b)` (20_memory R56). -/
def dbWrite (c : Config) (m : Memory 1) (k : Nat) (b : Bit) : Except Fault (Memory 1) :=
  if dbExists c k then .ok (m.write k b) else .error (.dbNoAddress k)

/-- The domain SvEntry: `none` or `some (pred, bit)` (00_scope R13). -/
abbrev SvEntry := Option (Idx × Bit)

/-- The stored form `{valid, pred[2:0], bit}` (20_memory R51, 43_viterbi_forward R167). -/
def packEntry : SvEntry → BitVec 5
  | none => 0#1 ++ 0#3 ++ 0#1
  | some (pred, bit) => 1#1 ++ pred ++ bit

/-- Field `valid`, bit 4 (20_memory R51). -/
def entryValid (e : BitVec 5) : Bool := e.getLsbD 4

/-- Field `pred`, bits 3:1 (20_memory R51). -/
def entryPred (e : BitVec 5) : Idx := e.extractLsb' 1 3

/-- Field `bit`, bit 0 (20_memory R51). -/
def entryBit (e : BitVec 5) : Bit := e.extractLsb' 0 1

/-- A row is written whole: `MemWrite(SV, 8·t' + s, row[s])` for all `s` in 0..7 (20_memory R54, 43_viterbi_forward
R167). -/
def svWriteRow (c : Config) (m : Memory 5) (t' : Nat) (row : Vector SvEntry 8) : Except Fault (Memory 5) :=
  if svRowExists c t' then
    .ok (allStates.foldl (fun acc i => acc.write (svAddr t' i) (packEntry (at8 row i))) m)
  else .error (.svNoAddress (svAddr t' 0))

/-! ## Metrics -/

/-- `INF + b = INF`; `m + b` is the exact sum for finite `m` (43_viterbi_forward R160). -/
def Metric.add : Metric → Nat → Metric
  | .inf, _ => .inf
  | .fin m, b => .fin (m + b)

/-- The order of 43_viterbi_forward R160: every finite metric is less than `INF`, and `INF < x` is false for every
`x`. -/
def Metric.lt : Metric → Metric → Bool
  | .inf, _ => false
  | .fin _, .inf => true
  | .fin x, .fin y => decide (x < y)

/-- The flag `inf` (10_state R27). -/
def Metric.isInf : Metric → Bool
  | .inf => true
  | .fin _ => false

/-- The field `val`, 49 bits, which "reads as 0" when `inf = 1` (10_state R27). -/
def Metric.val : Metric → BitVec 49
  | .inf => 0
  | .fin m => BitVec.ofNat 49 m

/-! ## What the host sends -/

/-- The next thing the host does, and the state once it is taken (70_reset_and_hazards R271, log 1). -/
def nextInput (s : State) : Option (HostInput × State) :=
  match s.inputs with
  | [] => none
  | h :: rest => some (h, { s with inputs := rest })

/-- Between commands the block is idle "and keeps all its state" (60_exceptions R248); no port carries anything (log
3). -/
def idle (s : State) : State := { s with rsp := none, cw := none }

/-- The host drives `w` next, before everything else it sends. -/
def placeCommand (s : State) (w : Word) : State := { s with inputs := .command w :: s.inputs }

end Sys2Proof.Machine
end

