-- ==== Sys2Proof/Machine/Trellis.lean ====
section
/-! DEFINITION. The trellis_state_machine: the one transition function (41_trellis_model R122), which the encoder, the
decoder and TRANS all use (00_scope R11), and TRANS. -/

namespace Sys2Proof

/-- A State of the trellis, the triple `(a, b, c)` of Symbols, `a` the oldest (41_trellis_model R120). -/
structure Trellis where
  a : Symbol
  b : Symbol
  c : Symbol
  deriving DecidableEq, Repr

/-- `idx(a, b, c) = 4·sc(a) + 2·sc(b) + sc(c)` (41_trellis_model R121). -/
def Trellis.idx (q : Trellis) : Idx := q.a.code ++ q.b.code ++ q.c.code

/-- The inverse: `a = b2s(idx[2])`, `b = b2s(idx[1])`, `c = b2s(idx[0])` (41_trellis_model R121). -/
def Trellis.ofIdx (i : Idx) : Trellis where
  a := b2s (i.extractLsb' 2 1)
  b := b2s (i.extractLsb' 1 1)
  c := b2s (i.extractLsb' 0 1)

/-- What `transition` returns: `(o0, o1, o2, o3, next)` (41_trellis_model R122). -/
structure Transition where
  o0 : Symbol
  o1 : Symbol
  o2 : Symbol
  o3 : Symbol
  next : Idx
  deriving DecidableEq, Repr

/-- The transition function (41_trellis_model R122): `out0 = a·b·s`, `out1 = b·c·s`, `out2 = a·c·s`, `out3 = a·s`,
`nextState = (b, c, s)`. -/
def transition (i : Idx) (u : Bit) : Transition :=
  let q := Trellis.ofIdx i
  let s := b2s u
  { o0 := (q.a.mul q.b).mul s
    o1 := (q.b.mul q.c).mul s
    o2 := (q.a.mul q.c).mul s
    o3 := q.a.mul s
    next := Trellis.idx { a := q.b, b := q.c, c := s } }

/-- The four symbol codes, `out0` in bit 3 (20_memory R62, 30_encoding R91). -/
def Transition.codes (x : Transition) : BitVec 4 := x.o0.code ++ x.o1.code ++ x.o2.code ++ x.o3.code

/-- The four samples as `cw` carries them, `out0` in `cw[63:48]` (30_encoding R87). -/
def Transition.samples (x : Transition) : CwWord :=
  sym2sample x.o0 ++ sym2sample x.o1 ++ sym2sample x.o2 ++ sym2sample x.o3

/-- The `data` field of `TRANS` and `EBIT`: 6:4 the next state, 3:0 the codes (30_encoding R91). -/
def Transition.data (x : Transition) : BitVec 56 := Machine.zext56 (x.next ++ x.codes)

/-- The predecessor of `ns` with oldest symbol −1: `floor(ns / 2)` (41_trellis_model R127). -/
def pred0 (ns : Idx) : Idx := ns >>> 1

/-- The predecessor of `ns` with oldest symbol +1: `floor(ns / 2) + 4` (41_trellis_model R127). -/
def pred1 (ns : Idx) : Idx := (ns >>> 1) + 4#3

/-- The input bit of every transition into `ns`: `ns mod 2` (41_trellis_model R127). -/
def inputBit (ns : Idx) : Bit := ns.extractLsb' 0 1

end Sys2Proof

namespace Sys2Proof.Machine

/-- `TRANS state, bit` (41_trellis_model R130): `ERR_IDX` is checked before `ERR_BIT`. -/
def execTrans (stv bitv8 : BitVec 8) (s : State) : Result :=
  match asIdx stv with
  | none => fail .idx s
  | some i =>
    match asBit bitv8 with
    | none => fail .bit s
    | some u => answer (transition i u).data s

end Sys2Proof.Machine
end

