-- ==== Sys2Proof/Machine/Encoder.lean ====
section
/-! DEFINITION. The encoder: ESTART, EBIT (42_convolutional_encoder), and `encode` as a function (R143). -/

namespace Sys2Proof.Machine

/-- `ESTART` (42_convolutional_encoder R141). -/
def execEstart (s : State) : Result := answer 0 { s with encState := 7, eflt := false }

/-- `EBIT bit` (42_convolutional_encoder R142): `ERR_SEQ` first; `eflt <- 1` survives `ERR_BIT` (60_exceptions R233 item
1). -/
def execEbit (bitv : BitVec 24) (s : State) : Result :=
  if s.eflt then fail .seq s
  else
    match asBit bitv with
    | none => fail .bit { s with eflt := true }
    | some u =>
      let x := transition s.encState u
      .next (respondCw x.data x.samples { s with encState := x.next })

end Sys2Proof.Machine

namespace Sys2Proof

/-- The four samples of one transition, `out0` first (20_memory R63). -/
def Transition.sampleList (x : Transition) : List Sample :=
  [sym2sample x.o0, sym2sample x.o1, sym2sample x.o2, sym2sample x.o3]

/-- The codeword of a bit list from state `q` (42_convolutional_encoder R143). -/
def walk (q : Idx) : List Bit → List Sample
  | [] => []
  | u :: rest => (transition q u).sampleList ++ walk (transition q u).next rest

/-- The state a bit list leads to from `q`. -/
def walkEnd (q : Idx) : List Bit → Idx
  | [] => q
  | u :: rest => walkEnd (transition q u).next rest

/-- `encode(bits) = walk(7, bits)` (42_convolutional_encoder R143). -/
def encodeBits (bits : List Bit) : List Sample := walk 7 bits

end Sys2Proof
end

