-- ==== Sys2Proof/Machine/Mapper.lean ====
section
/-! DEFINITION. The symbol_mapper's commands: B2S, S2B (40_symbol_mapper). -/

namespace Sys2Proof.Machine

/-- `B2S bit` (40_symbol_mapper R113). -/
def execB2s (bitv : BitVec 24) (s : State) : Result :=
  match asBit bitv with
  | none => fail .bit s
  | some u => answer (zext56 (sym2sample (b2s u))) s

/-- `S2B y` (40_symbol_mapper R114). -/
def execS2b (samp : Sample) (s : State) : Result := answer (zext56 (s2b samp)) s

end Sys2Proof.Machine
end

