-- ==== Sys2Proof/Machine/System.lean ====
section
/-! DEFINITION. The system and inspection commands: NOP, RESET, RDSTAT, CLRERR, RDPM, RDSV (45_system_ops). -/

namespace Sys2Proof.Machine

/-- `NOP` (45_system_ops R205). -/
def execNop (s : State) : Result := answer 0 s

/-- `RESET` (45_system_ops R206). -/
def execReset (s : State) : Result := answer 0 (resetRegs s)

/-- `RDSTAT` (45_system_ops R207). -/
def execRdstat (s : State) : Result := answer (statusWord s) s

/-- `CLRERR` (45_system_ops R208). -/
def execClrerr (s : State) : Result := answer 0 (clearErrors s)

/-- `data` of `RDPM`: 49 the flag `inf`, 48:0 the value (30_encoding R91). -/
def rdpmData (m : Metric) : BitVec 56 := zext56 (BitVec.ofBool m.isInf ++ m.val)

/-- `RDPM s` (45_system_ops R210). -/
def execRdpm (si : Idx) (s : State) : Result :=
  if s.dst = .idle then fail .seq s else answer (rdpmData (at8 s.pm si)) s

/-- `RDSV tt, s` (45_system_ops R211): `ERR_SEQ` is checked first. -/
def execRdsv (tt : BitVec 16) (si : Idx) (s : State) : Result :=
  if s.dst = .idle then fail .seq s
  else if tt.toNat < 1 ∨ s.t.toNat < tt.toNat then fail .idx s
  else
    match svRead s.cfg s.sv tt.toNat si with
    | .error f => .fault f
    | .ok e => answer (zext56 e) s

end Sys2Proof.Machine
end

