-- ==== Sys2Proof/Machine/Viterbi.lean ====
section
/-! DEFINITION. The viterbi_decoder_engine's forward pass: DSTART, DSAMP (43_viterbi_forward). -/

namespace Sys2Proof.Machine

/-- The four samples of one time step (00_scope R18, sample group). -/
structure Group where
  y0 : Sample
  y1 : Sample
  y2 : Sample
  y3 : Sample
  deriving DecidableEq, Repr

/-- `(y − o·256)^2` over the integers (43_viterbi_forward R161). -/
def sqDiff (y : Sample) (o : Symbol) : Nat :=
  ((sampleValue y - o.val * one) * (sampleValue y - o.val * one)).toNat

/-- The branch metric (43_viterbi_forward R161). -/
def branchMetric (p : Idx) (u : Bit) (g : Group) : Nat :=
  let x := transition p u
  sqDiff g.y0 x.o0 + sqDiff g.y1 x.o1 + sqDiff g.y2 x.o2 + sqDiff g.y3 x.o3

/-- The candidate metric of predecessor `p` with input `u` (43_viterbi_forward R159). -/
def candidate (old : Vector Metric 8) (g : Group) (p : Idx) (u : Bit) : Metric :=
  (at8 old p).add (branchMetric p u g)

/-- Add, compare, select for one next state (43_viterbi_forward R159, R166): the lower predecessor is kept unless the
upper one is strictly smaller. -/
def acs (old : Vector Metric 8) (g : Group) (ns : Idx) : Metric × SvEntry :=
  let u := inputBit ns
  let c0 := candidate old g (pred0 ns) u
  let c1 := candidate old g (pred1 ns) u
  if c0 = .inf ∧ c1 = .inf then (.inf, none)
  else if c1.lt c0 then (c1, some (pred1 ns, u))
  else (c0, some (pred0 ns, u))

/-- Column `t + 1` from column `t` (43_viterbi_forward R159). -/
def stepColumn (old : Vector Metric 8) (g : Group) : Vector Metric 8 := byState (fun ns => (acs old g ns).1)

/-- The back-pointers of time step `t + 1` (43_viterbi_forward R159). -/
def stepRow (old : Vector Metric 8) (g : Group) : Vector SvEntry 8 := byState (fun ns => (acs old g ns).2)

/-- Column 0: `pm[7] = 0`, every other state `INF` (43_viterbi_forward R157). -/
def column0 : Vector Metric 8 := byState (fun i => if i = 7#3 then .fin 0 else .inf)

/-- `DSTART len` (43_viterbi_forward R156): `ERR_LEN` before `ERR_CAP`; a failing one leaves the decoder `IDLE`
(60_exceptions R233 item 2). `n` takes 16 bits of the count, which holds it for every legal `N_MAX` (log 11). -/
def execDstart (len : BitVec 24) (s : State) : Result :=
  if len.toNat = 0 ∨ len.toNat % 4 ≠ 0 then fail .len (abandonFrame s)
  else if s.cfg.nMax < len.toNat / 4 then fail .cap (abandonFrame s)
  else
    answer (zext56 (BitVec.ofNat 16 (len.toNat / 4)))
      { s with n := BitVec.ofNat 16 (len.toNat / 4), t := 0, ph := 0, pm := column0, dst := .run }

/-- `data` of `DSAMP`: 18 the step flag, 17:16 `ph` after, 15:0 `t` after (30_encoding R91). -/
def dsampData (stepped : Bool) (ph : BitVec 2) (t : BitVec 16) : BitVec 56 :=
  zext56 (BitVec.ofBool stepped ++ ph ++ t)

/-- The group the fourth sample completes (43_viterbi_forward R158). -/
def heldGroup (s : State) (y : Sample) : Group := { y0 := s.ybuf[0], y1 := s.ybuf[1], y2 := s.ybuf[2], y3 := y }

/-- A sample at `ph < 3` is held: `ybuf[ph] <- y; ph <- ph + 1` (43_viterbi_forward R158). -/
def holdSample (y : Sample) (s : State) : Result :=
  answer (dsampData false (s.ph + 1) s.t)
    { s with ybuf := s.ybuf.setIfInBounds s.ph.toNat y, ph := s.ph + 1 }

/-- The sample at `ph = 3` performs the time step (43_viterbi_forward R158, R167): the whole column and the whole row are
written; `t` never wraps, since it stops at `n` (10_state R24, log 11). -/
def completeStep (y : Sample) (s : State) : Result :=
  let g := heldGroup s y
  match svWriteRow s.cfg s.sv (s.t.toNat + 1) (stepRow s.pm g) with
  | .error f => .fault f
  | .ok sv' =>
    answer (dsampData true 0 (s.t + 1))
      { s with pm := stepColumn s.pm g, sv := sv', t := s.t + 1, ph := 0 }

/-- `DSAMP y` (43_viterbi_forward R158). -/
def execDsamp (samp : Sample) (s : State) : Result :=
  if s.dst ≠ .run ∨ s.t = s.n then fail .seq s
  else if s.ph.toNat < 3 then holdSample samp s
  else completeStep samp s

end Sys2Proof.Machine
end

