-- ==== Sys2Proof/Machine/Traceback.lean ====
section
/-! DEFINITION. Termination and the traceback_unit: DTERM, DRD (44_viterbi_traceback), and `decode` as a function
(R192). -/

namespace Sys2Proof.Machine

/-- The state with the least metric, the lowest index among equals (44_viterbi_traceback R186): an equal metric does not
replace. -/
def term (pm : Vector Metric 8) : Idx :=
  allStates.foldl (fun best i => if (at8 pm i).lt (at8 pm best) then i else best) 0

/-- The back-pointer of state `cur` at time step `k`; an entry with `valid = 0` is a fault, never followed
(44_viterbi_traceback R188, R189, 93 U6, log 9). -/
def backPointer (c : Config) (sv : Memory 5) (k : Nat) (cur : Idx) : Except Fault (Idx × Bit) :=
  match svRead c sv k cur with
  | .error f => .error f
  | .ok e =>
    if entryValid e then .ok (entryPred e, entryBit e) else .error (.missingBackPointer (svAddr k cur))

/-- The traceback from time step `k` and state `cur` down to time step 0, writing `dbuf[k−1], ..., dbuf[0]` in that order
(44_viterbi_traceback R188). -/
def traceback (c : Config) (sv : Memory 5) : Nat → Idx → Memory 1 → Except Fault (Memory 1)
  | 0, _, db => .ok db
  | k + 1, cur, db =>
    match backPointer c sv (k + 1) cur with
    | .error f => .error f
    | .ok (pred, bit) =>
      match dbWrite c db k bit with
      | .error f => .error f
      | .ok db' => traceback c sv k pred db'

/-- `data` of `DTERM`: 52:4 the terminal metric, 3 zero, 2:0 the terminal state (30_encoding R91); the value of
`INF`, which R186 says does not occur, reads as 0 (log 14). -/
def dtermData (m : Metric) (ts : Idx) : BitVec 56 := zext56 (m.val ++ 0#1 ++ ts)

/-- `DTERM` (44_viterbi_traceback R185). -/
def execDterm (s : State) : Result :=
  if s.dst ≠ .run ∨ s.t ≠ s.n then fail .seq s
  else
    match traceback s.cfg s.sv s.n.toNat (term s.pm) s.dbuf with
    | .error f => .fault f
    | .ok db => answer (dtermData (at8 s.pm (term s.pm)) (term s.pm)) { s with dbuf := db, dst := .done }

/-- `DRD k` (44_viterbi_traceback R191): `ERR_SEQ` is checked first. -/
def execDrd (k : BitVec 16) (s : State) : Result :=
  if s.dst ≠ .done then fail .seq s
  else if s.n.toNat ≤ k.toNat then fail .idx s
  else
    match dbRead s.cfg s.dbuf k.toNat with
    | .error f => .fault f
    | .ok b => answer (zext56 b) s

/-! ## `decode` as a function (44_viterbi_traceback R192) -/

/-- The samples of a frame in groups of four; nothing when the length is not a multiple of 4 (20_memory R63, R64). -/
def groupsOf : List Sample → Option (List Group)
  | [] => some []
  | y0 :: y1 :: y2 :: y3 :: rest => (groupsOf rest).map ({ y0 := y0, y1 := y1, y2 := y2, y3 := y3 } :: ·)
  | _ => none

/-- The last column and the rows, latest first, of the forward pass over `gs` from a column and the rows before it. -/
def forwardPass (col : Vector Metric 8) (rows : List (Vector SvEntry 8)) :
    List Group → Vector Metric 8 × List (Vector SvEntry 8)
  | [] => (col, rows)
  | g :: gs => forwardPass (stepColumn col g) (stepRow col g :: rows) gs

/-- The bits the back-pointers give from state `cur` through rows, latest first, put before the bits `acc` that follow
them; nothing when a back-pointer is missing. -/
def traceRows : List (Vector SvEntry 8) → Idx → List Bit → Option (List Bit)
  | [], _, acc => some acc
  | row :: rows, cur, acc =>
    match at8 row cur with
    | none => none
    | some (pred, bit) => traceRows rows pred (bit :: acc)

/-- `decode(Y)` (44_viterbi_traceback R192): it has no value for a length that is not a positive multiple of 4.
R192 gives it for `1 ≤ n ≤ N_MAX` only; the function takes no `N_MAX` and has a value for longer frames too, which is the
model's choice: DESIGN CHOICE (log 20), safe for the machine, whose `DSTART` refuses such a frame with `ERR_CAP`. -/
def decodeSamples (ys : List Sample) : Option (List Bit) :=
  match groupsOf ys with
  | none => none
  | some [] => none
  | some gs =>
    let r := forwardPass column0 [] gs
    traceRows r.2 (term r.1) []

/-- The sum of squared differences of raw sample values (44_viterbi_traceback R190). -/
def dist : List Sample → List Sample → Nat
  | y :: ys, z :: zs => ((y.toInt - z.toInt) * (y.toInt - z.toInt)).toNat + dist ys zs
  | _, _ => 0

end Sys2Proof.Machine
end

