-- ==== Sys2Proof/Machine/Dispatch.lean ====
section
/-! DEFINITION. One arm per command: the meaning it has. -/

namespace Sys2Proof.Machine

def exec (i : Instr) (s : State) : Host.Outcome State Fault Refusal :=
  match i with
  | .nop => Sys2Proof.Machine.execNop s
  | .reset => Sys2Proof.Machine.execReset s
  | .rdstat => Sys2Proof.Machine.execRdstat s
  | .clrerr => Sys2Proof.Machine.execClrerr s
  | .b2s bitv => Sys2Proof.Machine.execB2s bitv s
  | .s2b samp => Sys2Proof.Machine.execS2b samp s
  | .trans stv bitv8 => Sys2Proof.Machine.execTrans stv bitv8 s
  | .estart => Sys2Proof.Machine.execEstart s
  | .ebit bitv => Sys2Proof.Machine.execEbit bitv s
  | .dstart len => Sys2Proof.Machine.execDstart len s
  | .dsamp samp => Sys2Proof.Machine.execDsamp samp s
  | .dterm => Sys2Proof.Machine.execDterm s
  | .drd k => Sys2Proof.Machine.execDrd k s
  | .rdpm si => Sys2Proof.Machine.execRdpm si s
  | .rdsv tt si => Sys2Proof.Machine.execRdsv tt si s

end Sys2Proof.Machine
end

