-- ==== Sys2Proof/Machine/Step.lean ====
section
/-! DEFINITION. One step: the block takes what the host sends next and carries it out completely (00_scope R8). It fetches
nothing (10_state R24, 20_memory R71). -/

namespace Sys2Proof.Machine

/-- One step. A command word is decoded and carried out, an illegal word raises `ERR_OP` (30_encoding R85, R88), the reset
input resets (70_reset_and_hazards R255), and with nothing sent the block is idle (60_exceptions R248). -/
def step (s : State) : Host.Outcome State Fault Refusal :=
  match nextInput s with
  | none => .next (idle s)
  | some (.resetInput, s') => .next (hardwareReset s')
  | some (.command w, s') =>
    match decode w with
    | .ok i => exec i s'
    | .error _ => execIllegal s'

/-- `s` with the instruction whose bits are `w` as the next command the host drives (log 1). -/
def State.withFetchWord (s : State) (nbits w : Nat) : State := placeCommand s (tableWord nbits w)

end Sys2Proof.Machine
end

