-- ==== Sys2Proof/Machine/Sequences.lean ====
section
/-! DEFINITION. The two pseudo-instructions, macros over command sequences (30_encoding R94 to R96; the two boundary
contracts of 00_scope R16). A macro expands to written commands; each has a word only when its operand is in the range of
30_encoding R93, and none is ever cut. -/

namespace Sys2Proof.Machine

/-- `ENCODE u_0, ..., u_{m−1}` (30_encoding R95). -/
def encodeCommands (us : List Nat) : List Written := .estart :: us.map .ebit

/-- `DECODE y_0, ..., y_{L−1}` (30_encoding R96), with `n = L / 4`. The spec gives no word to `DSTART L` for `L` above
16777215, nor to `DRD k` for `k` above 65535 (R93): DESIGN CHOICE (log 19), safe: these written commands are refused, as
every written command outside its range, so a `DECODE` of so many samples stops before the block sees a word of it, or
at the `ERR_CAP` of its `DSTART`. -/
def decodeCommands (ys : List Sample) : List Written :=
  .dstart ys.length :: ys.map (fun y => .dsamp (.raw y.toInt)) ++ .dterm ::
    (List.range (ys.length / 4)).map .drd

/-- The words of written commands; nothing when one of them is outside its range (R93). -/
def assembleAll : List Written → Option (List Word)
  | [] => some []
  | x :: xs =>
    match x.assemble, assembleAll xs with
    | some i, some ws => some (encode i :: ws)
    | some _, none => none
    | none, _ => none

end Sys2Proof.Machine
end

