-- ==== Sys2Proof/Safety.lean ====
section
/-! DEFINITION. The terms claims use: the invariant of 10_state R34, a safe step, runs (70_reset_and_hazards R270), and
the parts of the state that belong to the encoder and to the decoder (10_state R36). -/

namespace Sys2Proof.Machine

/-- `BM_MAX`, the largest branch metric (00_scope R7, 43_viterbi_forward R163). -/
def bmMax : Nat := 4362338304

/-- State `i` is reachable from state 7 in `t` steps (41_trellis_model R129). -/
def reachableAt : Nat → Idx → Bool
  | 0, i => decide (i.toNat = 7)
  | 1, i => decide (6 ≤ i.toNat)
  | 2, i => decide (4 ≤ i.toNat)
  | _, _ => true

/-- What 10_state R34 item 6 says of the stored entry `e` of time step `t'` and state `i` (and 20_memory R51 of an entry
with `valid = 0`). -/
def EntryOk (t' : Nat) (i : Idx) (e : BitVec 5) : Prop :=
  entryValid e = reachableAt t' i ∧
    (entryValid e = true →
      entryBit e = inputBit i ∧ (entryPred e).toNat % 4 = i.toNat / 2 ∧ reachableAt (t' - 1) (entryPred e) = true) ∧
    (entryValid e = false → e = 0#5)

/-- The invariant of 10_state R34 with the memories' form and contents (10_state R35). Item 1 is the type `Dst`. Item 7
reads "at most" where R34 says "below" (log 12). -/
structure State.Inv (s : State) : Prop where
  cfgLegal : s.cfg.Legal
  idleFrame : s.dst = .idle → s.n = 0 ∧ s.t = 0 ∧ s.ph = 0
  frameBounds : s.dst ≠ .idle → 1 ≤ s.n.toNat ∧ s.n.toNat ≤ s.cfg.nMax ∧ s.t.toNat ≤ s.n.toNat
  noPartialGroup : s.dst ≠ .idle → s.t = s.n → s.ph = 0
  doneComplete : s.dst = .done → s.t = s.n
  finiteSet : s.dst ≠ .idle → ∀ i, (at8 s.pm i).isInf = !reachableAt s.t.toNat i
  rowsWritten : s.dst ≠ .idle → ∀ t' i, 1 ≤ t' → t' ≤ s.t.toNat →
    ∃ e, s.sv.read (svAddr t' i) = some e ∧ EntryOk t' i e
  metricBound : s.dst ≠ .idle → ∀ i m, at8 s.pm i = .fin m → m ≤ s.t.toNat * bmMax
  bitsWritten : s.dst = .done → ∀ k, k < s.n.toNat → ∃ b, s.dbuf.read k = some b
  noErrorRecorded : s.lasterr = 0 → s.errflags = 0
  errorRecorded : s.lasterr ≠ 0 → s.lasterr.toNat ≤ 6 ∧ s.errflags.getLsbD (s.lasterr.toNat - 1) = true
  svWf : s.sv.wf = true
  dbWf : s.dbuf.wf = true

/-- A step that does not stop the machine. -/
def Safe (r : Result) : Prop := ∃ t, r = .next t

/-- A step that stops the machine with a fault. -/
def Faults (r : Result) : Prop := ∃ f, r = .fault f

/-- The host drives `w` as the next command, and the block carries it out. -/
def issue (s : State) (w : Word) : Result := step (placeCommand s w)

/-- What one command puts on the ports. -/
structure Reply where
  rsp : Option RspWord
  cw : Option CwWord
  deriving DecidableEq, Repr

/-- A run (70_reset_and_hazards R270): the words are issued one after another; its result is the replies and the final
state, or nothing if the machine stops. -/
def runWords : List Word → State → Option (List Reply × State)
  | [], s => some ([], s)
  | w :: ws, s =>
    match issue s w with
    | .next t => (runWords ws t).map (fun r => ({ rsp := t.rsp, cw := t.cw } :: r.1, r.2))
    | .fault _ => none
    | .refused _ => none

/-- The word is refused with `ERR_OP` in every state: the illegal-command action (30_encoding R88), written out. -/
def RaisesErrOp (w : Word) : Prop :=
  ∀ s : State, issue s w = .next
    { s with
      errflags := s.errflags ||| 0b100000#6
      lasterr := 6#4
      rsp := some 0x6000000000000000#64
      cw := none }

/-- The state the response of which says that the command succeeded: `st = 0` (30_encoding R86). -/
def State.succeeded (s : State) : Bool :=
  match s.rsp with
  | some r => rspStatus r == 0#4
  | none => false

/-- The sequencing states that allow a command (60_exceptions R228). -/
def sequenceAllows (i : Instr) (s : State) : Prop :=
  match i with
  | .ebit _ => s.eflt = false
  | .dsamp _ => s.dst = .run ∧ s.t.toNat < s.n.toNat
  | .dterm => s.dst = .run ∧ s.t = s.n
  | .drd _ => s.dst = .done
  | .rdpm _ => s.dst ≠ .idle
  | .rdsv _ _ => s.dst ≠ .idle
  | .nop => True
  | .reset => True
  | .rdstat => True
  | .clrerr => True
  | .b2s _ => True
  | .s2b _ => True
  | .trans _ _ => True
  | .estart => True
  | .dstart _ => True

/-- Which command can raise which error: the table of 60_exceptions R235. -/
def errorsOf (i : Instr) : List Err :=
  match i with
  | .nop => []
  | .reset => []
  | .rdstat => []
  | .clrerr => []
  | .estart => []
  | .s2b _ => []
  | .b2s _ => [.bit]
  | .trans _ _ => [.bit, .idx]
  | .ebit _ => [.bit, .seq]
  | .dstart _ => [.len, .cap]
  | .dsamp _ => [.seq]
  | .dterm => [.seq]
  | .drd _ => [.seq, .idx]
  | .rdpm _ => [.seq]
  | .rdsv _ _ => [.seq, .idx]

/-- The commands that read or write the encoder's state (10_state R36). -/
def usesEncoder (i : Instr) : Bool :=
  match i with
  | .estart => true
  | .ebit _ => true
  | .reset => true
  | .nop => false
  | .rdstat => false
  | .clrerr => false
  | .b2s _ => false
  | .s2b _ => false
  | .trans _ _ => false
  | .dstart _ => false
  | .dsamp _ => false
  | .dterm => false
  | .drd _ => false
  | .rdpm _ => false
  | .rdsv _ _ => false

/-- The commands a decode consists of (30_encoding R96), and `RESET`, which abandons one; `RDPM` and `RDSV` may stand
between them (44_viterbi_traceback R192). -/
def usesFrame (i : Instr) : Bool :=
  match i with
  | .dstart _ => true
  | .dsamp _ => true
  | .dterm => true
  | .drd _ => true
  | .reset => true
  | .nop => false
  | .rdstat => false
  | .clrerr => false
  | .b2s _ => false
  | .s2b _ => false
  | .trans _ _ => false
  | .estart => false
  | .ebit _ => false
  | .rdpm _ => false
  | .rdsv _ _ => false

/-- The word is a command of the kind `f` picks out; an illegal word is of no kind. -/
def wordIs (f : Instr → Bool) (w : Word) : Bool :=
  match decode w with
  | .ok i => f i
  | .error _ => false

/-- The responses of the `DRD` commands of a run, in order (30_encoding R96). -/
def drdReplies (ws : List Word) (rs : List Reply) : List (Option RspWord) :=
  ((ws.zip rs).filter (fun x => wordIs (fun i => i.op == 0x33#8) x.1)).map (fun x => x.2.rsp)

/-- The cost of the path of a bit list from state `q` over sample groups: the sum of its branch metrics
(43_viterbi_forward R169). -/
def pathCost : Idx → List Bit → List Group → Nat
  | q, u :: us, g :: gs => branchMetric q u g + pathCost (transition q u).next us gs
  | _, _, _ => 0

/-- One turn of the source's loop (43_viterbi_forward R168): predecessor `p` with a finite metric proposes its candidate
for input `u` to the next state, which keeps the first candidate seen and replaces it only by a strictly smaller one. -/
def propose (old : Vector Metric 8) (g : Group) (acc : Idx → Metric × SvEntry) (pu : Idx × Bit) :
    Idx → Metric × SvEntry :=
  fun ns =>
    if (transition pu.1 pu.2).next = ns ∧ (candidate old g pu.1 pu.2).lt (acc ns).1 = true
    then (candidate old g pu.1 pu.2, some pu) else acc ns

/-- The source's loop over predecessors in index order and, inside it, over the input bit (43_viterbi_forward R168). -/
def loopStep (old : Vector Metric 8) (g : Group) : Idx → Metric × SvEntry :=
  (allStates.flatMap (fun p => [(p, 0#1), (p, 1#1)])).foldl (propose old g) (fun _ => (.inf, none))

/-- The samples of one `cw` word, `out0` first (20_memory R62). -/
def cwSamples (w : CwWord) : List Sample :=
  [w.extractLsb' 48 16, w.extractLsb' 32 16, w.extractLsb' 16 16, w.extractLsb' 0 16]

/-- The codeword of a run: its `cw` outputs in command order (30_encoding R87). -/
def codewordOf (rs : List Reply) : List Sample :=
  rs.flatMap (fun r => match r.cw with | some w => cwSamples w | none => [])

/-- The reply succeeded: `st = 0` (30_encoding R86). -/
def Reply.ok (r : Reply) : Bool :=
  match r.rsp with
  | some w => rspStatus w == 0#4
  | none => false

/-- The encoder's state (10_state R36). -/
structure EncView where
  encState : Idx
  eflt : Bool
  deriving DecidableEq, Repr

/-- The decoder's state (10_state R36). -/
structure DecView where
  cfg : Config
  dst : Dst
  n : BitVec 16
  t : BitVec 16
  ph : BitVec 2
  ybuf : Vector Sample 3
  pm : Vector Metric 8
  sv : Memory 5
  dbuf : Memory 1
  deriving DecidableEq, Repr

/-- The encoder's part of a state. -/
def State.enc (s : State) : EncView := { encState := s.encState, eflt := s.eflt }

/-- The decoder's part of a state. -/
def State.dec (s : State) : DecView :=
  { cfg := s.cfg, dst := s.dst, n := s.n, t := s.t, ph := s.ph, ybuf := s.ybuf, pm := s.pm, sv := s.sv, dbuf := s.dbuf }

end Sys2Proof.Machine
end

