-- ==== Sys2Proof/Certificates/Slice0/Obligations.lean ====
section
/-! DEFINITION. The statements for the provers, made from the numbered rules of the spec. -/

open Sys2Proof Sys2Proof.Machine

/-! ## Encoding -/

/-- Every command is well formed and decoding its word gives it back with every operand, at every value its field admits
(30_encoding R80, R81, R84, R85, R93). -/
def Obligations.DecodeEncodeRoundTrip : Prop :=
  ∀ i : Instr, i.wellFormed = true ∧ decode (encode i) = .ok i

/-- A legal word is the encoding of the command it decodes to: no bit of a legal word is dropped (30_encoding R81, R85). -/
def Obligations.LegalWordsAreEncodings : Prop :=
  ∀ (w : Word) (i : Instr), decode w = .ok i → encode i = w

/-- 30_encoding R84, R85: "a word `w` selects the row when `w AND mask = match`. The rows are disjoint." The decoder gives a
command of exactly the row selected, and nothing when no row is. -/
def Obligations.OpcodeTableSelects : Prop :=
  ∀ w : Word,
    (∀ r ∈ opTable, ∀ r' ∈ opTable, r.selects w = true → r'.selects w = true → r = r') ∧
    (∀ r ∈ opTable, r.selects w = true → ∃ i, decode w = .ok i ∧ i.mnemonic = r.mnemonic) ∧
    ((∀ r ∈ opTable, r.selects w = false) → ∃ e, decode w = .error e)

/-- 30_encoding R88: "A word that matches no row of rule R84 is illegal." No data state changes, bit 5 of `errflags` is
set, `lasterr <- 6`, the response is `{4'h6, 60'h0}`, nothing appears on `cw`. -/
def Obligations.IllegalWordRaisesErrOp : Prop :=
  ∀ w : Word, (∀ r ∈ opTable, r.selects w = false) → RaisesErrOp w

/-- Words the spec writes out (95, 96, and the example words of R88) decode to the commands they stand for, or to
nothing. -/
def Obligations.SpecWordsDecode : Prop :=
  decode 0x18000200 = .ok (.trans 2 0) ∧ decode 0x1100FF00 = .ok (.s2b 0xFF00) ∧
  decode 0x30000020 = .ok (.dstart 32) ∧ decode 0x3900000E = .ok (.rdsv 1 6) ∧
  decode 0x38000007 = .ok (.rdpm 7) ∧ decode 0x33000001 = .ok (.drd 1) ∧
  decode 0x04000000 = .error (.unassignedOpcode 0x04) ∧ decode 0x00000001 = .error (.reservedBit 0x00) ∧
  decode 0x31010000 = .error (.reservedBit 0x31) ∧ decode 0x38000008 = .error (.reservedBit 0x38) ∧
  decode 0x39080000 = .error (.reservedBit 0x39) ∧ decode 0xFFFFFFFF = .error (.unassignedOpcode 0xFF)

/-- 30_encoding R93 with R84: a written command whose operands are in the ranges of the table has the word
`w = (op << 24) | imm`, with the `op` (the match column) of the row that its own mnemonic names in the table of R84 and
the `imm` R93 gives it; that word decodes to the command of that mnemonic. That one outside the ranges is refused, not
cut, is the model's choice (log 17). -/
def Obligations.WrittenFormEncodes : Prop :=
  (∀ x : Written, x.wellFormed = true →
    ∃ i r, x.assemble = some i ∧ r ∈ opTable ∧ r.mnemonic = x.mnemonic ∧
      (encode i).toNat = r.matchBits.toNat + x.immValue ∧ decode (encode i) = .ok i ∧ i.mnemonic = x.mnemonic) ∧
  (∀ r ∈ opTable, ∀ r' ∈ opTable, r.mnemonic = r'.mnemonic → r = r') ∧
  (∀ x : Written, x.wellFormed = false → x.assemble = none)

/-! ## Stepping, reset -/

/-- A step whose next input is a legal command word is that command, carried out on the state from which the word has been
taken (00_scope R8). -/
def Obligations.StepRunsCommand : Prop :=
  ∀ (s : State) (w : Word) (rest : List HostInput) (i : Instr),
    s.inputs = .command w :: rest → decode w = .ok i → step s = exec i { s with inputs := rest }

/-- 70_reset_and_hazards R255: what the hardware reset input leaves; it "produces no response word". The storage R255
calls unspecified is left as it was (45_system_ops R206 says so of `RESET`; log 16 of the input). -/
def Obligations.ResetInputResets : Prop :=
  ∀ (s : State) (rest : List HostInput), s.inputs = .resetInput :: rest →
    step s = .next
      { s with
        encState := 7#3, eflt := false, dst := .idle, n := 0#16, t := 0#16, ph := 0#2
        errflags := 0#6, lasterr := 0#4, inputs := rest, rsp := none, cw := none }

/-- With no command issued the block keeps all its state and the ports carry nothing (60_exceptions R248; the model's
reading, logs 2 and 3). -/
def Obligations.IdleStepKeepsState : Prop :=
  ∀ s : State, s.inputs = [] → step s = .next { s with rsp := none, cw := none }

/-- 70_reset_and_hazards R255, 10_state R20: the values the spec gives for reset, and `RDSTAT` then reads 0. -/
def Obligations.ResetStateValues : Prop :=
  State.reset.encState = 7#3 ∧ State.reset.eflt = false ∧ State.reset.dst = .idle ∧ State.reset.n = 0#16 ∧
  State.reset.t = 0#16 ∧ State.reset.ph = 0#2 ∧ State.reset.errflags = 0#6 ∧ State.reset.lasterr = 0#4 ∧
  ∃ t, exec .rdstat State.reset = .next t ∧ t.rsp = some 0#64

/-! ## System and inspection commands -/

/-- 45_system_ops R205, `NOP`. -/
def Obligations.NopDoesNothing : Prop :=
  encode .nop = 0x00000000#32 ∧
  (∀ s : State, exec .nop s = .next { s with rsp := some 0#64, cw := none }) ∧
  (∀ imm : BitVec 24, imm ≠ 0#24 → RaisesErrOp (0x00#8 ++ imm))

/-- 45_system_ops R206, `RESET`: everything that has a reset value is written, `pm`, `ybuf`, `sv` and `dbuf` are not, and
`RDSTAT` then returns 0. -/
def Obligations.ResetCommandResets : Prop :=
  encode .reset = 0x01000000#32 ∧
  (∀ s : State, exec .reset s = .next
    { s with
      encState := 7#3, eflt := false, dst := .idle, n := 0#16, t := 0#16, ph := 0#2
      errflags := 0#6, lasterr := 0#4, rsp := some 0#64, cw := none }) ∧
  (∀ s t : State, exec .reset s = .next t → ∃ u, exec .rdstat t = .next u ∧ u.rsp = some 0#64) ∧
  (∀ imm : BitVec 24, imm ≠ 0#24 → RaisesErrOp (0x01#8 ++ imm))

/-- 45_system_ops R207, 10_state R31, `RDSTAT`: every field of the status word at its place, reserved fields 0, and no
state written. -/
def Obligations.RdstatReadsStatus : Prop :=
  encode .rdstat = 0x02000000#32 ∧
  (∀ s : State, ∃ r, exec .rdstat s = .next { s with rsp := some r, cw := none } ∧
    r.toNat = s.n.toNat * 2 ^ 40 + s.t.toNat * 2 ^ 24 + s.lasterr.toNat * 2 ^ 16 + s.errflags.toNat * 2 ^ 8 +
      s.ph.toNat * 2 ^ 3 + (if s.eflt then 4 else 0) +
      (match s.dst with | .idle => 0 | .run => 1 | .done => 2)) ∧
  (∀ imm : BitVec 24, imm ≠ 0#24 → RaisesErrOp (0x02#8 ++ imm))

/-- 45_system_ops R208, `CLRERR`. -/
def Obligations.ClrerrClearsRecord : Prop :=
  encode .clrerr = 0x03000000#32 ∧
  (∀ s : State, exec .clrerr s = .next
    { s with errflags := 0#6, lasterr := 0#4, rsp := some 0#64, cw := none }) ∧
  (∀ imm : BitVec 24, imm ≠ 0#24 → RaisesErrOp (0x03#8 ++ imm))

/-- 45_system_ops R210, `RDPM s`: the flag in `data[49]`, the metric in `data[48:0]`; `ERR_SEQ` in `IDLE`. -/
def Obligations.RdpmReadsMetric : Prop :=
  (∀ i : Idx, encode (.rdpm i) = 0x38000000#32 ||| i.setWidth 32) ∧
  (∀ (s : State) (i : Idx), s.dst ≠ .idle → ∃ r, exec (.rdpm i) s = .next { s with rsp := some r, cw := none } ∧
    (at8 s.pm i = .inf → r = 0x0002000000000000#64) ∧
    (∀ m, at8 s.pm i = .fin m → r.toNat = m % 2 ^ 49)) ∧
  (∀ (s : State) (i : Idx), s.dst = .idle → exec (.rdpm i) s = .next
    { s with errflags := s.errflags ||| 0b000100#6, lasterr := 3#4, rsp := some 0x3000000000000000#64, cw := none }) ∧
  (∀ imm : BitVec 24, 8 ≤ imm.toNat → RaisesErrOp (0x38#8 ++ imm))

/-- 45_system_ops R211, `RDSV tt, s`: the entry of row `tt`, one of the rows `1..t`; `ERR_SEQ` before `ERR_IDX`. -/
def Obligations.RdsvReadsEntry : Prop :=
  (∀ (tt : BitVec 16) (i : Idx), (encode (.rdsv tt i)).toNat = 0x39000000 + (8 * tt.toNat + i.toNat)) ∧
  (∀ (s : State) (tt : BitVec 16) (i : Idx) (e : BitVec 5),
    s.dst ≠ .idle → 1 ≤ tt.toNat → tt.toNat ≤ s.t.toNat → tt.toNat ≤ s.cfg.nMax →
    s.sv.read (8 * tt.toNat + i.toNat) = some e →
    exec (.rdsv tt i) s = .next { s with rsp := some (e.setWidth 64), cw := none }) ∧
  (∀ (s : State) (tt : BitVec 16) (i : Idx), s.dst = .idle → exec (.rdsv tt i) s = .next
    { s with errflags := s.errflags ||| 0b000100#6, lasterr := 3#4, rsp := some 0x3000000000000000#64, cw := none }) ∧
  (∀ (s : State) (tt : BitVec 16) (i : Idx), s.dst ≠ .idle → (tt.toNat < 1 ∨ s.t.toNat < tt.toNat) →
    exec (.rdsv tt i) s = .next
      { s with errflags := s.errflags ||| 0b010000#6, lasterr := 5#4, rsp := some 0x5000000000000000#64, cw := none }) ∧
  (∀ imm : BitVec 24, 2 ^ 19 ≤ imm.toNat → RaisesErrOp (0x39#8 ++ imm))

/-! ## The symbol mapper and the trellis -/

/-- 40_symbol_mapper R113, `B2S bit`: 0 gives `0xFF00`, 1 gives `0x0100`, anything else `ERR_BIT`. -/
def Obligations.B2sConverts : Prop :=
  (∀ b : BitVec 24, encode (.b2s b) = 0x10000000#32 ||| b.setWidth 32) ∧
  (∀ s : State, exec (.b2s 0#24) s = .next { s with rsp := some 0x000000000000FF00#64, cw := none }) ∧
  (∀ s : State, exec (.b2s 1#24) s = .next { s with rsp := some 0x0000000000000100#64, cw := none }) ∧
  (∀ (s : State) (b : BitVec 24), 1 < b.toNat → exec (.b2s b) s = .next
    { s with errflags := s.errflags ||| 0b000010#6, lasterr := 2#4, rsp := some 0x2000000000000000#64, cw := none })

/-- 40_symbol_mapper R114, `S2B y`: `data[0] = 1` when `y ≥ 0`, else 0. -/
def Obligations.S2bThresholds : Prop :=
  (∀ y : Sample, encode (.s2b y) = 0x11000000#32 ||| y.setWidth 32) ∧
  (∀ (s : State) (y : Sample), 0 ≤ y.toInt → exec (.s2b y) s = .next { s with rsp := some 1#64, cw := none }) ∧
  (∀ (s : State) (y : Sample), y.toInt < 0 → exec (.s2b y) s = .next { s with rsp := some 0#64, cw := none }) ∧
  (∀ imm : BitVec 24, 2 ^ 16 ≤ imm.toNat → RaisesErrOp (0x11#8 ++ imm))

/-- 41_trellis_model R130 with the gate form R125, `TRANS state, bit`: for the state bits `A`, `B`, `C` and the input bit
`S` the codes are the exclusive-or forms and the next state is `{B, C, S}`; `ERR_IDX` before `ERR_BIT`. -/
def Obligations.TransEvaluates : Prop :=
  (∀ q b : BitVec 8, (encode (.trans q b)).toNat = 0x18000000 + (256 * q.toNat + b.toNat)) ∧
  (∀ (s : State) (A B C S : BitVec 1),
    exec (.trans (0#5 ++ A ++ B ++ C) (0#7 ++ S)) s = .next
      { s with
        rsp := some (0#57 ++ B ++ C ++ S ++ (A ^^^ B ^^^ S) ++ (B ^^^ C ^^^ S) ++ (A ^^^ C ^^^ S) ++ ~~~(A ^^^ S))
        cw := none }) ∧
  (∀ (s : State) (q b : BitVec 8), 7 < q.toNat → exec (.trans q b) s = .next
    { s with errflags := s.errflags ||| 0b010000#6, lasterr := 5#4, rsp := some 0x5000000000000000#64, cw := none }) ∧
  (∀ (s : State) (q b : BitVec 8), q.toNat ≤ 7 → 1 < b.toNat → exec (.trans q b) s = .next
    { s with errflags := s.errflags ||| 0b000010#6, lasterr := 2#4, rsp := some 0x2000000000000000#64, cw := none }) ∧
  (∀ imm : BitVec 24, 2 ^ 16 ≤ imm.toNat → RaisesErrOp (0x18#8 ++ imm))

/-- 41_trellis_model R126: with three 1 bits standing before the message for the initial state, the state after any number
of bits is the last three bits, and the four output codes of the next bit are exclusive-or forms of it and of them. -/
def Obligations.OutputsFromLastThreeBits : Prop :=
  ∀ (us start : List Bit) (a b c u : Bit), [1#1, 1#1, 1#1] ++ us = start ++ [a, b, c] →
    walkEnd 7#3 us = a ++ b ++ c ∧
    (transition (walkEnd 7#3 us) u).codes = (u ^^^ b ^^^ a) ++ (u ^^^ c ^^^ b) ++ (u ^^^ c ^^^ a) ++ ~~~(u ^^^ a)

/-- 41_trellis_model R129: the states reachable from state 7 in `j` steps; after three or more steps the state is the last
three bits, whatever the state before. -/
def Obligations.ReachableStates : Prop :=
  (∀ (j : Nat) (i : Idx), (∃ us : List Bit, us.length = j ∧ walkEnd 7#3 us = i) ↔
    (j = 0 ∧ i.toNat = 7) ∨ (j = 1 ∧ 6 ≤ i.toNat) ∨ (j = 2 ∧ 4 ≤ i.toNat) ∨ 3 ≤ j) ∧
  (∀ (q : Idx) (us : List Bit) (a b c : Bit), walkEnd q (us ++ [a, b, c]) = a ++ b ++ c)

/-! ## The encoder -/

/-- 42_convolutional_encoder R141, `ESTART`. -/
def Obligations.EstartBegins : Prop :=
  encode .estart = 0x20000000#32 ∧
  (∀ s : State, exec .estart s = .next { s with encState := 7#3, eflt := false, rsp := some 0#64, cw := none }) ∧
  (∀ imm : BitVec 24, imm ≠ 0#24 → RaisesErrOp (0x20#8 ++ imm))

/-- 42_convolutional_encoder R142, `EBIT bit`: from the state `{A, B, C}` the bit `S` puts the four samples on `cw`,
`out0` most significant, shifts `S` into the state, and answers next state and codes; `ERR_SEQ` when `eflt = 1`, else
`ERR_BIT` with `eflt <- 1` when the operand is no Bit. -/
def Obligations.EbitEncodes : Prop :=
  (∀ b : BitVec 24, encode (.ebit b) = 0x21000000#32 ||| b.setWidth 32) ∧
  (∀ (s : State) (A B C S : BitVec 1), s.eflt = false → s.encState = A ++ B ++ C →
    exec (.ebit (0#23 ++ S)) s = .next
      { s with
        encState := B ++ C ++ S
        rsp := some (0#57 ++ B ++ C ++ S ++ (A ^^^ B ^^^ S) ++ (B ^^^ C ^^^ S) ++ (A ^^^ C ^^^ S) ++ ~~~(A ^^^ S))
        cw := some ((if A ^^^ B ^^^ S = 1#1 then 0x0100#16 else 0xFF00#16) ++
          (if B ^^^ C ^^^ S = 1#1 then 0x0100#16 else 0xFF00#16) ++
          (if A ^^^ C ^^^ S = 1#1 then 0x0100#16 else 0xFF00#16) ++
          (if ~~~(A ^^^ S) = 1#1 then 0x0100#16 else 0xFF00#16)) }) ∧
  (∀ (s : State) (b : BitVec 24), s.eflt = true → exec (.ebit b) s = .next
    { s with errflags := s.errflags ||| 0b000100#6, lasterr := 3#4, rsp := some 0x3000000000000000#64, cw := none }) ∧
  (∀ (s : State) (b : BitVec 24), s.eflt = false → 1 < b.toNat → exec (.ebit b) s = .next
    { s with
      eflt := true
      errflags := s.errflags ||| 0b000010#6, lasterr := 2#4, rsp := some 0x2000000000000000#64, cw := none })

/-- 10_state R22: `eflt` "is set to 1 by an `EBIT` that raises `ERR_BIT` and by nothing else. It is cleared by `ESTART` and
by reset. While `eflt = 1` every `EBIT` raises `ERR_SEQ` and produces no samples." -/
def Obligations.EfltOnlyFromBadBit : Prop :=
  ∀ (s t : State), step s = .next t →
    (s.eflt = false → t.eflt = true →
      ∃ w rest b, s.inputs = .command w :: rest ∧ decode w = .ok (.ebit b) ∧ 1 < b.toNat ∧
        t.rsp = some 0x2000000000000000#64) ∧
    (s.eflt = true → t.eflt = false →
      ∃ h rest, s.inputs = h :: rest ∧
        (h = .resetInput ∨ h = .command (encode .estart) ∨ h = .command (encode .reset))) ∧
    (∀ w rest b, s.eflt = true → s.inputs = .command w :: rest → decode w = .ok (.ebit b) →
      t.rsp = some 0x3000000000000000#64 ∧ t.cw = none) ∧
    (∀ w rest b, s.eflt = false → s.inputs = .command w :: rest → decode w = .ok (.ebit b) → 1 < b.toNat →
      t.eflt = true) ∧
    (∀ h rest, s.inputs = h :: rest →
      (h = .resetInput ∨ h = .command (encode .estart) ∨ h = .command (encode .reset)) → t.eflt = false)

/-- 42_convolutional_encoder R145: once an encode has failed, every further `EBIT` raises `ERR_SEQ` and nothing appears on
`cw`, until `ESTART` or reset. -/
def Obligations.FailedEncodeStaysFailed : Prop :=
  ∀ (ws : List Word) (s t : State) (rs : List Reply),
    s.eflt = true → (∀ w ∈ ws, w ≠ encode .estart ∧ w ≠ encode .reset) → runWords ws s = some (rs, t) →
    t.eflt = true ∧ (∀ r ∈ rs, r.cw = none) ∧
    (∀ x ∈ ws.zip rs, ∀ b, decode x.1 = .ok (.ebit b) → x.2.rsp = some 0x3000000000000000#64)

/-- 42_convolutional_encoder R143: the `cw` outputs of `ESTART; EBIT u_0; ...; EBIT u_{m−1}`, concatenated, equal
`encode([u_0, ..., u_{m−1}])`, and `enc_state` afterwards is the last `next` (7 when `m = 0`). Every response succeeds. -/
def Obligations.EncodeRunGivesCodeword : Prop :=
  ∀ (s : State) (us : List Bit), ∃ ws rs t,
    assembleAll (encodeCommands (us.map BitVec.toNat)) = some ws ∧ runWords ws s = some (rs, t) ∧
    codewordOf rs = encodeBits us ∧ t.encState = walkEnd 7#3 us ∧ (∀ r ∈ rs, r.ok = true) ∧ t.dec = s.dec

/-- 42_convolutional_encoder R143 with 10_state R36: the same when any commands that do not concern the encoder, and any
illegal words, stand between those of the codeword. -/
def Obligations.InterleavedEncode : Prop :=
  ∀ (s t : State) (ws : List Word) (us : List Bit) (rs : List Reply),
    runWords ws s = some (rs, t) →
    assembleAll (encodeCommands (us.map BitVec.toNat)) = some (ws.filter (wordIs usesEncoder)) →
    codewordOf rs = encodeBits us ∧ t.encState = walkEnd 7#3 us ∧ t.eflt = false

/-- 42_convolutional_encoder R144 items 2 to 4: four samples a bit, each `+256` or `−256`, and the codeword of a longer
message begins with that of its start. -/
def Obligations.CodewordLaws : Prop :=
  (∀ us : List Bit, (encodeBits us).length = 4 * us.length) ∧
  (∀ (us : List Bit) (y : Sample), y ∈ encodeBits us → y.toInt = 256 ∨ y.toInt = -256) ∧
  (∀ us vs : List Bit, encodeBits us <+: encodeBits (us ++ vs))

/-! ## The forward pass -/

/-- 43_viterbi_forward R161 with R122: the branch metric of the state `(a, b, c)` and the input symbol `s = b2s(u)` is the
sum of the squared differences between the samples and the products `a·b·s`, `b·c·s`, `a·c·s`, `a·s`, times 256, over
the integers. -/
def Obligations.BranchMetricValue : Prop :=
  ∀ (q : Trellis) (u : Bit) (g : Group),
    ((branchMetric q.idx u g : Nat) : Int) =
      (g.y0.toInt - q.a.val * q.b.val * (b2s u).val * 256) ^ 2 +
      (g.y1.toInt - q.b.val * q.c.val * (b2s u).val * 256) ^ 2 +
      (g.y2.toInt - q.a.val * q.c.val * (b2s u).val * 256) ^ 2 +
      (g.y3.toInt - q.a.val * (b2s u).val * 256) ^ 2

/-- 43_viterbi_forward R163: `0 ≤ bm ≤ BM_MAX = 4 362 338 304 < 2^33`, each difference in −33024..33023, and `bm = 0`
exactly when every sample is the expected one. -/
def Obligations.BranchMetricBounds : Prop :=
  (∀ (y : Sample) (o : Symbol), -33024 ≤ y.toInt - o.val * 256 ∧ y.toInt - o.val * 256 ≤ 33023 ∧
    (y.toInt - o.val * 256) ^ 2 ≤ 1090584576) ∧
  (∀ (p : Idx) (u : Bit) (g : Group), branchMetric p u g ≤ 4362338304 ∧ branchMetric p u g < 2 ^ 33 ∧
    (branchMetric p u g = 0 ↔
      g.y0.toInt = (transition p u).o0.val * 256 ∧ g.y1.toInt = (transition p u).o1.val * 256 ∧
      g.y2.toInt = (transition p u).o2.val * 256 ∧ g.y3.toInt = (transition p u).o3.val * 256))

/-- 43_viterbi_forward R165: `new[ns]` is the minimum of the candidate metrics over all pairs `(p, u)` with `old[p]` finite
and `transition(p, u).next = ns`, `INF` when there is no such pair; `row[ns]` names a pair that attains it; there are at most two such pairs and they share
`u`. -/
def Obligations.StepTakesMinimum : Prop :=
  ∀ (old : Vector Metric 8) (g : Group) (ns : Idx),
    (∀ m, at8 (stepColumn old g) ns = .fin m →
      (∃ p u x, (transition p u).next = ns ∧ at8 old p = .fin x ∧ x + branchMetric p u g = m ∧
        at8 (stepRow old g) ns = some (p, u)) ∧
      (∀ p u x, (transition p u).next = ns → at8 old p = .fin x → m ≤ x + branchMetric p u g)) ∧
    (at8 (stepColumn old g) ns = .inf →
      at8 (stepRow old g) ns = none ∧ ∀ p u, (transition p u).next = ns → at8 old p = .inf) ∧
    (∃ p0 p1 u0, ∀ p u, (transition p u).next = ns → (p = p0 ∨ p = p1) ∧ u = u0)

/-- 43_viterbi_forward R166: "When the two candidates for a next state are equal and finite, the predecessor with the lower
state index wins". -/
def Obligations.StepTieBreak : Prop :=
  ∀ (old : Vector Metric 8) (g : Group) (p p' ns : Idx) (u u' : Bit) (x x' : Nat),
    (transition p u).next = ns → (transition p' u').next = ns → p.toNat < p'.toNat →
    at8 old p = .fin x → at8 old p' = .fin x' → x + branchMetric p u g = x' + branchMetric p' u' g →
    at8 (stepRow old g) ns = some (p, u) ∧ at8 (stepColumn old g) ns = .fin (x + branchMetric p u g)

/-- 43_viterbi_forward R168: the source's loop over predecessors in index order, replacing only by a strictly smaller
candidate, gives the same column and row as the per-destination form of R159. -/
def Obligations.StepAgreesWithLoop : Prop :=
  ∀ (old : Vector Metric 8) (g : Group) (ns : Idx),
    loopStep old g ns = (at8 (stepColumn old g) ns, at8 (stepRow old g) ns)

/-- 43_viterbi_forward R169, of the functions: the column after the groups `gs` holds for every state the least cost of a
bit sequence whose walk from state 7 ends there, and `INF` when there is none; that cost is the squared distance between
the samples and the codeword of the bits. -/
def Obligations.ColumnIsLeastCost : Prop :=
  (∀ (gs : List Group) (i : Idx),
    (∀ m, at8 (forwardPass column0 [] gs).1 i = .fin m →
      (∃ us : List Bit, us.length = gs.length ∧ walkEnd 7#3 us = i ∧ pathCost 7#3 us gs = m) ∧
      (∀ us : List Bit, us.length = gs.length → walkEnd 7#3 us = i → m ≤ pathCost 7#3 us gs)) ∧
    (at8 (forwardPass column0 [] gs).1 i = .inf → ∀ us : List Bit, us.length = gs.length → walkEnd 7#3 us ≠ i)) ∧
  (∀ (ys : List Sample) (gs : List Group) (us : List Bit), groupsOf ys = some gs → us.length = gs.length →
    pathCost 7#3 us gs = dist ys (encodeBits us))

/-- 43_viterbi_forward R169 and 10_state R26, of the machine: after `DSTART` and any number `k` of `DSAMP` commands within
the frame, `t = floor(k / 4)`, `ph = k mod 4`, and every metric is the least squared distance between the samples of the
complete groups and a codeword whose walk ends in that state, attained by the bits the back-pointers give. -/
def Obligations.FrameMetricsAreLeastDistances : Prop :=
  ∀ (s : State) (ys : List Sample) (n : Nat), s.cfg.Legal → 1 ≤ n → n ≤ s.cfg.nMax → ys.length ≤ 4 * n →
    ∃ rs t,
      runWords ((Instr.dstart (BitVec.ofNat 24 (4 * n)) :: ys.map .dsamp).map encode) s = some (rs, t) ∧
      (∀ r ∈ rs, r.ok = true) ∧ t.dst = .run ∧ t.n.toNat = n ∧
      t.t.toNat = ys.length / 4 ∧ t.ph.toNat = ys.length % 4 ∧
      ∀ i : Idx,
        (∀ m, at8 t.pm i = .fin m →
          (∃ us : List Bit, us.length = ys.length / 4 ∧ walkEnd 7#3 us = i ∧
            dist (ys.take (4 * (ys.length / 4))) (encodeBits us) = m ∧
            ∀ k, k < us.length → ∃ e, t.sv.read (8 * (k + 1) + (walkEnd 7#3 (us.take (k + 1))).toNat) = some e ∧
              entryValid e = true ∧ entryPred e = walkEnd 7#3 (us.take k) ∧ us[k]? = some (entryBit e)) ∧
          (∀ us : List Bit, us.length = ys.length / 4 → walkEnd 7#3 us = i →
            m ≤ dist (ys.take (4 * (ys.length / 4))) (encodeBits us))) ∧
        (at8 t.pm i = .inf → ∀ us : List Bit, us.length = ys.length / 4 → walkEnd 7#3 us ≠ i)

/-- 43_viterbi_forward R156 and R157, `DSTART len`: on success column 0 and `RUN`; `ERR_LEN` before `ERR_CAP`, and both
leave the decoder `IDLE` with `n = t = ph = 0`. -/
def Obligations.DstartBegins : Prop :=
  (∀ len : BitVec 24, encode (.dstart len) = 0x30000000#32 ||| len.setWidth 32) ∧
  (∀ (s : State) (len : BitVec 24), s.cfg.Legal → len.toNat ≠ 0 → len.toNat % 4 = 0 → len.toNat / 4 ≤ s.cfg.nMax →
    ∃ pm' n',
      exec (.dstart len) s = .next
        { s with dst := .run, n := n', t := 0#16, ph := 0#2, pm := pm', rsp := some (n'.setWidth 64), cw := none } ∧
      n'.toNat = len.toNat / 4 ∧ at8 pm' 7#3 = .fin 0 ∧ (∀ i : Idx, i ≠ 7#3 → at8 pm' i = .inf)) ∧
  (∀ (s : State) (len : BitVec 24), (len.toNat = 0 ∨ len.toNat % 4 ≠ 0) → exec (.dstart len) s = .next
    { s with
      dst := .idle, n := 0#16, t := 0#16, ph := 0#2
      errflags := s.errflags ||| 0b000001#6, lasterr := 1#4, rsp := some 0x1000000000000000#64, cw := none }) ∧
  (∀ (s : State) (len : BitVec 24), len.toNat ≠ 0 → len.toNat % 4 = 0 → s.cfg.nMax < len.toNat / 4 →
    exec (.dstart len) s = .next
      { s with
        dst := .idle, n := 0#16, t := 0#16, ph := 0#2
        errflags := s.errflags ||| 0b001000#6, lasterr := 4#4, rsp := some 0x4000000000000000#64, cw := none })

/-- 43_viterbi_forward R158, R159 and R167, `DSAMP y`: at `ph < 3` the sample is held; at `ph = 3` the whole column and the
whole row `t + 1` are written as `step` gives them, and every other entry of the survivor memory stays; `ERR_SEQ` when no
frame runs or `t = n`. -/
def Obligations.DsampDelivers : Prop :=
  (∀ y : Sample, encode (.dsamp y) = 0x31000000#32 ||| y.setWidth 32) ∧
  (∀ (s : State) (y : Sample), s.dst = .run → s.t ≠ s.n → s.ph.toNat < 3 →
    ∃ ybuf', exec (.dsamp y) s = .next
        { s with ybuf := ybuf', ph := s.ph + 1#2, rsp := some (0#46 ++ (s.ph + 1#2) ++ s.t), cw := none } ∧
      (∀ j : Fin 3, ybuf'[j] = if j.val = s.ph.toNat then y else s.ybuf[j])) ∧
  (∀ (s : State) (y : Sample), s.dst = .run → s.t ≠ s.n → s.ph = 3#2 → s.t.toNat < s.cfg.nMax →
    ∃ pm' sv', exec (.dsamp y) s = .next
        { s with
          pm := pm', sv := sv', t := s.t + 1#16, ph := 0#2
          rsp := some (0#45 ++ 1#1 ++ 0#2 ++ (s.t + 1#16)), cw := none } ∧
      (∀ ns : Idx, ∀ c0 c1 : Metric,
        c0 = (at8 s.pm (pred0 ns)).add (branchMetric (pred0 ns) (inputBit ns) (heldGroup s y)) →
        c1 = (at8 s.pm (pred1 ns)).add (branchMetric (pred1 ns) (inputBit ns) (heldGroup s y)) →
        (c0 = .inf → c1 = .inf →
          at8 pm' ns = .inf ∧ sv'.read (8 * (s.t.toNat + 1) + ns.toNat) = some 0#5) ∧
        (c1.lt c0 = true →
          at8 pm' ns = c1 ∧
          sv'.read (8 * (s.t.toNat + 1) + ns.toNat) = some (1#1 ++ pred1 ns ++ inputBit ns)) ∧
        (¬ (c0 = .inf ∧ c1 = .inf) → c1.lt c0 = false →
          at8 pm' ns = c0 ∧
          sv'.read (8 * (s.t.toNat + 1) + ns.toNat) = some (1#1 ++ pred0 ns ++ inputBit ns))) ∧
      (∀ a : Nat, (∀ ns : Idx, a ≠ 8 * (s.t.toNat + 1) + ns.toNat) → sv'.read a = s.sv.read a)) ∧
  (∀ (s : State) (y : Sample), (s.dst ≠ .run ∨ s.t = s.n) → exec (.dsamp y) s = .next
    { s with errflags := s.errflags ||| 0b000100#6, lasterr := 3#4, rsp := some 0x3000000000000000#64, cw := none }) ∧
  (∀ imm : BitVec 24, 2 ^ 16 ≤ imm.toNat → RaisesErrOp (0x31#8 ++ imm))

/-! ## Termination and traceback -/

/-- 44_viterbi_traceback R186: `term(pm)` has the least metric in the order of R160 and, among those, the lowest index. -/
def Obligations.TermIsLeast : Prop :=
  ∀ (pm : Vector Metric 8) (i : Idx),
    (at8 pm i).lt (at8 pm (term pm)) = false ∧
    (i.toNat < (term pm).toNat → (at8 pm (term pm)).lt (at8 pm i) = true)

/-- 44_viterbi_traceback R185, R188 and R189, `DTERM` in a state that meets the invariant: from the terminal state the
back-pointers give one state per time step, none missing, ending in state 7; `dbuf[k]` is the bit recorded at time step
`k + 1`, the parity of the state there, and nothing else of `dbuf` changes. -/
def Obligations.DtermTracesBack : Prop :=
  encode .dterm = 0x32000000#32 ∧
  (∀ s : State, s.Inv → s.dst = .run → s.t = s.n →
    ∃ (db : Memory 1) (m : Nat) (path : Nat → Idx),
      exec .dterm s = .next
        { s with dbuf := db, dst := .done, rsp := some (0#11 ++ BitVec.ofNat 49 m ++ 0#1 ++ term s.pm), cw := none } ∧
      at8 s.pm (term s.pm) = .fin m ∧ m < 2 ^ 49 ∧ path s.n.toNat = term s.pm ∧ path 0 = 7#3 ∧
      (∀ k, k < s.n.toNat → ∃ e, s.sv.read (8 * (k + 1) + (path (k + 1)).toNat) = some e ∧ entryValid e = true ∧
        path k = entryPred e ∧ entryBit e = inputBit (path (k + 1)) ∧ db.read k = some (entryBit e)) ∧
      (∀ a, s.n.toNat ≤ a → db.read a = s.dbuf.read a)) ∧
  (∀ s : State, (s.dst ≠ .run ∨ s.t ≠ s.n) → exec .dterm s = .next
    { s with errflags := s.errflags ||| 0b000100#6, lasterr := 3#4, rsp := some 0x3000000000000000#64, cw := none }) ∧
  (∀ imm : BitVec 24, imm ≠ 0#24 → RaisesErrOp (0x32#8 ++ imm))

/-- 44_viterbi_traceback R191, `DRD k`: bit `k` of a finished decode; `ERR_SEQ` before `ERR_IDX`. -/
def Obligations.DrdReadsBit : Prop :=
  (∀ k : BitVec 16, encode (.drd k) = 0x33000000#32 ||| k.setWidth 32) ∧
  (∀ (s : State) (k : BitVec 16) (b : Bit), s.dst = .done → k.toNat < s.n.toNat → k.toNat < s.cfg.nMax →
    s.dbuf.read k.toNat = some b →
    exec (.drd k) s = .next { s with rsp := some (b.setWidth 64), cw := none }) ∧
  (∀ (s : State) (k : BitVec 16), s.dst ≠ .done → exec (.drd k) s = .next
    { s with errflags := s.errflags ||| 0b000100#6, lasterr := 3#4, rsp := some 0x3000000000000000#64, cw := none }) ∧
  (∀ (s : State) (k : BitVec 16), s.dst = .done → s.n.toNat ≤ k.toNat → exec (.drd k) s = .next
    { s with errflags := s.errflags ||| 0b010000#6, lasterr := 5#4, rsp := some 0x5000000000000000#64, cw := none }) ∧
  (∀ imm : BitVec 24, 2 ^ 16 ≤ imm.toNat → RaisesErrOp (0x33#8 ++ imm))

/-- 44_viterbi_traceback R192 and R194: for a frame whose length is a positive multiple of 4 within `N_MAX`, the command
sequence of 30_encoding R96 succeeds throughout, whatever the sample values and the state before, and its `DRD` responses
are `decode(Y)`. A frame whose length no `DSTART` word can carry is refused whole, never cut (the model's choice, log
19). -/
def Obligations.DecodeRunGivesBits : Prop :=
  (∀ (s : State) (ys : List Sample) (n : Nat), s.cfg.Legal → ys.length = 4 * n → 1 ≤ n → n ≤ s.cfg.nMax →
    ∃ ws bits rs t, decodeSamples ys = some bits ∧ bits.length = n ∧
      assembleAll (decodeCommands ys) = some ws ∧ runWords ws s = some (rs, t) ∧ (∀ r ∈ rs, r.ok = true) ∧
      (rs.drop (ys.length + 2)).map Reply.rsp = bits.map (fun b => some (b.setWidth 64)) ∧
      t.enc = s.enc ∧ t.dst = .done) ∧
  (∀ ys : List Sample, 2 ^ 24 ≤ ys.length → assembleAll (decodeCommands ys) = none)

/-- 44_viterbi_traceback R192: the `DRD` responses are `decode(Y)` also when any commands that are not those of a decode, and
any illegal words, stand between. `decode` has no value for a length that is not a positive multiple of 4. 30_encoding R96:
the first command of `DECODE` answers `ERR_LEN` for such a length and `ERR_CAP` for a frame beyond `N_MAX`, and every later
command then answers `ERR_SEQ`; for every length a `DSTART` word can carry
(60_exceptions R230). The illegal words in between are those of 30_encoding R88. -/
def Obligations.InterleavedDecode : Prop :=
  (∀ (s t : State) (ws : List Word) (ys : List Sample) (n : Nat) (rs : List Reply),
    s.cfg.Legal → ys.length = 4 * n → 1 ≤ n → n ≤ s.cfg.nMax → runWords ws s = some (rs, t) →
    assembleAll (decodeCommands ys) = some (ws.filter (wordIs usesFrame)) →
    ∃ bits, decodeSamples ys = some bits ∧ bits.length = n ∧
      drdReplies ws rs = bits.map (fun b => some (b.setWidth 64))) ∧
  (∀ ys : List Sample, (ys.length = 0 ∨ ys.length % 4 ≠ 0) → decodeSamples ys = none) ∧
  (∀ (s : State) (ys : List Sample), ys.length < 2 ^ 24 →
    ∃ i t, (decodeCommands ys).head?.bind Written.assemble = some i ∧ issue s (encode i) = .next t ∧
      ((ys.length = 0 ∨ ys.length % 4 ≠ 0) → t.rsp = some 0x1000000000000000#64 ∧ t.dst = .idle) ∧
      (ys.length ≠ 0 → ys.length % 4 = 0 → s.cfg.nMax < ys.length / 4 →
        t.rsp = some 0x4000000000000000#64 ∧ t.dst = .idle)) ∧
  (∀ (s : State) (ys : List Sample) (x : Written) (i : Instr), s.dst = .idle → x ∈ (decodeCommands ys).tail →
    x.assemble = some i →
    ∃ t, issue s (encode i) = .next t ∧ t.rsp = some 0x3000000000000000#64 ∧ t.dst = .idle)

/-- 44_viterbi_traceback R190: for every `U` of the same length, `dist(Y, encode(decode(Y))) ≤ dist(Y, encode(U))`. The spec has
`decode` for `n ≤ N_MAX` only; that it has a value for longer frames too is the model's choice (log 20). -/
def Obligations.DecodeIsOptimal : Prop :=
  ∀ (ys : List Sample) (n : Nat), ys.length = 4 * n → 1 ≤ n →
    ∃ bits, decodeSamples ys = some bits ∧ bits.length = n ∧
      ∀ us : List Bit, us.length = n → dist ys (encodeBits bits) ≤ dist ys (encodeBits us)

/-- 44_viterbi_traceback R193: `decode(encode(B)) = B` for every non-empty `B`; `encode` is injective on sequences of one
length; the empty codeword has no decode. R193 says it for `1 ≤ len(B) ≤ N_MAX`; that `decode` has a value for longer
frames too is the model's choice (log 20). -/
def Obligations.NoiselessRoundTrip : Prop :=
  (∀ bits : List Bit, bits ≠ [] → decodeSamples (encodeBits bits) = some bits) ∧
  (∀ us vs : List Bit, us.length = vs.length → encodeBits us = encodeBits vs → us = vs) ∧
  encodeBits [] = [] ∧ decodeSamples [] = none

/-! ## Errors -/

/-- 60_exceptions R228: a command answers `ERR_SEQ`, with no other effect, exactly when its sequencing state does not allow
it. The premise `t ≤ n` is item 3 of the invariant (10_state R34). -/
def Obligations.SequenceErrors : Prop :=
  ∀ (i : Instr) (s : State), s.t.toNat ≤ s.n.toNat →
    (¬ sequenceAllows i s → exec i s = .next
      { s with
        errflags := s.errflags ||| 0b000100#6, lasterr := 3#4, rsp := some 0x3000000000000000#64, cw := none }) ∧
    (∀ t, sequenceAllows i s → exec i s = .next t → t.rsp ≠ some 0x3000000000000000#64)

/-- 60_exceptions R232 and R233: a word that raises an error sets its flag and `lasterr`, answers `{code, 60'h0}`,
produces nothing on `cw`, and changes nothing else, but for the two exceptions R233 lists. -/
def Obligations.FailuresArePrecise : Prop :=
  ∀ (w : Word) (s t : State), issue s w = .next t → t.succeeded = false →
    ∃ (c : BitVec 4) (base : State), 1 ≤ c.toNat ∧ c.toNat ≤ 6 ∧
      t = { base with
        errflags := s.errflags ||| (1#6 <<< (c.toNat - 1)), lasterr := c, rsp := some (c ++ 0#60), cw := none } ∧
      (∀ b, decode w = .ok (.ebit b) → c = 2#4 → base = { s with eflt := true }) ∧
      (∀ len, decode w = .ok (.dstart len) → base = { s with dst := .idle, n := 0#16, t := 0#16, ph := 0#2 }) ∧
      ((∀ b, decode w = .ok (.ebit b) → c ≠ 2#4) → (∀ len, decode w ≠ .ok (.dstart len)) → base = s)

/-- 60_exceptions R235: which command can raise which error, both ways. -/
def Obligations.ErrorsByCommand : Prop :=
  (∀ (i : Instr) (s t : State), exec i s = .next t → t.succeeded = false →
    ∃ e ∈ errorsOf i, t.rsp = some (errResponse e)) ∧
  (∀ (i : Instr) (e : Err), e ∈ errorsOf i →
    ∃ (j : Instr) (s t : State), j.mnemonic = i.mnemonic ∧ s.cfg.Legal ∧ exec j s = .next t ∧
      t.rsp = some (errResponse e))

/-- 30_encoding R86 and R87: every command, legal or not, answers exactly one response word, reserved bits 0, `st` 0 to 6,
`data` 0 when `st ≠ 0`; `cw` carries something exactly when an `EBIT` succeeds. -/
def Obligations.EveryCommandResponds : Prop :=
  ∀ (s t : State) (w : Word), issue s w = .next t →
    ∃ r, t.rsp = some r ∧ r.extractLsb' 56 4 = 0#4 ∧ (rspStatus r).toNat ≤ 6 ∧
      (rspStatus r ≠ 0#4 → rspData r = 0#56) ∧
      (t.cw.isSome = true ↔ rspStatus r = 0#4 ∧ ∃ b, decode w = .ok (.ebit b))

/-- 10_state R29 and R30: a failing command sets the flag of its code and `lasterr`; "nothing but `CLRERR`, `RESET` and
reset clears a bit"; a succeeding command does not change the record; and but for `RDSTAT`, which returns it, no command's
legality or result depends on `errflags`. -/
def Obligations.ErrorRecordSticky : Prop :=
  (∀ (s t : State) (h : HostInput) (rest : List HostInput), s.inputs = h :: rest → step s = .next t →
    (h = .resetInput ∨ h = .command (encode .clrerr) ∨ h = .command (encode .reset) →
      t.errflags = 0#6 ∧ t.lasterr = 0#4) ∧
    (h ≠ .resetInput → h ≠ .command (encode .clrerr) → h ≠ .command (encode .reset) →
      (∀ k, s.errflags.getLsbD k = true → t.errflags.getLsbD k = true) ∧
      (t.succeeded = true → t.errflags = s.errflags ∧ t.lasterr = s.lasterr) ∧
      (t.succeeded = false → ∃ r, t.rsp = some r ∧ t.lasterr = rspStatus r ∧
        t.errflags = s.errflags ||| (1#6 <<< ((rspStatus r).toNat - 1))))) ∧
  (∀ (i : Instr) (s t : State) (f : BitVec 6), i ≠ .rdstat → exec i s = .next t →
    ∃ t', exec i { s with errflags := f } = .next t' ∧ t'.rsp = t.rsp ∧ t'.cw = t.cw ∧ t'.enc = t.enc ∧ t'.dec = t.dec)

/-- 10_state R23: the transitions of `dst`, all of them. -/
def Obligations.DstTransitions : Prop :=
  ∀ (s t : State) (h : HostInput) (rest : List HostInput), s.inputs = h :: rest → step s = .next t →
    (h = .resetInput → t.dst = .idle) ∧
    ∀ w, h = .command w →
      (decode w = .ok .reset → t.dst = .idle) ∧
      (∀ len, decode w = .ok (.dstart len) →
        (t.succeeded = true → t.dst = .run) ∧ (t.succeeded = false → t.dst = .idle)) ∧
      (decode w = .ok .dterm → (t.succeeded = true → s.dst = .run ∧ s.t = s.n ∧ t.dst = .done) ∧
        (t.succeeded = false → t.dst = s.dst)) ∧
      (∀ y, decode w = .ok (.dsamp y) → t.succeeded = true → s.dst = .run ∧ t.dst = .run) ∧
      ((∀ i, decode w = .ok i → i ≠ .reset ∧ i ≠ .dterm ∧ ∀ len, i ≠ .dstart len) → t.dst = s.dst)

/-! ## Frames and independence -/

/-- The frame of the commands that write no state: `NOP`, `RDSTAT`, `B2S`, `S2B`, `TRANS`, `DRD`, `RDPM`, `RDSV` (10_state
R36, 20_memory R66). A failing one may change the error record. -/
def Obligations.ReadCommandsFrame : Prop :=
  ∀ (i : Instr) (s t : State),
    (i = .nop ∨ i = .rdstat ∨ (∃ b, i = .b2s b) ∨ (∃ y, i = .s2b y) ∨ (∃ q b, i = .trans q b) ∨ (∃ k, i = .drd k) ∨
      (∃ x, i = .rdpm x) ∨ (∃ tt x, i = .rdsv tt x)) →
    exec i s = .next t →
    t.enc = s.enc ∧ t.dec = s.dec ∧ t.inputs = s.inputs ∧ t.cw = none ∧
    (t.succeeded = true → t.errflags = s.errflags ∧ t.lasterr = s.lasterr) ∧
    (∀ a, t.sv.read a = s.sv.read a) ∧ (∀ a, t.dbuf.read a = s.dbuf.read a)

/-- The frame of `ESTART` and `EBIT`: the encoder's two fields may change, the decoder and both memories do not; a
successful one leaves the error record, and only `EBIT` may change it (10_state R24, R36). -/
def Obligations.EncoderCommandsFrame : Prop :=
  ∀ (i : Instr) (s t : State), (i = .estart ∨ ∃ b, i = .ebit b) → exec i s = .next t →
    t.dec = s.dec ∧ t.inputs = s.inputs ∧
    (t.succeeded = true → t.errflags = s.errflags ∧ t.lasterr = s.lasterr) ∧
    (i = .estart → t.errflags = s.errflags ∧ t.lasterr = s.lasterr) ∧
    (t.succeeded = false → t.encState = s.encState) ∧
    (∀ a, t.sv.read a = s.sv.read a) ∧ (∀ a, t.dbuf.read a = s.dbuf.read a)

/-- The frame of `DSTART`, `DSAMP` and `DTERM`: the encoder does not change; `DSTART` touches neither memory nor `ybuf`;
`DSAMP` stores only into the eight entries of row `t + 1`, and only when it completes a step; `DTERM` stores only into
`dbuf[0..n−1]`, and only when it succeeds (10_state R24, R36). -/
def Obligations.DecoderCommandsFrame : Prop :=
  ∀ (i : Instr) (s t : State), ((∃ len, i = .dstart len) ∨ (∃ y, i = .dsamp y) ∨ i = .dterm) → exec i s = .next t →
    t.enc = s.enc ∧ t.cfg = s.cfg ∧ t.inputs = s.inputs ∧ t.cw = none ∧
    (t.succeeded = true → t.errflags = s.errflags ∧ t.lasterr = s.lasterr) ∧
    (∀ len, i = .dstart len → t.ybuf = s.ybuf ∧ (∀ a, t.sv.read a = s.sv.read a) ∧
      (∀ a, t.dbuf.read a = s.dbuf.read a) ∧ (t.succeeded = false → t.pm = s.pm)) ∧
    (∀ y, i = .dsamp y → t.dst = s.dst ∧ t.n = s.n ∧ (∀ a, t.dbuf.read a = s.dbuf.read a) ∧
      (∀ a, (t.succeeded = true → s.ph = 3#2 → ∀ x : Idx, a ≠ svAddr (s.t.toNat + 1) x) → t.sv.read a = s.sv.read a) ∧
      (t.succeeded = true → s.ph = 3#2 → t.ybuf = s.ybuf) ∧
      (t.succeeded = true → s.ph ≠ 3#2 → t.pm = s.pm ∧ t.t = s.t) ∧
      (t.succeeded = false → t.dec = s.dec)) ∧
    (i = .dterm → t.n = s.n ∧ t.t = s.t ∧ t.ph = s.ph ∧ t.ybuf = s.ybuf ∧ t.pm = s.pm ∧
      (∀ a, t.sv.read a = s.sv.read a) ∧
      (∀ a, (t.succeeded = true → s.n.toNat ≤ a) → t.dbuf.read a = s.dbuf.read a))

/-- The frame of `RESET` and `CLRERR`: neither writes the metrics, the held samples or a memory; `CLRERR` writes the error
record only (10_state R24, R36). -/
def Obligations.ResetCommandsFrame : Prop :=
  ∀ (i : Instr) (s t : State), (i = .reset ∨ i = .clrerr) → exec i s = .next t →
    t.pm = s.pm ∧ t.ybuf = s.ybuf ∧ (∀ a, t.sv.read a = s.sv.read a) ∧ (∀ a, t.dbuf.read a = s.dbuf.read a) ∧
    t.cfg = s.cfg ∧ t.inputs = s.inputs ∧ t.cw = none ∧ (i = .clrerr → t.enc = s.enc ∧ t.dec = s.dec)

/-- 10_state R36: the encoder's and the decoder's state are disjoint. What an encoder command answers and leaves in the
encoder does not depend on the decoder, and the other way about. -/
def Obligations.EncoderDecoderIndependent : Prop :=
  (∀ (i : Instr) (s s' t t' : State), (i = .estart ∨ ∃ b, i = .ebit b) → s.enc = s'.enc →
    exec i s = .next t → exec i s' = .next t' → t.enc = t'.enc ∧ t.rsp = t'.rsp ∧ t.cw = t'.cw) ∧
  (∀ (i : Instr) (s s' t : State),
    ((∃ len, i = .dstart len) ∨ (∃ y, i = .dsamp y) ∨ i = .dterm ∨ (∃ k, i = .drd k) ∨ (∃ x, i = .rdpm x) ∨
      (∃ tt x, i = .rdsv tt x)) → s.dec = s'.dec → exec i s = .next t →
    ∃ t', exec i s' = .next t' ∧ t.dec = t'.dec ∧ t.rsp = t'.rsp)

/-! ## The invariant -/

/-- 10_state R34: the invariants "hold after reset and after every command"; here, every step keeps them. -/
def Obligations.InvKeptByEveryStep : Prop :=
  ∀ s t : State, s.Inv → step s = .next t → t.Inv

/-- 10_state R34: the invariants hold at reset. -/
def Obligations.InvAtReset : Prop := State.reset.Inv

/-- 60_exceptions R249 with 10_state R35 and 44_viterbi_traceback R189: from a state that meets the invariant every input
gives a next state; no read meets an unwritten location, no address is outside its space and the traceback meets no
missing back-pointer. -/
def Obligations.InvNeverStops : Prop :=
  ∀ s : State, s.Inv → Safe (step s)

/-- 00_scope R7 and 10_state R34 item 7: in a state that meets the invariant, with a frame in progress, every finite metric
is below 2^49, so that `RDPM` returns it exactly and the natural number of the model is the register's value. -/
def Obligations.MetricsFitRegister : Prop :=
  ∀ (s : State) (i : Idx) (m : Nat), s.Inv → s.dst ≠ .idle → at8 s.pm i = .fin m →
    m < 2 ^ 49 ∧ ∃ r, exec (.rdpm i) s = .next { s with rsp := some r, cw := none } ∧ r.toNat = m

/-- Where the machine stops by name (the model's choices, logs 6, 8 and 9): a read of an entry or bit nothing has written,
an address outside its space, and a traceback that starts at an entry with `valid = 0`. -/
def Obligations.StopsByName : Prop :=
  (∀ (s : State) (tt : BitVec 16) (i : Idx), s.dst ≠ .idle → 1 ≤ tt.toNat → tt.toNat ≤ s.t.toNat →
    tt.toNat ≤ s.cfg.nMax → s.sv.read (svAddr tt.toNat i) = none →
    exec (.rdsv tt i) s = .fault (.svUnwritten (svAddr tt.toNat i))) ∧
  (∀ (s : State) (tt : BitVec 16) (i : Idx), s.dst ≠ .idle → 1 ≤ tt.toNat → tt.toNat ≤ s.t.toNat →
    s.cfg.nMax < tt.toNat → exec (.rdsv tt i) s = .fault (.svNoAddress (svAddr tt.toNat i))) ∧
  (∀ (s : State) (k : BitVec 16), s.dst = .done → k.toNat < s.n.toNat → k.toNat < s.cfg.nMax →
    s.dbuf.read k.toNat = none → exec (.drd k) s = .fault (.dbUnwritten k.toNat)) ∧
  (∀ (s : State) (k : BitVec 16), s.dst = .done → k.toNat < s.n.toNat → s.cfg.nMax ≤ k.toNat →
    exec (.drd k) s = .fault (.dbNoAddress k.toNat)) ∧
  (∀ (s : State) (y : Sample), s.dst = .run → s.t ≠ s.n → s.ph = 3#2 → s.cfg.nMax ≤ s.t.toNat →
    exec (.dsamp y) s = .fault (.svNoAddress (svAddr (s.t.toNat + 1) 0#3))) ∧
  (∀ (s : State) (e : BitVec 5), s.dst = .run → s.t = s.n → 1 ≤ s.n.toNat → s.n.toNat ≤ s.cfg.nMax →
    s.sv.read (svAddr s.n.toNat (term s.pm)) = some e → entryValid e = false →
    exec .dterm s = .fault (.missingBackPointer (svAddr s.n.toNat (term s.pm))))
end

