-- ==== Sys2Proof/Laws/Bits.lean ====
section
/-! SUPPORT. Slicing and joining bit vectors as arithmetic, the small finite domains, and the spec lemmas of the decoder's
fields, the operands and the survivor entries. -/

namespace Sys2Proof.Laws

open Sys2Proof.Machine

/-! ## Joining and slicing -/

theorem toNat_append_add {m n : Nat} (x : BitVec m) (y : BitVec n) :
    (x ++ y).toNat = x.toNat * 2 ^ n + y.toNat := by
  rw [BitVec.toNat_append, ← Nat.shiftLeft_add_eq_or_of_lt y.isLt, Nat.shiftLeft_eq]

theorem toNat_slice {n : Nat} (x : BitVec n) (lo len : Nat) :
    (x.extractLsb' lo len).toNat = x.toNat / 2 ^ lo % 2 ^ len := by
  rw [BitVec.extractLsb'_toNat, Nat.shiftRight_eq_div_pow]

theorem slice_append_hi {m n : Nat} (x : BitVec m) (y : BitVec n) : (x ++ y).extractLsb' n m = x := by
  apply BitVec.eq_of_toNat_eq
  rw [toNat_slice, toNat_append_add, Nat.add_comm, Nat.add_mul_div_right _ _ (Nat.two_pow_pos n),
    Nat.div_eq_of_lt y.isLt, Nat.zero_add, Nat.mod_eq_of_lt x.isLt]

theorem slice_append_lo {m n : Nat} (x : BitVec m) (y : BitVec n) : (x ++ y).extractLsb' 0 n = y := by
  apply BitVec.eq_of_toNat_eq
  rw [toNat_slice, toNat_append_add, pow_zero, Nat.div_one, Nat.mul_add_mod', Nat.mod_eq_of_lt y.isLt]

/-! ## The decoder's fields (30_encoding R80) -/

@[simp] theorem opOf_append (o : BitVec 8) (x : BitVec 24) : opOf (o ++ x) = o := slice_append_hi o x

@[simp] theorem immOf_append (o : BitVec 8) (x : BitVec 24) : immOf (o ++ x) = x := slice_append_lo o x

theorem op_append_imm (w : Word) : opOf w ++ immOf w = w := by
  apply BitVec.eq_of_toNat_eq
  simp only [opOf, immOf, toNat_slice, toNat_append_add]
  omega

/-- Decoding a word built of an opcode and an operand field. -/
@[simp] theorem decode_append (o : BitVec 8) (x : BitVec 24) : decode (o ++ x) = decodeFields o x := by
  simp [decode]

theorem decode_encode_fields (i : Instr) : decode (encode i) = decodeFields i.op i.imm := by
  simp [encode]

/-! ## Small finite domains -/

/-- A statement about a Bit has two cases. -/
theorem forall_bit {p : Bit → Prop} (h0 : p 0#1) (h1 : p 1#1) (u : Bit) : p u := by
  have hu : u = 0#1 ∨ u = 1#1 := by revert u; decide
  rcases hu with rfl | rfl <;> assumption

/-- A statement about a state index has the eight cases of `allStates`. -/
theorem forall_idx {p : Idx → Prop} (h : ∀ i ∈ allStates, p i) (i : Idx) : p i :=
  h i (by revert i; decide)

@[simp] theorem at8_byState {α : Type} (f : Idx → α) (i : Idx) : at8 (byState f) i = f i := by
  simp [at8, byState]

/-! ## Operands (30_encoding R81, R82) -/

theorem asBit_of_le {w : Nat} {v : BitVec w} (h : v.toNat ≤ 1) : asBit v = some (BitVec.ofNat 1 v.toNat) := by
  simp [asBit, h]

theorem asBit_of_gt {w : Nat} {v : BitVec w} (h : 1 < v.toNat) : asBit v = none := by
  simp [asBit]; omega

/-- A Bit widened to an operand field is that Bit again. -/
theorem asBit_setWidth (u : Bit) : asBit (u.setWidth 24) = some u := by
  revert u; decide

theorem asIdx_of_le {v : BitVec 8} (h : v.toNat ≤ 7) : asIdx v = some (BitVec.ofNat 3 v.toNat) := by
  simp [asIdx, h]

theorem asIdx_of_gt {v : BitVec 8} (h : 7 < v.toNat) : asIdx v = none := by
  simp [asIdx]; omega

/-! ## Responses (30_encoding R86) -/

theorem okResponse_toNat (d : BitVec 56) : (okResponse d).toNat = d.toNat := by
  rw [okResponse, toNat_append_add, toNat_append_add]
  simp

theorem okResponse_eq (d : BitVec 56) : okResponse d = d.setWidth 64 := by
  apply BitVec.eq_of_toNat_eq
  have := d.isLt
  rw [okResponse_toNat, BitVec.toNat_setWidth]
  omega

theorem okResponse_zext {w : Nat} (v : BitVec w) (h : w ≤ 56) : okResponse (zext56 v) = v.setWidth 64 := by
  apply BitVec.eq_of_toNat_eq
  have h1 : v.toNat < 2 ^ 56 := Nat.lt_of_lt_of_le v.isLt (Nat.pow_le_pow_right (by decide) h)
  have h2 : v.toNat < 2 ^ 64 := Nat.lt_of_lt_of_le v.isLt (Nat.pow_le_pow_right (by decide) (by omega))
  rw [okResponse_toNat, zext56, BitVec.toNat_setWidth, BitVec.toNat_setWidth, Nat.mod_eq_of_lt h1, Nat.mod_eq_of_lt h2]

@[simp] theorem rspStatus_ok (d : BitVec 56) : rspStatus (okResponse d) = 0#4 := by
  apply BitVec.eq_of_toNat_eq
  have := d.isLt
  simp only [rspStatus, toNat_slice, okResponse_toNat]
  simp
  omega

@[simp] theorem rspData_ok (d : BitVec 56) : rspData (okResponse d) = d := by
  apply BitVec.eq_of_toNat_eq
  have := d.isLt
  simp only [rspData, toNat_slice, okResponse_toNat]
  omega

@[simp] theorem rspStatus_err (e : Err) : rspStatus (errResponse e) = e.code := by cases e <;> decide

@[simp] theorem rspData_err (e : Err) : rspData (errResponse e) = 0#56 := by cases e <;> decide

theorem code_ne_zero (e : Err) : e.code ≠ 0#4 := by cases e <;> decide

theorem flag_eq_shift (e : Err) : e.flag = 1#6 <<< (e.code.toNat - 1) := by cases e <;> decide

theorem errResponse_inj {e e' : Err} (h : errResponse e = errResponse e') : e = e' := by
  cases e <;> cases e' <;> first | rfl | (exact absurd h (by decide))

/-! ## Survivor entries (20_memory R51) -/

@[simp] theorem entryValid_some (p : Idx) (b : Bit) : entryValid (packEntry (some (p, b))) = true := by
  revert p b; decide

@[simp] theorem entryPred_some (p : Idx) (b : Bit) : entryPred (packEntry (some (p, b))) = p := by
  revert p b; decide

@[simp] theorem entryBit_some (p : Idx) (b : Bit) : entryBit (packEntry (some (p, b))) = b := by
  revert p b; decide

@[simp] theorem packEntry_none : packEntry none = 0#5 := by decide

@[simp] theorem entryValid_none : entryValid (packEntry none) = false := by decide

end Sys2Proof.Laws
end

