-- ==== Sys2Proof/Laws/Memory.lean ====
section
/-! SUPPORT. The laws of the two memories: a read after a write, the canonical form, a whole row, and what the checked
accesses and the traceback can answer. -/

namespace Sys2Proof.Laws

open Sys2Proof.Machine

/-! ## Read after write, canonical form -/

@[simp] theorem read_write_same {w : Nat} (m : Memory w) (a : Nat) (v : BitVec w) :
    (m.write a v).read a = some v := by
  induction m with
  | nil => simp [Memory.write, Memory.read]
  | cons c rest ih =>
    obtain ⟨b, x⟩ := c
    simp only [Memory.write]
    split
    · simp [Memory.read]
    · split
      · simp [Memory.read]
      · next h => simp [Memory.read, h, ih]

theorem read_write_other {w : Nat} (m : Memory w) {a a' : Nat} (v : BitVec w) (h : a' ≠ a) :
    (m.write a v).read a' = m.read a' := by
  induction m with
  | nil => simp [Memory.write, Memory.read, h]
  | cons c rest ih =>
    obtain ⟨b, x⟩ := c
    simp only [Memory.write]
    split
    · simp [Memory.read, h]
    · split
      · next hab => subst hab; simp [Memory.read, h]
      · simp [Memory.read, ih]

theorem wf_cons {w : Nat} (a : Nat) (v : BitVec w) (m : Memory w) :
    Memory.wf ((a, v) :: m) = true ↔ (∀ c ∈ m, a < c.1) ∧ m.wf = true := by
  simp [Memory.wf]

theorem mem_write {w : Nat} (m : Memory w) (a : Nat) (v : BitVec w) (c : Nat × BitVec w)
    (h : c ∈ m.write a v) : c = (a, v) ∨ c ∈ m := by
  induction m with
  | nil => simpa [Memory.write] using h
  | cons d rest ih =>
    obtain ⟨b, x⟩ := d
    simp only [Memory.write] at h
    split at h
    · simpa using h
    · split at h
      · rcases List.mem_cons.1 h with h | h
        · exact .inl h
        · exact .inr (List.mem_cons_of_mem _ h)
      · rcases List.mem_cons.1 h with h | h
        · exact .inr (by simp [h])
        · exact (ih h).imp_right (List.mem_cons_of_mem _)

/-- A write keeps the canonical form. -/
theorem write_wf {w : Nat} (m : Memory w) (a : Nat) (v : BitVec w) (h : m.wf = true) :
    (m.write a v).wf = true := by
  induction m with
  | nil => simp [Memory.write, Memory.wf]
  | cons c rest ih =>
    obtain ⟨b, x⟩ := c
    obtain ⟨hb, hr⟩ := (wf_cons b x rest).1 h
    simp only [Memory.write]
    split
    · next hab =>
      refine (wf_cons _ _ _).2 ⟨fun c hc => ?_, h⟩
      rcases List.mem_cons.1 hc with rfl | hc
      · exact hab
      · exact Nat.lt_trans hab (hb c hc)
    · split
      · next hab => subst hab; exact (wf_cons _ _ _).2 ⟨hb, hr⟩
      · next h1 h2 =>
        refine (wf_cons _ _ _).2 ⟨fun c hc => ?_, ih hr⟩
        rcases mem_write rest a v c hc with rfl | hc
        · simp only; omega
        · exact hb c hc

/-- The reset state's memories are in canonical form, on every platform. -/
theorem reset_memories_wf (cfg : Config) :
    (State.resetOn cfg).sv.wf = true ∧ (State.resetOn cfg).dbuf.wf = true := ⟨rfl, rfl⟩

/-! ## Rows -/

theorem svAddr_inj {t t' : Nat} {i i' : Idx} (h : svAddr t i = svAddr t' i') : t = t' ∧ i = i' := by
  have hi : i.toNat < 8 := i.isLt
  have hi' : i'.toNat < 8 := i'.isLt
  simp only [svAddr] at h
  exact ⟨by omega, BitVec.eq_of_toNat_eq (by omega)⟩

theorem foldl_write_other {w : Nat} (f : Idx → Nat) (e : Idx → BitVec w) (is : List Idx) (m : Memory w) (a : Nat)
    (h : ∀ i ∈ is, a ≠ f i) : (is.foldl (fun acc i => acc.write (f i) (e i)) m).read a = m.read a := by
  induction is generalizing m with
  | nil => rfl
  | cons i is ih =>
    rw [List.foldl_cons, ih _ (fun j hj => h j (List.mem_cons_of_mem _ hj)),
      read_write_other _ _ (h i List.mem_cons_self)]

theorem foldl_write_same {w : Nat} (f : Idx → Nat) (e : Idx → BitVec w) (hf : ∀ i j, f i = f j → i = j) (is : List Idx)
    (m : Memory w) (i : Idx) (hi : i ∈ is) :
    (is.foldl (fun acc j => acc.write (f j) (e j)) m).read (f i) = some (e i) := by
  induction is generalizing m with
  | nil => exact absurd hi List.not_mem_nil
  | cons j is ih =>
    rw [List.foldl_cons]
    by_cases hmem : i ∈ is
    · exact ih _ hmem
    · obtain rfl : i = j := (List.mem_cons.1 hi).resolve_right hmem
      rw [foldl_write_other, read_write_same]
      intro k hk hik
      exact hmem (hf _ _ hik ▸ hk)

theorem foldl_write_wf {w : Nat} (f : Idx → Nat) (e : Idx → BitVec w) (is : List Idx) (m : Memory w)
    (h : m.wf = true) : (is.foldl (fun acc j => acc.write (f j) (e j)) m).wf = true := by
  induction is generalizing m with
  | nil => exact h
  | cons j is ih => exact ih _ (write_wf _ _ _ h)

/-- Everything a row write can do (20_memory R54, 43_viterbi_forward R167): when it answers, the row exists, its eight
entries are stored, every other address reads as before, and the form is kept. -/
theorem svWriteRow_ok {c : Config} {m m' : Memory 5} {t' : Nat} {row : Vector SvEntry 8}
    (h : svWriteRow c m t' row = .ok m') :
    (1 ≤ t' ∧ t' ≤ c.nMax) ∧ (∀ i, m'.read (svAddr t' i) = some (packEntry (at8 row i))) ∧
      (∀ a, (∀ i, a ≠ svAddr t' i) → m'.read a = m.read a) ∧ (m.wf = true → m'.wf = true) := by
  simp only [svWriteRow] at h
  split at h
  · next hex =>
    simp only [Except.ok.injEq] at h
    subst h
    refine ⟨by simpa [svRowExists] using hex, fun i => ?_, fun a ha => ?_, fun hw => ?_⟩
    · exact foldl_write_same (svAddr t') (fun i => packEntry (at8 row i)) (fun i j h => (svAddr_inj h).2) _ _ i
        (by revert i; decide)
    · exact foldl_write_other (svAddr t') _ _ _ _ (fun i _ => ha i)
    · exact foldl_write_wf (svAddr t') _ _ _ hw
  · exact absurd h (by simp)

/-- A row of `1..N_MAX` is written. -/
theorem svWriteRow_exists (c : Config) (m : Memory 5) (t' : Nat) (row : Vector SvEntry 8) (h1 : 1 ≤ t')
    (h2 : t' ≤ c.nMax) : ∃ m', svWriteRow c m t' row = .ok m' := by
  simp [svWriteRow, svRowExists, h1, h2]

/-! ## Checked accesses -/

theorem svRead_ok {c : Config} {m : Memory 5} {t' : Nat} {i : Idx} {e : BitVec 5} :
    svRead c m t' i = .ok e ↔ (1 ≤ t' ∧ t' ≤ c.nMax) ∧ m.read (svAddr t' i) = some e := by
  simp only [svRead, svRowExists, Bool.and_eq_true, decide_eq_true_eq]
  split
  · next h =>
    cases hr : m.read (svAddr t' i) <;> simp [h]
  · next h => simp [h]

theorem dbRead_ok {c : Config} {m : Memory 1} {k : Nat} {b : Bit} :
    dbRead c m k = .ok b ↔ k < c.nMax ∧ m.read k = some b := by
  simp only [dbRead, dbExists, decide_eq_true_eq]
  split
  · next h => cases hr : m.read k <;> simp [h]
  · next h => simp [h]

theorem dbWrite_ok {c : Config} {m m' : Memory 1} {k : Nat} {b : Bit} :
    dbWrite c m k b = .ok m' ↔ k < c.nMax ∧ m' = m.write k b := by
  simp only [dbWrite, dbExists, decide_eq_true_eq]
  split
  · next h => simp [h, eq_comm]
  · next h => simp [h]

theorem backPointer_ok {c : Config} {sv : Memory 5} {k : Nat} {cur : Idx} {p : Idx} {b : Bit} :
    backPointer c sv k cur = .ok (p, b) ↔
      ∃ e, (1 ≤ k ∧ k ≤ c.nMax) ∧ sv.read (svAddr k cur) = some e ∧ entryValid e = true ∧ p = entryPred e ∧
        b = entryBit e := by
  simp only [backPointer]
  cases hr : svRead c sv k cur with
  | error f =>
    simp only [reduceCtorEq, false_iff, not_exists]
    rintro e ⟨h1, h2, -⟩
    rw [svRead_ok.2 ⟨h1, h2⟩] at hr
    exact absurd hr (by simp)
  | ok e =>
    obtain ⟨h1, h2⟩ := svRead_ok.1 hr
    by_cases hv : entryValid e = true
    · simp only [hv, if_true, Except.ok.injEq, Prod.mk.injEq]
      constructor
      · rintro ⟨rfl, rfl⟩
        exact ⟨e, h1, h2, hv, rfl, rfl⟩
      · rintro ⟨e', -, h2', -, rfl, rfl⟩
        obtain rfl : e = e' := by rw [h2] at h2'; exact Option.some.inj h2'
        exact ⟨rfl, rfl⟩
    · simp only [hv]
      simp only [Bool.false_eq_true, if_false, reduceCtorEq, false_iff, not_exists]
      rintro e' ⟨-, h2', hv', -⟩
      rw [h2] at h2'
      exact hv (Option.some.inj h2' ▸ hv')

/-! ## The traceback (44_viterbi_traceback R188) -/

/-- Everything a traceback from time step `k` can do when it answers: it touches `dbuf` below `k` only, and keeps its
form. -/
theorem traceback_ok {c : Config} {sv : Memory 5} {k : Nat} {cur : Idx} {db db' : Memory 1}
    (h : traceback c sv k cur db = .ok db') :
    (∀ a, k ≤ a → db'.read a = db.read a) ∧ (db.wf = true → db'.wf = true) ∧
      (∀ a, a < k → ∃ b, db'.read a = some b) := by
  induction k generalizing cur db with
  | zero =>
    simp only [traceback, Except.ok.injEq] at h
    subst h
    exact ⟨fun _ _ => rfl, id, fun a ha => absurd ha (Nat.not_lt_zero a)⟩
  | succ k ih =>
    simp only [traceback] at h
    split at h
    · exact absurd h (by simp)
    · next pred bit _ =>
      split at h
      · exact absurd h (by simp)
      · next db1 hw =>
        obtain ⟨-, rfl⟩ := dbWrite_ok.1 hw
        obtain ⟨h1, h2, h3⟩ := ih h
        refine ⟨fun a ha => ?_, fun hwf => h2 (write_wf _ _ _ hwf), fun a ha => ?_⟩
        · rw [h1 a (by omega), read_write_other _ _ (by omega)]
        · by_cases hak : a < k
          · exact h3 a hak
          · obtain rfl : a = k := by omega
            exact ⟨bit, by rw [h1 a (Nat.le_refl a), read_write_same]⟩

end Sys2Proof.Laws
end

