-- ==== Sys2Proof/Laws/State.lean ====
section
/-! SUPPORT. One lemma per field per named update of the state, each true by rfl, so that no later proof unfolds a record
update. -/

namespace Sys2Proof.Laws

open Sys2Proof.Machine

variable (s : State)

/-! ## respond -/

@[simp] theorem respond_cfg (d : BitVec 56) : (respond d s).cfg = s.cfg := rfl
@[simp] theorem respond_encState (d : BitVec 56) : (respond d s).encState = s.encState := rfl
@[simp] theorem respond_eflt (d : BitVec 56) : (respond d s).eflt = s.eflt := rfl
@[simp] theorem respond_dst (d : BitVec 56) : (respond d s).dst = s.dst := rfl
@[simp] theorem respond_n (d : BitVec 56) : (respond d s).n = s.n := rfl
@[simp] theorem respond_t (d : BitVec 56) : (respond d s).t = s.t := rfl
@[simp] theorem respond_ph (d : BitVec 56) : (respond d s).ph = s.ph := rfl
@[simp] theorem respond_ybuf (d : BitVec 56) : (respond d s).ybuf = s.ybuf := rfl
@[simp] theorem respond_pm (d : BitVec 56) : (respond d s).pm = s.pm := rfl
@[simp] theorem respond_sv (d : BitVec 56) : (respond d s).sv = s.sv := rfl
@[simp] theorem respond_dbuf (d : BitVec 56) : (respond d s).dbuf = s.dbuf := rfl
@[simp] theorem respond_errflags (d : BitVec 56) : (respond d s).errflags = s.errflags := rfl
@[simp] theorem respond_lasterr (d : BitVec 56) : (respond d s).lasterr = s.lasterr := rfl
@[simp] theorem respond_inputs (d : BitVec 56) : (respond d s).inputs = s.inputs := rfl
@[simp] theorem respond_rsp (d : BitVec 56) : (respond d s).rsp = some (okResponse d) := rfl
@[simp] theorem respond_cw (d : BitVec 56) : (respond d s).cw = none := rfl

/-! ## respondCw -/

@[simp] theorem respondCw_cfg (d : BitVec 56) (c : CwWord) : (respondCw d c s).cfg = s.cfg := rfl
@[simp] theorem respondCw_encState (d : BitVec 56) (c : CwWord) : (respondCw d c s).encState = s.encState := rfl
@[simp] theorem respondCw_eflt (d : BitVec 56) (c : CwWord) : (respondCw d c s).eflt = s.eflt := rfl
@[simp] theorem respondCw_dst (d : BitVec 56) (c : CwWord) : (respondCw d c s).dst = s.dst := rfl
@[simp] theorem respondCw_n (d : BitVec 56) (c : CwWord) : (respondCw d c s).n = s.n := rfl
@[simp] theorem respondCw_t (d : BitVec 56) (c : CwWord) : (respondCw d c s).t = s.t := rfl
@[simp] theorem respondCw_ph (d : BitVec 56) (c : CwWord) : (respondCw d c s).ph = s.ph := rfl
@[simp] theorem respondCw_ybuf (d : BitVec 56) (c : CwWord) : (respondCw d c s).ybuf = s.ybuf := rfl
@[simp] theorem respondCw_pm (d : BitVec 56) (c : CwWord) : (respondCw d c s).pm = s.pm := rfl
@[simp] theorem respondCw_sv (d : BitVec 56) (c : CwWord) : (respondCw d c s).sv = s.sv := rfl
@[simp] theorem respondCw_dbuf (d : BitVec 56) (c : CwWord) : (respondCw d c s).dbuf = s.dbuf := rfl
@[simp] theorem respondCw_errflags (d : BitVec 56) (c : CwWord) : (respondCw d c s).errflags = s.errflags := rfl
@[simp] theorem respondCw_lasterr (d : BitVec 56) (c : CwWord) : (respondCw d c s).lasterr = s.lasterr := rfl
@[simp] theorem respondCw_inputs (d : BitVec 56) (c : CwWord) : (respondCw d c s).inputs = s.inputs := rfl
@[simp] theorem respondCw_rsp (d : BitVec 56) (c : CwWord) : (respondCw d c s).rsp = some (okResponse d) := rfl
@[simp] theorem respondCw_cw (d : BitVec 56) (c : CwWord) : (respondCw d c s).cw = some c := rfl

/-! ## raise -/

@[simp] theorem raise_cfg (e : Err) : (raise e s).cfg = s.cfg := rfl
@[simp] theorem raise_encState (e : Err) : (raise e s).encState = s.encState := rfl
@[simp] theorem raise_eflt (e : Err) : (raise e s).eflt = s.eflt := rfl
@[simp] theorem raise_dst (e : Err) : (raise e s).dst = s.dst := rfl
@[simp] theorem raise_n (e : Err) : (raise e s).n = s.n := rfl
@[simp] theorem raise_t (e : Err) : (raise e s).t = s.t := rfl
@[simp] theorem raise_ph (e : Err) : (raise e s).ph = s.ph := rfl
@[simp] theorem raise_ybuf (e : Err) : (raise e s).ybuf = s.ybuf := rfl
@[simp] theorem raise_pm (e : Err) : (raise e s).pm = s.pm := rfl
@[simp] theorem raise_sv (e : Err) : (raise e s).sv = s.sv := rfl
@[simp] theorem raise_dbuf (e : Err) : (raise e s).dbuf = s.dbuf := rfl
@[simp] theorem raise_errflags (e : Err) : (raise e s).errflags = s.errflags ||| e.flag := rfl
@[simp] theorem raise_lasterr (e : Err) : (raise e s).lasterr = e.code := rfl
@[simp] theorem raise_inputs (e : Err) : (raise e s).inputs = s.inputs := rfl
@[simp] theorem raise_rsp (e : Err) : (raise e s).rsp = some (errResponse e) := rfl
@[simp] theorem raise_cw (e : Err) : (raise e s).cw = none := rfl

/-! ## resetRegs -/

@[simp] theorem resetRegs_cfg : (resetRegs s).cfg = s.cfg := rfl
@[simp] theorem resetRegs_encState : (resetRegs s).encState = 7 := rfl
@[simp] theorem resetRegs_eflt : (resetRegs s).eflt = false := rfl
@[simp] theorem resetRegs_dst : (resetRegs s).dst = .idle := rfl
@[simp] theorem resetRegs_n : (resetRegs s).n = 0 := rfl
@[simp] theorem resetRegs_t : (resetRegs s).t = 0 := rfl
@[simp] theorem resetRegs_ph : (resetRegs s).ph = 0 := rfl
@[simp] theorem resetRegs_ybuf : (resetRegs s).ybuf = s.ybuf := rfl
@[simp] theorem resetRegs_pm : (resetRegs s).pm = s.pm := rfl
@[simp] theorem resetRegs_sv : (resetRegs s).sv = s.sv := rfl
@[simp] theorem resetRegs_dbuf : (resetRegs s).dbuf = s.dbuf := rfl
@[simp] theorem resetRegs_errflags : (resetRegs s).errflags = 0 := rfl
@[simp] theorem resetRegs_lasterr : (resetRegs s).lasterr = 0 := rfl
@[simp] theorem resetRegs_inputs : (resetRegs s).inputs = s.inputs := rfl
@[simp] theorem resetRegs_rsp : (resetRegs s).rsp = s.rsp := rfl
@[simp] theorem resetRegs_cw : (resetRegs s).cw = s.cw := rfl

/-! ## hardwareReset -/

@[simp] theorem hardwareReset_cfg : (hardwareReset s).cfg = s.cfg := rfl
@[simp] theorem hardwareReset_encState : (hardwareReset s).encState = 7 := rfl
@[simp] theorem hardwareReset_eflt : (hardwareReset s).eflt = false := rfl
@[simp] theorem hardwareReset_dst : (hardwareReset s).dst = .idle := rfl
@[simp] theorem hardwareReset_n : (hardwareReset s).n = 0 := rfl
@[simp] theorem hardwareReset_t : (hardwareReset s).t = 0 := rfl
@[simp] theorem hardwareReset_ph : (hardwareReset s).ph = 0 := rfl
@[simp] theorem hardwareReset_ybuf : (hardwareReset s).ybuf = s.ybuf := rfl
@[simp] theorem hardwareReset_pm : (hardwareReset s).pm = s.pm := rfl
@[simp] theorem hardwareReset_sv : (hardwareReset s).sv = s.sv := rfl
@[simp] theorem hardwareReset_dbuf : (hardwareReset s).dbuf = s.dbuf := rfl
@[simp] theorem hardwareReset_errflags : (hardwareReset s).errflags = 0 := rfl
@[simp] theorem hardwareReset_lasterr : (hardwareReset s).lasterr = 0 := rfl
@[simp] theorem hardwareReset_inputs : (hardwareReset s).inputs = s.inputs := rfl
@[simp] theorem hardwareReset_rsp : (hardwareReset s).rsp = none := rfl
@[simp] theorem hardwareReset_cw : (hardwareReset s).cw = none := rfl

/-! ## clearErrors -/

@[simp] theorem clearErrors_cfg : (clearErrors s).cfg = s.cfg := rfl
@[simp] theorem clearErrors_encState : (clearErrors s).encState = s.encState := rfl
@[simp] theorem clearErrors_eflt : (clearErrors s).eflt = s.eflt := rfl
@[simp] theorem clearErrors_dst : (clearErrors s).dst = s.dst := rfl
@[simp] theorem clearErrors_n : (clearErrors s).n = s.n := rfl
@[simp] theorem clearErrors_t : (clearErrors s).t = s.t := rfl
@[simp] theorem clearErrors_ph : (clearErrors s).ph = s.ph := rfl
@[simp] theorem clearErrors_ybuf : (clearErrors s).ybuf = s.ybuf := rfl
@[simp] theorem clearErrors_pm : (clearErrors s).pm = s.pm := rfl
@[simp] theorem clearErrors_sv : (clearErrors s).sv = s.sv := rfl
@[simp] theorem clearErrors_dbuf : (clearErrors s).dbuf = s.dbuf := rfl
@[simp] theorem clearErrors_errflags : (clearErrors s).errflags = 0 := rfl
@[simp] theorem clearErrors_lasterr : (clearErrors s).lasterr = 0 := rfl
@[simp] theorem clearErrors_inputs : (clearErrors s).inputs = s.inputs := rfl
@[simp] theorem clearErrors_rsp : (clearErrors s).rsp = s.rsp := rfl
@[simp] theorem clearErrors_cw : (clearErrors s).cw = s.cw := rfl

/-! ## abandonFrame -/

@[simp] theorem abandonFrame_cfg : (abandonFrame s).cfg = s.cfg := rfl
@[simp] theorem abandonFrame_encState : (abandonFrame s).encState = s.encState := rfl
@[simp] theorem abandonFrame_eflt : (abandonFrame s).eflt = s.eflt := rfl
@[simp] theorem abandonFrame_dst : (abandonFrame s).dst = .idle := rfl
@[simp] theorem abandonFrame_n : (abandonFrame s).n = 0 := rfl
@[simp] theorem abandonFrame_t : (abandonFrame s).t = 0 := rfl
@[simp] theorem abandonFrame_ph : (abandonFrame s).ph = 0 := rfl
@[simp] theorem abandonFrame_ybuf : (abandonFrame s).ybuf = s.ybuf := rfl
@[simp] theorem abandonFrame_pm : (abandonFrame s).pm = s.pm := rfl
@[simp] theorem abandonFrame_sv : (abandonFrame s).sv = s.sv := rfl
@[simp] theorem abandonFrame_dbuf : (abandonFrame s).dbuf = s.dbuf := rfl
@[simp] theorem abandonFrame_errflags : (abandonFrame s).errflags = s.errflags := rfl
@[simp] theorem abandonFrame_lasterr : (abandonFrame s).lasterr = s.lasterr := rfl
@[simp] theorem abandonFrame_inputs : (abandonFrame s).inputs = s.inputs := rfl
@[simp] theorem abandonFrame_rsp : (abandonFrame s).rsp = s.rsp := rfl
@[simp] theorem abandonFrame_cw : (abandonFrame s).cw = s.cw := rfl

/-! ## idle -/

@[simp] theorem idle_cfg : (idle s).cfg = s.cfg := rfl
@[simp] theorem idle_encState : (idle s).encState = s.encState := rfl
@[simp] theorem idle_eflt : (idle s).eflt = s.eflt := rfl
@[simp] theorem idle_dst : (idle s).dst = s.dst := rfl
@[simp] theorem idle_n : (idle s).n = s.n := rfl
@[simp] theorem idle_t : (idle s).t = s.t := rfl
@[simp] theorem idle_ph : (idle s).ph = s.ph := rfl
@[simp] theorem idle_ybuf : (idle s).ybuf = s.ybuf := rfl
@[simp] theorem idle_pm : (idle s).pm = s.pm := rfl
@[simp] theorem idle_sv : (idle s).sv = s.sv := rfl
@[simp] theorem idle_dbuf : (idle s).dbuf = s.dbuf := rfl
@[simp] theorem idle_errflags : (idle s).errflags = s.errflags := rfl
@[simp] theorem idle_lasterr : (idle s).lasterr = s.lasterr := rfl
@[simp] theorem idle_inputs : (idle s).inputs = s.inputs := rfl
@[simp] theorem idle_rsp : (idle s).rsp = none := rfl
@[simp] theorem idle_cw : (idle s).cw = none := rfl

/-! ## placeCommand -/

@[simp] theorem placeCommand_cfg (w : Word) : (placeCommand s w).cfg = s.cfg := rfl
@[simp] theorem placeCommand_encState (w : Word) : (placeCommand s w).encState = s.encState := rfl
@[simp] theorem placeCommand_eflt (w : Word) : (placeCommand s w).eflt = s.eflt := rfl
@[simp] theorem placeCommand_dst (w : Word) : (placeCommand s w).dst = s.dst := rfl
@[simp] theorem placeCommand_n (w : Word) : (placeCommand s w).n = s.n := rfl
@[simp] theorem placeCommand_t (w : Word) : (placeCommand s w).t = s.t := rfl
@[simp] theorem placeCommand_ph (w : Word) : (placeCommand s w).ph = s.ph := rfl
@[simp] theorem placeCommand_ybuf (w : Word) : (placeCommand s w).ybuf = s.ybuf := rfl
@[simp] theorem placeCommand_pm (w : Word) : (placeCommand s w).pm = s.pm := rfl
@[simp] theorem placeCommand_sv (w : Word) : (placeCommand s w).sv = s.sv := rfl
@[simp] theorem placeCommand_dbuf (w : Word) : (placeCommand s w).dbuf = s.dbuf := rfl
@[simp] theorem placeCommand_errflags (w : Word) : (placeCommand s w).errflags = s.errflags := rfl
@[simp] theorem placeCommand_lasterr (w : Word) : (placeCommand s w).lasterr = s.lasterr := rfl
@[simp] theorem placeCommand_inputs (w : Word) : (placeCommand s w).inputs = .command w :: s.inputs := rfl
@[simp] theorem placeCommand_rsp (w : Word) : (placeCommand s w).rsp = s.rsp := rfl
@[simp] theorem placeCommand_cw (w : Word) : (placeCommand s w).cw = s.cw := rfl

end Sys2Proof.Laws
end

