-- ==== Sys2Proof/Laws/Cases.lean ====
section
/-! SUPPORT. One inversion lemma per meaning that branches, and one for the step: when it answers a next state, which. The
provers cite these instead of unfolding a meaning. -/

namespace Sys2Proof.Laws

open Sys2Proof.Machine

variable {s t : State}

theorem answer_next {d : BitVec 56} (h : answer d s = .next t) : t = respond d s := by
  simpa [answer, eq_comm] using h

theorem fail_next {e : Err} (h : fail e s = .next t) : t = raise e s := by
  simpa [fail, eq_comm] using h

theorem execB2s_cases {b : BitVec 24} (h : execB2s b s = .next t) :
    (1 < b.toNat ∧ t = raise .bit s) ∨
    (∃ u, asBit b = some u ∧ b.toNat ≤ 1 ∧ t = respond (zext56 (sym2sample (b2s u))) s) := by
  rcases Nat.lt_or_ge 1 b.toNat with hb | hb
  · rw [execB2s, asBit_of_gt hb] at h
    exact .inl ⟨hb, fail_next h⟩
  · rw [execB2s, asBit_of_le hb] at h
    exact .inr ⟨_, asBit_of_le hb, hb, answer_next h⟩

theorem execTrans_cases {q b : BitVec 8} (h : execTrans q b s = .next t) :
    (7 < q.toNat ∧ t = raise .idx s) ∨
    (q.toNat ≤ 7 ∧ 1 < b.toNat ∧ t = raise .bit s) ∨
    (∃ i u, asIdx q = some i ∧ asBit b = some u ∧ t = respond (transition i u).data s) := by
  rcases Nat.lt_or_ge 7 q.toNat with hq | hq
  · rw [execTrans, asIdx_of_gt hq] at h
    exact .inl ⟨hq, fail_next h⟩
  · rcases Nat.lt_or_ge 1 b.toNat with hb | hb
    · rw [execTrans, asIdx_of_le hq, asBit_of_gt hb] at h
      exact .inr (.inl ⟨hq, hb, fail_next h⟩)
    · rw [execTrans, asIdx_of_le hq, asBit_of_le hb] at h
      exact .inr (.inr ⟨_, _, asIdx_of_le hq, asBit_of_le hb, answer_next h⟩)

theorem execEbit_cases {b : BitVec 24} (h : execEbit b s = .next t) :
    (s.eflt = true ∧ t = raise .seq s) ∨
    (s.eflt = false ∧ 1 < b.toNat ∧ t = raise .bit { s with eflt := true }) ∨
    (s.eflt = false ∧ b.toNat ≤ 1 ∧ ∃ u, asBit b = some u ∧
      t = respondCw (transition s.encState u).data (transition s.encState u).samples
        { s with encState := (transition s.encState u).next }) := by
  rw [execEbit] at h
  split at h
  · next he => exact .inl ⟨he, fail_next h⟩
  · next he =>
    have he' : s.eflt = false := by simpa using he
    rcases Nat.lt_or_ge 1 b.toNat with hb | hb
    · rw [asBit_of_gt hb] at h
      exact .inr (.inl ⟨he', hb, fail_next h⟩)
    · rw [asBit_of_le hb] at h
      exact .inr (.inr ⟨he', hb, _, asBit_of_le hb, by simpa [eq_comm] using h⟩)

theorem execDstart_cases {len : BitVec 24} (h : execDstart len s = .next t) :
    ((len.toNat = 0 ∨ len.toNat % 4 ≠ 0) ∧ t = raise .len (abandonFrame s)) ∨
    (len.toNat ≠ 0 ∧ len.toNat % 4 = 0 ∧ s.cfg.nMax < len.toNat / 4 ∧ t = raise .cap (abandonFrame s)) ∨
    (len.toNat ≠ 0 ∧ len.toNat % 4 = 0 ∧ len.toNat / 4 ≤ s.cfg.nMax ∧
      t = respond (zext56 (BitVec.ofNat 16 (len.toNat / 4)))
        { s with n := BitVec.ofNat 16 (len.toNat / 4), t := 0, ph := 0, pm := column0, dst := .run }) := by
  rw [execDstart] at h
  split at h
  · next hl => exact .inl ⟨hl, fail_next h⟩
  · next hl =>
    have hl' : len.toNat ≠ 0 ∧ len.toNat % 4 = 0 := by omega
    split at h
    · next hc => exact .inr (.inl ⟨hl'.1, hl'.2, hc, fail_next h⟩)
    · next hc => exact .inr (.inr ⟨hl'.1, hl'.2, Nat.le_of_not_lt hc, answer_next h⟩)

/-- The state a completed time step leaves, `sv'` being the memory after the row is written. -/
def steppedState (y : Sample) (s : State) (sv' : Memory 5) : State :=
  respond (dsampData true 0 (s.t + 1))
    { s with pm := stepColumn s.pm (heldGroup s y), sv := sv', t := s.t + 1, ph := 0 }

theorem execDsamp_cases {y : Sample} (h : execDsamp y s = .next t) :
    ((s.dst ≠ .run ∨ s.t = s.n) ∧ t = raise .seq s) ∨
    (s.dst = .run ∧ s.t ≠ s.n ∧ s.ph.toNat < 3 ∧
      t = respond (dsampData false (s.ph + 1) s.t)
        { s with ybuf := s.ybuf.setIfInBounds s.ph.toNat y, ph := s.ph + 1 }) ∨
    (s.dst = .run ∧ s.t ≠ s.n ∧ s.ph = 3#2 ∧
      ∃ sv', svWriteRow s.cfg s.sv (s.t.toNat + 1) (stepRow s.pm (heldGroup s y)) = .ok sv' ∧
        t = steppedState y s sv') := by
  rw [execDsamp] at h
  split at h
  · next hs => exact .inl ⟨hs, fail_next h⟩
  · next hs =>
    rw [not_or, not_not] at hs
    split at h
    · next hp => exact .inr (.inl ⟨hs.1, hs.2, hp, answer_next h⟩)
    · next hp =>
      have hp' : s.ph = 3#2 := by
        apply BitVec.eq_of_toNat_eq
        have := s.ph.isLt
        simp only [BitVec.toNat_ofNat]
        omega
      simp only [completeStep] at h
      split at h
      · exact absurd h (by simp)
      · next sv' hw => exact .inr (.inr ⟨hs.1, hs.2, hp', sv', hw, answer_next h⟩)

theorem execDterm_cases (h : execDterm s = .next t) :
    ((s.dst ≠ .run ∨ s.t ≠ s.n) ∧ t = raise .seq s) ∨
    (s.dst = .run ∧ s.t = s.n ∧ ∃ db, traceback s.cfg s.sv s.n.toNat (term s.pm) s.dbuf = .ok db ∧
      t = respond (dtermData (at8 s.pm (term s.pm)) (term s.pm)) { s with dbuf := db, dst := .done }) := by
  rw [execDterm] at h
  split at h
  · next hs => exact .inl ⟨hs, fail_next h⟩
  · next hs =>
    rw [not_or, not_not, not_not] at hs
    split at h
    · exact absurd h (by simp)
    · next db hd => exact .inr ⟨hs.1, hs.2, db, hd, answer_next h⟩

theorem execDrd_cases {k : BitVec 16} (h : execDrd k s = .next t) :
    (s.dst ≠ .done ∧ t = raise .seq s) ∨
    (s.dst = .done ∧ s.n.toNat ≤ k.toNat ∧ t = raise .idx s) ∨
    (s.dst = .done ∧ k.toNat < s.n.toNat ∧ ∃ b, dbRead s.cfg s.dbuf k.toNat = .ok b ∧ t = respond (zext56 b) s) := by
  rw [execDrd] at h
  split at h
  · next hs => exact .inl ⟨hs, fail_next h⟩
  · next hs =>
    rw [not_not] at hs
    split at h
    · next hk => exact .inr (.inl ⟨hs, hk, fail_next h⟩)
    · next hk =>
      split at h
      · exact absurd h (by simp)
      · next b hb => exact .inr (.inr ⟨hs, Nat.lt_of_not_le hk, b, hb, answer_next h⟩)

theorem execRdpm_cases {i : Idx} (h : execRdpm i s = .next t) :
    (s.dst = .idle ∧ t = raise .seq s) ∨ (s.dst ≠ .idle ∧ t = respond (rdpmData (at8 s.pm i)) s) := by
  rw [execRdpm] at h
  split at h
  · next hs => exact .inl ⟨hs, fail_next h⟩
  · next hs => exact .inr ⟨hs, answer_next h⟩

theorem execRdsv_cases {tt : BitVec 16} {i : Idx} (h : execRdsv tt i s = .next t) :
    (s.dst = .idle ∧ t = raise .seq s) ∨
    (s.dst ≠ .idle ∧ (tt.toNat < 1 ∨ s.t.toNat < tt.toNat) ∧ t = raise .idx s) ∨
    (s.dst ≠ .idle ∧ 1 ≤ tt.toNat ∧ tt.toNat ≤ s.t.toNat ∧ ∃ e, svRead s.cfg s.sv tt.toNat i = .ok e ∧
      t = respond (zext56 e) s) := by
  rw [execRdsv] at h
  split at h
  · next hs => exact .inl ⟨hs, fail_next h⟩
  · next hs =>
    split at h
    · next hk => exact .inr (.inl ⟨hs, hk, fail_next h⟩)
    · next hk =>
      split at h
      · exact absurd h (by simp)
      · next e he => exact .inr (.inr ⟨hs, by omega, by omega, e, he, answer_next h⟩)

/-- Everything a step can be: idle, the reset input, a command, or an illegal word. -/
theorem step_cases (s : State) :
    (s.inputs = [] ∧ step s = .next (idle s)) ∨
    (∃ rest, s.inputs = .resetInput :: rest ∧ step s = .next (hardwareReset { s with inputs := rest })) ∨
    (∃ w rest i, s.inputs = .command w :: rest ∧ decode w = .ok i ∧ step s = exec i { s with inputs := rest }) ∨
    (∃ w rest e, s.inputs = .command w :: rest ∧ decode w = .error e ∧
      step s = .next (raise .op { s with inputs := rest })) := by
  simp only [step, nextInput]
  cases hin : s.inputs with
  | nil => exact .inl ⟨rfl, rfl⟩
  | cons h rest =>
    cases h with
    | resetInput => exact .inr (.inl ⟨rest, rfl, rfl⟩)
    | command w =>
      cases hd : decode w with
      | ok i => exact .inr (.inr (.inl ⟨w, rest, i, rfl, hd, by simp only [hd]⟩))
      | error e => exact .inr (.inr (.inr ⟨w, rest, e, rfl, hd, by simp only [hd]; rfl⟩))

end Sys2Proof.Laws
end

