-- ==== Sys2Proof/Laws/PerInstr.lean ====
section
/-! SUPPORT. Per-instruction laws of the syntax: the opcode and operand field the encoder writes select the instruction
again, and its written form is within the ranges of 30_encoding R93. -/

namespace Sys2Proof.Laws.Fields

open Sys2Proof.Laws

/-- The fields of an instruction decode to it, and it is well formed. -/
def Statement (i : Instr) : Prop := decodeFields i.op i.imm = .ok i ∧ i.wellFormed = true

theorem nop : Statement .nop := ⟨rfl, rfl⟩
theorem reset : Statement .reset := ⟨rfl, rfl⟩
theorem rdstat : Statement .rdstat := ⟨rfl, rfl⟩
theorem clrerr : Statement .clrerr := ⟨rfl, rfl⟩
theorem estart : Statement .estart := ⟨rfl, rfl⟩
theorem dterm : Statement .dterm := ⟨rfl, rfl⟩

theorem b2s (bitv : BitVec 24) : Statement (.b2s bitv) := by
  refine ⟨rfl, ?_⟩
  have := bitv.isLt
  simp only [Instr.wellFormed, Instr.written, Written.wellFormed, decide_eq_true_eq]
  omega

theorem ebit (bitv : BitVec 24) : Statement (.ebit bitv) := by
  refine ⟨rfl, ?_⟩
  have := bitv.isLt
  simp only [Instr.wellFormed, Instr.written, Written.wellFormed, decide_eq_true_eq]
  omega

theorem dstart (len : BitVec 24) : Statement (.dstart len) := by
  refine ⟨rfl, ?_⟩
  have := len.isLt
  simp only [Instr.wellFormed, Instr.written, Written.wellFormed, decide_eq_true_eq]
  omega

/-- A 16-bit operand under eight reserved bits. -/
theorem formatS_append (op : BitVec 8) (v : BitVec 16) (f : BitVec 16 → Instr) :
    formatS op (0#8 ++ v) f = .ok (f v) := by
  rw [formatS, if_pos (slice_append_hi 0#8 v), slice_append_lo]

theorem sample_wellFormed (y : Sample) : (SampleOperand.raw y.toInt).wellFormed = true := by
  have h1 := BitVec.le_toInt y
  have h2 := BitVec.toInt_lt (x := y)
  simp only [SampleOperand.wellFormed, decide_eq_true_eq]
  omega

theorem s2b (samp : Sample) : Statement (.s2b samp) := ⟨formatS_append _ _ _, sample_wellFormed samp⟩

theorem dsamp (samp : Sample) : Statement (.dsamp samp) := ⟨formatS_append _ _ _, sample_wellFormed samp⟩

theorem drd (k : BitVec 16) : Statement (.drd k) := by
  refine ⟨formatS_append _ _ _, ?_⟩
  have := k.isLt
  simp only [Instr.wellFormed, Instr.written, Written.wellFormed, decide_eq_true_eq]
  omega

theorem trans (stv bitv8 : BitVec 8) : Statement (.trans stv bitv8) := by
  have hs := stv.isLt
  have hb := bitv8.isLt
  constructor
  · have h1 : (0#8 ++ stv ++ bitv8).extractLsb' 16 8 = 0#8 := by
      apply BitVec.eq_of_toNat_eq
      simp only [toNat_slice, toNat_append_add, BitVec.toNat_ofNat]
      omega
    have h2 : (0#8 ++ stv ++ bitv8).extractLsb' 8 8 = stv := by
      apply BitVec.eq_of_toNat_eq
      simp only [toNat_slice, toNat_append_add, BitVec.toNat_ofNat]
      omega
    have h3 : (0#8 ++ stv ++ bitv8).extractLsb' 0 8 = bitv8 := slice_append_lo _ _
    show formatT 0x18#8 (0#8 ++ stv ++ bitv8) .trans = _
    simp only [formatT]
    rw [if_pos h1, h2, h3]
  · simp only [Instr.wellFormed, Instr.written, Written.wellFormed, Bool.and_eq_true, decide_eq_true_eq]
    omega

theorem rdpm (si : Idx) : Statement (.rdpm si) := by
  constructor
  · have h1 : (0#21 ++ si).extractLsb' 3 21 = 0#21 := slice_append_hi _ _
    have h2 : (0#21 ++ si).extractLsb' 0 3 = si := slice_append_lo _ _
    show formatP 0x38#8 (0#21 ++ si) .rdpm = _
    simp only [formatP]
    rw [if_pos h1, h2]
  · have := si.isLt
    simp only [Instr.wellFormed, Instr.written, Written.wellFormed, decide_eq_true_eq]
    omega

theorem rdsv (tt : BitVec 16) (si : Idx) : Statement (.rdsv tt si) := by
  have ht := tt.isLt
  have hi := si.isLt
  constructor
  · have h1 : (0#5 ++ tt ++ si).extractLsb' 19 5 = 0#5 := by
      apply BitVec.eq_of_toNat_eq
      simp only [toNat_slice, toNat_append_add, BitVec.toNat_ofNat]
      omega
    have h2 : (0#5 ++ tt ++ si).extractLsb' 3 16 = tt := by
      apply BitVec.eq_of_toNat_eq
      simp only [toNat_slice, toNat_append_add, BitVec.toNat_ofNat]
      omega
    have h3 : (0#5 ++ tt ++ si).extractLsb' 0 3 = si := slice_append_lo _ _
    show formatV 0x39#8 (0#5 ++ tt ++ si) .rdsv = _
    simp only [formatV]
    rw [if_pos h1, h2, h3]
  · simp only [Instr.wellFormed, Instr.written, Written.wellFormed, Bool.and_eq_true, decide_eq_true_eq]
    omega

end Sys2Proof.Laws.Fields
end

