-- ==== Sys2Proof/Laws/Sequences.lean ====
section
/-! SUPPORT. The macros' words: when every written command of an expansion has one, and which (30_encoding R93 to R96). -/

namespace Sys2Proof.Laws

open Sys2Proof.Machine

@[simp] theorem assembleAll_nil : assembleAll [] = some [] := rfl

theorem assembleAll_cons_some {x : Written} {xs : List Written} {i : Instr} {ws : List Word} (hx : x.assemble = some i)
    (hxs : assembleAll xs = some ws) : assembleAll (x :: xs) = some (encode i :: ws) := by
  simp [assembleAll, hx, hxs]

theorem assembleAll_append {xs ys : List Written} {us vs : List Word} (hx : assembleAll xs = some us)
    (hy : assembleAll ys = some vs) : assembleAll (xs ++ ys) = some (us ++ vs) := by
  induction xs generalizing us with
  | nil => simp only [assembleAll, Option.some.injEq] at hx; subst hx; simpa using hy
  | cons x xs ih =>
    simp only [assembleAll] at hx
    split at hx
    · next i ws hi hws =>
      simp only [Option.some.injEq] at hx
      subst hx
      exact assembleAll_cons_some hi (ih hws)
    · exact absurd hx (by simp)
    · exact absurd hx (by simp)

/-- The words of a mapped list, when every element has the command `g` gives it. -/
theorem assembleAll_map {α : Type} (f : α → Written) (g : α → Instr) (as : List α)
    (h : ∀ a ∈ as, (f a).assemble = some (g a)) : assembleAll (as.map f) = some ((as.map g).map encode) := by
  induction as with
  | nil => rfl
  | cons a as ih =>
    exact assembleAll_cons_some (h a List.mem_cons_self) (ih fun b hb => h b (List.mem_cons_of_mem _ hb))

theorem assemble_ebit {b : Nat} (h : b ≤ 16777215) : (Written.ebit b).assemble = some (.ebit (BitVec.ofNat 24 b)) := by
  simp [Written.assemble, Written.wellFormed, Written.cut, h]

theorem assemble_dstart {len : Nat} (h : len ≤ 16777215) :
    (Written.dstart len).assemble = some (.dstart (BitVec.ofNat 24 len)) := by
  simp [Written.assemble, Written.wellFormed, Written.cut, h]

theorem assemble_dsamp (y : Sample) : (Written.dsamp (.raw y.toInt)).assemble = some (.dsamp y) := by
  have h : (Instr.dsamp y).wellFormed = true := (Fields.dsamp y).2
  rw [Instr.wellFormed, Instr.written] at h
  simp [Written.assemble, h, Written.cut, SampleOperand.bits]

theorem assemble_drd {k : Nat} (h : k ≤ 65535) : (Written.drd k).assemble = some (.drd (BitVec.ofNat 16 k)) := by
  simp [Written.assemble, Written.wellFormed, Written.cut, h]

/-- The words of `ENCODE` for Bits: all exist. -/
theorem assembleAll_encodeCommands (us : List Bit) :
    assembleAll (encodeCommands (us.map BitVec.toNat)) =
      some (encode .estart :: (us.map (fun u => Instr.ebit (u.setWidth 24))).map encode) := by
  refine assembleAll_cons_some (by decide) ?_
  rw [List.map_map]
  refine assembleAll_map _ _ _ fun u hu => ?_
  clear hu
  revert u
  decide

/-- The words of `DECODE` for a frame no longer than the largest one a platform takes: all exist. -/
theorem assembleAll_decodeCommands (ys : List Sample) (h : ys.length / 4 ≤ 65535) :
    assembleAll (decodeCommands ys) =
      some ((Instr.dstart (BitVec.ofNat 24 ys.length) :: ys.map Instr.dsamp ++ Instr.dterm ::
        (List.range (ys.length / 4)).map (fun k => Instr.drd (BitVec.ofNat 16 k))).map encode) := by
  rw [decodeCommands, List.map_append, List.map_cons, List.map_cons, List.cons_append, List.cons_append]
  refine assembleAll_cons_some (assemble_dstart (by omega)) (assembleAll_append ?_ (assembleAll_cons_some (by decide) ?_))
  · exact assembleAll_map _ _ _ fun y _ => assemble_dsamp y
  · refine assembleAll_map _ _ _ fun k hk => assemble_drd ?_
    have := List.mem_range.1 hk
    omega

/-- A `DECODE` of more samples than `DSTART` can name has no words: it is refused, not cut (log 19). -/
theorem assembleAll_decodeCommands_refused (ys : List Sample) (h : 16777215 < ys.length) :
    assembleAll (decodeCommands ys) = none := by
  have hn : (Written.dstart ys.length).assemble = none := by
    simp [Written.assemble, Written.wellFormed]; omega
  simp [decodeCommands, assembleAll, hn]

end Sys2Proof.Laws
end

