-- ==== Sys2Proof/Laws/Trellis.lean ====
section
/-! SUPPORT. The structure of the trellis (41_trellis_model R125, R127) and the spec lemmas of metrics and of add, compare,
select (43_viterbi_forward R159, R160). -/

namespace Sys2Proof.Laws

open Sys2Proof.Machine

/-! ## Structure -/

/-- The transitions into `ns` are those from its two predecessors with its own input bit. -/
theorem transition_next_iff (p : Idx) (u : Bit) (ns : Idx) :
    (transition p u).next = ns ↔ (p = pred0 ns ∨ p = pred1 ns) ∧ u = inputBit ns := by
  revert p u ns; decide

theorem transition_pred0 (ns : Idx) : (transition (pred0 ns) (inputBit ns)).next = ns := by revert ns; decide

theorem transition_pred1 (ns : Idx) : (transition (pred1 ns) (inputBit ns)).next = ns := by revert ns; decide

theorem pred0_lt_pred1 (ns : Idx) : (pred0 ns).toNat < (pred1 ns).toNat := by revert ns; decide

theorem pred0_mod (ns : Idx) : (pred0 ns).toNat % 4 = ns.toNat / 2 := by revert ns; decide

theorem pred1_mod (ns : Idx) : (pred1 ns).toNat % 4 = ns.toNat / 2 := by revert ns; decide

theorem inputBit_next (p : Idx) (u : Bit) : inputBit (transition p u).next = u := by revert p u; decide

theorem idx_ofIdx (i : Idx) : (Trellis.ofIdx i).idx = i := by revert i; decide

theorem ofIdx_idx (q : Trellis) : Trellis.ofIdx q.idx = q := by
  obtain ⟨a, b, c⟩ := q
  cases a <;> cases b <;> cases c <;> decide

/-! ## Metrics -/

@[simp] theorem inf_add (b : Nat) : Metric.add .inf b = .inf := rfl
@[simp] theorem fin_add (m b : Nat) : Metric.add (.fin m) b = .fin (m + b) := rfl
@[simp] theorem inf_lt (x : Metric) : Metric.lt .inf x = false := by cases x <;> rfl
@[simp] theorem fin_lt_inf (m : Nat) : Metric.lt (.fin m) .inf = true := rfl
@[simp] theorem fin_lt_fin (m k : Nat) : Metric.lt (.fin m) (.fin k) = decide (m < k) := rfl

theorem add_eq_inf {x : Metric} {b : Nat} : x.add b = .inf ↔ x = .inf := by cases x <;> simp

theorem add_eq_fin {x : Metric} {b m : Nat} : x.add b = .fin m ↔ ∃ k, x = .fin k ∧ k + b = m := by cases x <;> simp

theorem isInf_iff {x : Metric} : x.isInf = true ↔ x = .inf := by cases x <;> simp [Metric.isInf]

/-! ## Add, compare, select -/

/-- Everything one lane can answer (43_viterbi_forward R159). -/
theorem acs_cases (old : Vector Metric 8) (g : Group) (ns : Idx) :
    (acs old g ns = (.inf, none) ∧ at8 old (pred0 ns) = .inf ∧ at8 old (pred1 ns) = .inf) ∨
    (∃ x, at8 old (pred1 ns) = .fin x ∧
      acs old g ns = (.fin (x + branchMetric (pred1 ns) (inputBit ns) g), some (pred1 ns, inputBit ns)) ∧
      ∀ y, at8 old (pred0 ns) = .fin y →
        x + branchMetric (pred1 ns) (inputBit ns) g < y + branchMetric (pred0 ns) (inputBit ns) g) ∨
    (∃ x, at8 old (pred0 ns) = .fin x ∧
      acs old g ns = (.fin (x + branchMetric (pred0 ns) (inputBit ns) g), some (pred0 ns, inputBit ns)) ∧
      ∀ y, at8 old (pred1 ns) = .fin y →
        x + branchMetric (pred0 ns) (inputBit ns) g ≤ y + branchMetric (pred1 ns) (inputBit ns) g) := by
  cases h0 : at8 old (pred0 ns) with
  | inf =>
    cases h1 : at8 old (pred1 ns) with
    | inf => exact .inl ⟨by simp [acs, candidate, h0, h1], rfl, rfl⟩
    | fin x => exact .inr (.inl ⟨x, rfl, by simp [acs, candidate, h0, h1], by simp⟩)
  | fin y =>
    cases h1 : at8 old (pred1 ns) with
    | inf => exact .inr (.inr ⟨y, rfl, by simp [acs, candidate, h0, h1], by simp⟩)
    | fin x =>
      by_cases hlt : x + branchMetric (pred1 ns) (inputBit ns) g < y + branchMetric (pred0 ns) (inputBit ns) g
      · refine .inr (.inl ⟨x, rfl, by simp [acs, candidate, h0, h1, hlt], ?_⟩)
        rintro z hz
        cases hz
        exact hlt
      · refine .inr (.inr ⟨y, rfl, by simp [acs, candidate, h0, h1, hlt], ?_⟩)
        rintro z hz
        cases hz
        exact Nat.le_of_not_lt hlt

@[simp] theorem at8_stepColumn (old : Vector Metric 8) (g : Group) (ns : Idx) :
    at8 (stepColumn old g) ns = (acs old g ns).1 := at8_byState _ ns

@[simp] theorem at8_stepRow (old : Vector Metric 8) (g : Group) (ns : Idx) :
    at8 (stepRow old g) ns = (acs old g ns).2 := at8_byState _ ns

@[simp] theorem at8_column0 (i : Idx) : at8 column0 i = if i = 7#3 then .fin 0 else .inf := at8_byState _ i

end Sys2Proof.Laws
end

