-- ==== Sys2Proof/Tests/Slice0.lean ====
section
/-! SUPPORT. The model's own tests, each expected value from a worked example or a vector of the spec, and a witness for the
hypotheses of every obligation that has some. -/

namespace Sys2Proof.Tests

open Sys2Proof Sys2Proof.Machine

/-! ## Written forms outside the ranges of R93 are refused -/

theorem illFormed_b2s : (Written.b2s 16777216).assemble = none := by decide
theorem illFormed_ebit : (Written.ebit 16777216).assemble = none := by decide
theorem illFormed_s2b_high : (Written.s2b (.raw 32768)).assemble = none := by decide
theorem illFormed_s2b_low : (Written.s2b (.raw (-32769))).assemble = none := by decide
theorem illFormed_s2b_pattern : (Written.s2b (.pattern 65536)).assemble = none := by decide
theorem illFormed_dsamp_high : (Written.dsamp (.raw 32768)).assemble = none := by decide
theorem illFormed_dsamp_low : (Written.dsamp (.raw (-32769))).assemble = none := by decide
theorem illFormed_dsamp_pattern : (Written.dsamp (.pattern 65536)).assemble = none := by decide
theorem illFormed_trans_state : (Written.trans 256 0).assemble = none := by decide
theorem illFormed_trans_bit : (Written.trans 0 256).assemble = none := by decide
theorem illFormed_dstart : (Written.dstart 16777216).assemble = none := by decide
theorem illFormed_drd : (Written.drd 65536).assemble = none := by decide
theorem illFormed_rdpm : (Written.rdpm 8).assemble = none := by decide
theorem illFormed_rdsv_step : (Written.rdsv 65536 0).assemble = none := by decide
theorem illFormed_rdsv_state : (Written.rdsv 0 8).assemble = none := by decide

/-! ## Words written out bit by bit from R81 and R83 -/

theorem decodes_system : decode 0b00000010_000000000000000000000000#32 = .ok .rdstat := by decide
theorem decodes_mapper : decode 0b00010001_00000000_1111111100000000#32 = .ok (.s2b (-256)) := by decide
theorem decodes_trellis : decode 0b00011000_00000000_00000101_00000001#32 = .ok (.trans 5 1) := by decide
theorem decodes_encoder : decode 0b00100001_000000000000000000000010#32 = .ok (.ebit 2) := by decide
theorem decodes_decoder : decode 0b00110000_000000000000000000100000#32 = .ok (.dstart 32) := by decide
theorem decodes_inspection : decode 0b00111001_00000_0000000000000010_110#32 = .ok (.rdsv 2 6) := by decide

/-! ## Small states -/

/-- The reset state of a platform with two rows. -/
def small : State := State.resetOn { nMax := 2 }

/-- The state a result holds. -/
def after (r : Result) : State :=
  match r with
  | .next t => t
  | .fault _ => small
  | .refused _ => small

/-- The state a run from `small` ends in. -/
def afterWords (ws : List Word) : State :=
  match runWords ws small with
  | some (_, t) => t
  | none => small

/-- What one command puts on the ports. -/
def ports (s : State) (w : Word) : Option RspWord × Option CwWord :=
  ((after (issue s w)).rsp, (after (issue s w)).cw)

/-- The result is a next state. -/
def done (r : Result) : Bool :=
  match r with
  | .next _ => true
  | .fault _ => false
  | .refused _ => false

/-- What `done` says: the hypothesis of a statement about a next state is met by `after`. -/
theorem next_of_done {r : Result} (h : done r = true) : r = .next (after r) := by
  cases r with
  | next t => rfl
  | fault f => exact absurd h (by simp [done])
  | refused f => exact absurd h (by simp [done])

/-- A frame of one bit, nothing delivered yet. -/
def started : State := afterWords [0x30000004]

/-- The same frame with three samples −256 held. -/
def held : State := afterWords [0x30000004, 0x3100FF00, 0x3100FF00, 0x3100FF00]

/-- The same frame after its one time step (43_viterbi_forward R172). -/
def stepped : State := afterWords [0x30000004, 0x3100FF00, 0x3100FF00, 0x3100FF00, 0x3100FF00]

/-- The codeword of the bits 0, 1 (42_convolutional_encoder R147, steps 0 and 1) delivered in full. -/
def complete : State :=
  afterWords [0x30000008, 0x3100FF00, 0x3100FF00, 0x3100FF00, 0x3100FF00, 0x31000100, 0x3100FF00, 0x3100FF00, 0x31000100]

/-- The same frame decoded. -/
def finished : State := after (issue complete 0x32000000)

/-- An encode that has failed. -/
def failed : State := afterWords [0x20000000, 0x21000002]

/-! ## One or two single steps per command -/

/-- R205: a `NOP` between the samples of a group does not disturb them. -/
theorem test_nop_in_group :
    ports held 0x00000000 = (some 0, none) ∧ (after (issue held 0x00000000)).ph = 3 ∧
      (after (issue held 0x00000000)).ybuf = held.ybuf := by decide

/-- R206: a finished decode is abandoned; the metrics stay. -/
theorem test_reset_abandons :
    (after (issue finished 0x01000000)).dst = .idle ∧ (after (issue finished 0x01000000)).n = 0 ∧
      (after (issue finished 0x01000000)).pm = finished.pm := by decide

/-- The first example of R207 with samples held: `n = 8`, `t = 1`, `ph = 1`, `dst = RUN`. -/
theorem test_rdstat_running :
    ports { small with dst := .run, n := 8, t := 1, ph := 1 } 0x02000000 = (some 0x0000080001000009, none) := by
  decide

/-- The second example of R207: a failed `DSTART 5`. -/
theorem test_rdstat_errors : ports (after (issue small 0x30000005)) 0x02000000 = (some 0x0000000000010100, none) := by
  decide

/-- R208: the record is cleared, `eflt` is not. -/
theorem test_clrerr_keeps_eflt :
    (after (issue failed 0x03000000)).errflags = 0 ∧ (after (issue failed 0x03000000)).lasterr = 0 ∧
      (after (issue failed 0x03000000)).eflt = true := by decide

/-- 95_test_vectors V10. -/
theorem test_b2s_one : ports small 0x10000001 = (some 0x0000000000000100, none) := by decide
theorem test_b2s_two : ports small 0x10000002 = (some 0x2000000000000000, none) := by decide

/-- 95_test_vectors V11: zero maps to 1, raw −1 to 0. -/
theorem test_s2b_zero : ports small 0x11000000 = (some 1, none) := by decide
theorem test_s2b_minus_one : ports small 0x1100FFFF = (some 0, none) := by decide

/-- R130: `TRANS 2, 0`, and the priority of `ERR_IDX` in `TRANS 9, 9` (60_exceptions R229). -/
theorem test_trans_two_zero : ports small 0x18000200 = (some 0x000000000000004D, none) := by decide
theorem test_trans_nine_nine : ports small 0x18000909 = (some 0x5000000000000000, none) := by decide

/-- R141: it leaves an encoder fault. -/
theorem test_estart_leaves_fault :
    (after (issue failed 0x20000000)).eflt = false ∧ (after (issue failed 0x20000000)).encState = 7 := by decide

/-- 42_convolutional_encoder R147, step 2: from state 5 the bit 0. -/
theorem test_ebit_from_five :
    ports { small with encState := 5 } 0x21000000 = (some 0x000000000000002C, some 0x01000100FF00FF00) ∧
      (after (issue { small with encState := 5 } 0x21000000)).encState = 2 := by decide

/-- 60_exceptions R229: `EBIT 2` with `eflt = 1` raises `ERR_SEQ`. -/
theorem test_ebit_failed : ports failed 0x21000002 = (some 0x3000000000000000, none) := by decide

/-- R156: one sample group more than `N_MAX`, and a length that is no multiple of 4, which is checked first. -/
theorem test_dstart_too_long :
    ports stepped 0x3000000C = (some 0x4000000000000000, none) ∧ (after (issue stepped 0x3000000C)).dst = .idle ∧
      (after (issue stepped 0x3000000C)).t = 0 := by decide
theorem test_dstart_odd : ports small 0x30FFFFFF = (some 0x1000000000000000, none) := by decide

/-- R172: the column and the entries the first step writes. -/
theorem test_dsamp_first_step :
    ports held 0x3100FF00 = (some 0x0000000000040001, none) ∧
      (after (issue held 0x3100FF00)).pm = #v[.inf, .inf, .inf, .inf, .inf, .inf, .fin 0, .fin 1048576] ∧
      (after (issue held 0x3100FF00)).sv =
        [(8, 0), (9, 0), (10, 0), (11, 0), (12, 0), (13, 0), (14, 0x1E), (15, 0x1F)] := by decide

/-- R158: a sample beyond the declared length is not consumed. -/
theorem test_dsamp_too_many :
    ports complete 0x31000000 = (some 0x3000000000000000, none) ∧
      (after (issue complete 0x31000000)).dec = complete.dec := by decide

/-- R185: after the noiseless codeword of the bits 0, 1 the terminal state is 5 with metric 0, and the bits are read. -/
theorem test_dterm_traces :
    ports complete 0x32000000 = (some 0x0000000000000005, none) ∧
      (after (issue complete 0x32000000)).dbuf = [(0, 0), (1, 1)] := by decide

/-- R186: among equal metrics the lowest index. -/
theorem test_term_tie :
    term #v[.inf, .fin 3, .fin 2, .fin 2, .inf, .fin 2, .fin 9, .fin 2] = 2 := by decide

/-- R191: the last bit, and the index after it. -/
theorem test_drd_last : ports finished 0x33000001 = (some 1, none) := by decide
theorem test_drd_beyond : ports finished 0x33000002 = (some 0x5000000000000000, none) := by decide

/-- The examples of R210. -/
theorem test_rdpm_finite : ports stepped 0x38000007 = (some 0x0000000000100000, none) := by decide
theorem test_rdpm_infinite : ports stepped 0x38000000 = (some 0x0002000000000000, none) := by decide

/-- The examples of R211. -/
theorem test_rdsv_entry : ports stepped 0x3900000E = (some 0x000000000000001E, none) := by decide
theorem test_rdsv_beyond : ports stepped 0x39000016 = (some 0x5000000000000000, none) := by decide

/-- 43_viterbi_forward R163: the largest branch metric. -/
theorem test_branch_metric_max :
    branchMetric 7 1 { y0 := 0x8000, y1 := 0x8000, y2 := 0x8000, y3 := 0x8000 } = bmMax := by decide

/-- 42_convolutional_encoder R147: the codeword of `01` and the state after it. -/
theorem test_encode_two_bits :
    encodeBits [0, 1] = [-256, -256, -256, -256, 256, -256, -256, 256] ∧ walkEnd 7 [0, 1] = 5 := by decide

/-- R88: an illegal word. -/
theorem test_illegal_word :
    ports held 0x04000000 = (some 0x6000000000000000, none) ∧ (after (issue held 0x04000000)).dec = held.dec := by
  decide

/-- The word of a table row runs at once, from reset too. -/
theorem test_withFetchWord :
    after (step (State.reset.withFetchWord 32 0x18000701)) = after (exec (.trans 7 1) State.reset) := by decide

/-! ## The invariant holds where the obligations assume it -/

/-- The row entries and metrics of a concrete state, as one check. -/
def rowsOk (s : State) (t' : Nat) (i : Idx) : Bool :=
  match s.sv.read (svAddr t' i) with
  | none => false
  | some e =>
    decide (entryValid e = reachableAt t' i) &&
      decide (entryValid e = true →
        entryBit e = inputBit i ∧ (entryPred e).toNat % 4 = i.toNat / 2 ∧ reachableAt (t' - 1) (entryPred e) = true) &&
      decide (entryValid e = false → e = 0#5)

def metricOk (s : State) (i : Idx) : Bool :=
  match at8 s.pm i with
  | .inf => true
  | .fin m => decide (m ≤ s.t.toNat * bmMax)

theorem rowsOk_iff {s : State} {t' : Nat} {i : Idx} (h : rowsOk s t' i = true) :
    ∃ e, s.sv.read (svAddr t' i) = some e ∧ EntryOk t' i e := by
  simp only [rowsOk] at h
  split at h
  · exact absurd h (by decide)
  · next e he =>
    simp only [Bool.and_eq_true, decide_eq_true_eq] at h
    exact ⟨e, he, h.1.1, h.1.2, h.2⟩

theorem metricOk_iff {s : State} {i : Idx} {m : Nat} (h : metricOk s i = true) (hm : at8 s.pm i = .fin m) :
    m ≤ s.t.toNat * bmMax := by
  simpa [metricOk, hm] using h

theorem complete_inv : complete.Inv where
  cfgLegal := by decide
  idleFrame := by decide
  frameBounds := by decide
  noPartialGroup := by decide
  doneComplete := by decide
  finiteSet := by decide
  rowsWritten := by
    intro _ t' i h1 h2
    have ht : complete.t.toNat = 2 := by decide
    have hr : ∀ i, rowsOk complete 1 i = true ∧ rowsOk complete 2 i = true := by decide
    obtain rfl | rfl : t' = 1 ∨ t' = 2 := by omega
    · exact rowsOk_iff (hr i).1
    · exact rowsOk_iff (hr i).2
  metricBound := by
    intro _ i m hm
    have hr : ∀ i, metricOk complete i = true := by decide
    exact metricOk_iff (hr i) hm
  bitsWritten := by
    intro h
    exact absurd h (by decide)
  noErrorRecorded := by decide
  errorRecorded := by decide
  svWf := by decide
  dbWf := by decide

theorem finished_inv : finished.Inv where
  cfgLegal := by decide
  idleFrame := by decide
  frameBounds := by decide
  noPartialGroup := by decide
  doneComplete := by decide
  finiteSet := by decide
  rowsWritten := by
    intro _ t' i h1 h2
    have ht : finished.t.toNat = 2 := by decide
    have hr : ∀ i, rowsOk finished 1 i = true ∧ rowsOk finished 2 i = true := by decide
    obtain rfl | rfl : t' = 1 ∨ t' = 2 := by omega
    · exact rowsOk_iff (hr i).1
    · exact rowsOk_iff (hr i).2
  metricBound := by
    intro _ i m hm
    have hr : ∀ i, metricOk finished i = true := by decide
    exact metricOk_iff (hr i) hm
  bitsWritten := by
    intro _ k hk
    have hn : finished.n.toNat = 2 := by decide
    have hb : (finished.dbuf.read 0).isSome = true ∧ (finished.dbuf.read 1).isSome = true := by decide
    obtain rfl | rfl : k = 0 ∨ k = 1 := by omega
    · exact Option.isSome_iff_exists.1 hb.1
    · exact Option.isSome_iff_exists.1 hb.2
  noErrorRecorded := by decide
  errorRecorded := by decide
  svWf := by decide
  dbWf := by decide

/-! ## Witnesses: for each obligation with hypotheses, a state and operands that meet them, clause by clause -/

theorem witness_LegalWordsAreEncodings : decode 0x39000016 = .ok (.rdsv 2 6) := by decide

theorem witness_OpcodeTableSelects :
    (∃ r ∈ opTable, r.selects 0x3907FFFF = true) ∧ (∀ r ∈ opTable, r.selects 0x39080000 = false) := by decide

theorem witness_IllegalWordRaisesErrOp :
    (∀ r ∈ opTable, r.selects 0x04000000 = false) ∧ (∀ r ∈ opTable, r.selects 0x00000001 = false) ∧
      (∀ r ∈ opTable, r.selects 0xFFFFFFFF = false) := by decide

theorem witness_WrittenFormEncodes :
    (Written.b2s 16777215).wellFormed = true ∧ (Written.s2b (.raw (-32768))).wellFormed = true ∧
      (Written.dsamp (.raw 32767)).wellFormed = true ∧ (Written.dsamp (.pattern 65535)).wellFormed = true ∧
      (Written.trans 255 255).wellFormed = true ∧ (Written.dstart 16777215).wellFormed = true ∧
      (Written.drd 65535).wellFormed = true ∧ (Written.rdpm 7).wellFormed = true ∧
      (Written.rdsv 65535 7).wellFormed = true ∧ (Written.drd 65536).wellFormed = false := by decide

/-- R84 and R93 by hand: `B2S 1`, `EBIT 1`, `S2B -256` and `DSAMP -256` have different words. -/
theorem test_assembled_words :
    assembleAll [.b2s 1, .ebit 1, .s2b (.raw (-256)), .dsamp (.pattern 0xFF00), .nop, .reset] =
      some [0x10000001, 0x21000001, 0x1100FF00, 0x3100FF00, 0x00000000, 0x01000000] := by decide

theorem witness_StepRunsCommand :
    (placeCommand small 0x00000000).inputs = .command 0x00000000 :: [] ∧ decode 0x00000000 = .ok .nop := by decide

theorem witness_ResetInputResets : ({ finished with inputs := [.resetInput] } : State).inputs = .resetInput :: [] := rfl

theorem witness_IdleStepKeepsState : finished.inputs = [] := by decide

/-- The reserved-bit clauses of every command statement, at the lowest and the highest value they speak of. -/
theorem witness_reserved_bits :
    1#24 ≠ 0#24 ∧ 0xFFFFFF#24 ≠ 0#24 ∧ 8 ≤ (8#24).toNat ∧ 2 ^ 16 ≤ (0x010000#24).toNat ∧ 2 ^ 19 ≤ (0x080000#24).toNat ∧
      2 ^ 19 ≤ (0xFFFFFF#24).toNat := by decide

theorem witness_ResetCommandResets : ∃ t, exec .reset finished = .next t := ⟨_, rfl⟩

theorem witness_RdpmReadsMetric :
    stepped.dst ≠ .idle ∧ at8 stepped.pm 5 = .inf ∧ at8 stepped.pm 7 = .fin 1048576 ∧ small.dst = .idle := by
  decide

theorem witness_RdsvReadsEntry :
    (complete.dst ≠ .idle ∧ 1 ≤ (1#16).toNat ∧ (1#16).toNat ≤ complete.t.toNat ∧ (1#16).toNat ≤ complete.cfg.nMax ∧
      complete.sv.read (8 * (1#16).toNat + (6#3).toNat) = some 0x1E#5) ∧
    ((2#16).toNat ≤ complete.t.toNat ∧ (2#16).toNat ≤ complete.cfg.nMax ∧
      complete.sv.read (8 * (2#16).toNat + (5#3).toNat) = some 0x1D#5) ∧
    small.dst = .idle ∧ (0#16).toNat < 1 ∧ complete.t.toNat < (3#16).toNat := by decide

theorem witness_B2sConverts : 1 < (2#24).toNat ∧ 1 < (0xFFFFFF#24).toNat := by decide

theorem witness_S2bThresholds :
    0 ≤ (0#16).toInt ∧ 0 ≤ (0x7FFF#16).toInt ∧ (0xFFFF#16).toInt < 0 ∧ (0x8000#16).toInt < 0 := by decide

theorem witness_TransEvaluates :
    7 < (8#8).toNat ∧ 7 < (0xFF#8).toNat ∧ ((7#8).toNat ≤ 7 ∧ 1 < (2#8).toNat) ∧ 1 < (0xFF#8).toNat := by decide

theorem witness_OutputsFromLastThreeBits :
    [1#1, 1#1, 1#1] ++ [] = [] ++ [1#1, 1#1, 1#1] ∧ [1#1, 1#1, 1#1] ++ [0#1] = [1#1] ++ [1#1, 1#1, 0#1] := by decide

theorem witness_EbitEncodes :
    (small.eflt = false ∧ small.encState = 1#1 ++ 1#1 ++ 1#1) ∧ failed.eflt = true ∧
      (small.eflt = false ∧ 1 < (2#24).toNat) := by decide

/-- A failing `EBIT` sets `eflt`; `ESTART`, `RESET` and the reset input clear it; an `EBIT` in between fails. -/
theorem witness_EfltOnlyFromBadBit :
    (done (step (placeCommand small 0x21000002)) = true ∧
      small.eflt = false ∧ (after (step (placeCommand small 0x21000002))).eflt = true) ∧
    (done (step (placeCommand failed 0x20000000)) = true ∧
      failed.eflt = true ∧ (after (step (placeCommand failed 0x20000000))).eflt = false) ∧
    (done (step { failed with inputs := [.resetInput] }) = true ∧
      (after (step { failed with inputs := [.resetInput] })).eflt = false) ∧
    ((after (step (placeCommand failed 0x01000000))).eflt = false ∧ encode .reset = 0x01000000 ∧
      encode .estart = 0x20000000) ∧
    (decode 0x21000001 = .ok (.ebit 1) ∧
      done (step (placeCommand failed 0x21000001)) = true) := by decide

theorem witness_FailedEncodeStaysFailed :
    failed.eflt = true ∧ (∀ w ∈ [0x21000001, 0x10000001, (0x04000000 : Word)], w ≠ encode .estart ∧ w ≠ encode .reset) ∧
      (runWords [0x21000001, 0x10000001, 0x04000000] failed).isSome = true := by
  refine ⟨by decide, fun w hw => ?_, by decide⟩
  simp only [List.mem_cons, List.not_mem_nil, or_false] at hw
  rcases hw with rfl | rfl | rfl <;> decide

/-- An `ENCODE` with decoder, mapper and illegal words between its commands, and the empty one. -/
theorem witness_InterleavedEncode :
    ((runWords [0x30000004, 0x20000000, 0x3100FF00, 0x21000000, 0x04000000, 0x21000001] small).isSome = true ∧
      assembleAll (encodeCommands ([0#1, 1#1].map BitVec.toNat)) =
        some ([0x30000004, 0x20000000, 0x3100FF00, 0x21000000, 0x04000000, 0x21000001].filter (wordIs usesEncoder))) ∧
    ((runWords [0x20000000] small).isSome = true ∧
      assembleAll (encodeCommands (([] : List Bit).map BitVec.toNat)) =
        some ([0x20000000].filter (wordIs usesEncoder))) := by decide

theorem witness_CodewordLaws : (256 : Sample) ∈ encodeBits [1] ∧ (-256 : Sample) ∈ encodeBits [0] := by decide

theorem witness_StepTakesMinimum :
    at8 (stepColumn column0 (heldGroup held 0xFF00)) 6 = .fin 0 ∧
      ((transition 7 0).next = 6 ∧ at8 column0 7 = .fin 0) ∧
      at8 (stepColumn column0 (heldGroup held 0xFF00)) 0 = .inf ∧ (transition 0 0).next = 0 := by decide

/-- A tie: samples all zero from equal metrics (0, 4 into 0). -/
theorem witness_StepTieBreak :
    let old : Vector Metric 8 := #v[.fin 5, .fin 5, .fin 5, .fin 5, .fin 5, .fin 5, .fin 5, .fin 5]
    let g : Group := { y0 := 0, y1 := 0, y2 := 0, y3 := 0 }
    (transition 0 0).next = 0 ∧ (transition 4 0).next = 0 ∧ (0#3).toNat < (4#3).toNat ∧ at8 old 0 = .fin 5 ∧
      at8 old 4 = .fin 5 ∧ 5 + branchMetric 0 0 g = 5 + branchMetric 4 0 g := by decide

theorem witness_ColumnIsLeastCost :
    at8 (forwardPass column0 [] [heldGroup held 0xFF00]).1 6 = .fin 0 ∧
      ([0#1].length = [heldGroup held 0xFF00].length ∧ walkEnd 7 [0#1] = 6) ∧
      at8 (forwardPass column0 [] [heldGroup held 0xFF00]).1 0 = .inf ∧
      groupsOf [0xFF00, 0xFF00, 0xFF00, 0xFF00] = some [heldGroup held 0xFF00] := by decide

theorem witness_FrameMetricsAreLeastDistances :
    (small.cfg.Legal ∧ 1 ≤ 1 ∧ 1 ≤ small.cfg.nMax ∧ ([] : List Sample).length ≤ 4 * 1) ∧
      (1 ≤ 2 ∧ 2 ≤ small.cfg.nMax ∧ (List.replicate 8 (0 : Sample)).length ≤ 4 * 2) ∧
      at8 stepped.pm 7 = .fin 1048576 ∧ at8 stepped.pm 5 = .inf := by decide

/-- The shortest frame, the longest one, and the refused lengths next to them. -/
theorem witness_DstartBegins :
    (small.cfg.Legal ∧ (4#24).toNat ≠ 0 ∧ (4#24).toNat % 4 = 0 ∧ (4#24).toNat / 4 ≤ small.cfg.nMax) ∧
      (8#24).toNat / 4 ≤ small.cfg.nMax ∧ ((0#24).toNat = 0 ∧ (3#24).toNat % 4 ≠ 0 ∧ (9#24).toNat % 4 ≠ 0) ∧
      ((12#24).toNat ≠ 0 ∧ (12#24).toNat % 4 = 0 ∧ small.cfg.nMax < (12#24).toNat / 4) := by decide

theorem witness_DsampDelivers :
    (started.dst = .run ∧ started.t ≠ started.n ∧ started.ph.toNat < 3) ∧
      (held.dst = .run ∧ held.t ≠ held.n ∧ held.ph = 3 ∧ held.t.toNat < held.cfg.nMax) ∧
      (small.dst ≠ .run ∧ finished.dst ≠ .run ∧ complete.dst = .run ∧ complete.t = complete.n) := by decide

/-- The three outcomes of a lane of `DSAMP`: none, the upper predecessor, the lower one. -/
theorem witness_DsampDelivers_lanes :
    (let g := heldGroup held 0xFF00
     ((at8 held.pm (pred0 0)).add (branchMetric (pred0 0) (inputBit 0) g) = .inf ∧
       (at8 held.pm (pred1 0)).add (branchMetric (pred1 0) (inputBit 0) g) = .inf) ∧
     ((at8 held.pm (pred1 6)).add (branchMetric (pred1 6) (inputBit 6) g)).lt
       ((at8 held.pm (pred0 6)).add (branchMetric (pred0 6) (inputBit 6) g)) = true) ∧
    (let s : State := { held with pm := #v[.fin 0, .inf, .inf, .inf, .inf, .inf, .inf, .inf] }
     let g := heldGroup s 0xFF00
     (at8 s.pm (pred0 0)).add (branchMetric (pred0 0) (inputBit 0) g) ≠ .inf ∧
       ((at8 s.pm (pred1 0)).add (branchMetric (pred1 0) (inputBit 0) g)).lt
         ((at8 s.pm (pred0 0)).add (branchMetric (pred0 0) (inputBit 0) g)) = false) := by decide

theorem witness_TermIsLeast :
    (1#3).toNat < (term #v[.inf, .fin 3, .fin 2, .fin 2, .inf, .fin 2, .fin 9, .fin 2]).toNat := by decide

theorem witness_DtermTracesBack : complete.Inv ∧ complete.dst = .run ∧ complete.t = complete.n ∧ complete.n = 2 :=
  ⟨complete_inv, by decide⟩

theorem witness_DtermTracesBack_refused : started.t ≠ started.n ∧ finished.dst ≠ .run ∧ small.dst ≠ .run := by
  decide

theorem witness_DrdReadsBit :
    (finished.dst = .done ∧ (1#16).toNat < finished.n.toNat ∧ (1#16).toNat < finished.cfg.nMax ∧
      finished.dbuf.read (1#16).toNat = some 1#1) ∧
    finished.dbuf.read (0#16).toNat = some 0#1 ∧ (small.dst ≠ .done ∧ complete.dst ≠ .done) ∧
    (finished.dst = .done ∧ finished.n.toNat ≤ (2#16).toNat) := by decide

theorem witness_DecodeRunGivesBits :
    (small.cfg.Legal ∧ (List.replicate 4 (0 : Sample)).length = 4 * 1 ∧ 1 ≤ 1 ∧ 1 ≤ small.cfg.nMax) ∧
      ((List.replicate 8 (0x8000 : Sample)).length = 4 * 2 ∧ 2 ≤ small.cfg.nMax) := by decide

/-- A `DECODE` with encoder, mapper, inspection and illegal words between its commands. -/
theorem witness_InterleavedDecode :
    let ws : List Word :=
      [0x20000000, 0x30000004, 0x3100FF00, 0x21000001, 0x3100FF00, 0x38000007, 0x3100FF00, 0x3100FF00, 0x3900000E,
        0x33010000, 0x32000000, 0x02000000, 0x33000000]
    small.cfg.Legal ∧ (runWords ws small).isSome = true ∧
      assembleAll (decodeCommands [0xFF00, 0xFF00, 0xFF00, 0xFF00]) = some (ws.filter (wordIs usesFrame)) := by decide

theorem witness_InterleavedDecode_no_value :
    ([] : List Sample).length = 0 ∧ ([0, 0, 0] : List Sample).length % 4 ≠ 0 ∧
      ([0, 0, 0] : List Sample).length < 2 ^ 24 := by decide

/-- A frame one group longer than `N_MAX`, and a later command of an expansion in `IDLE`. -/
theorem witness_InterleavedDecode_refused :
    ((List.replicate 12 (0 : Sample)).length < 2 ^ 24 ∧ (List.replicate 12 (0 : Sample)).length ≠ 0 ∧
      (List.replicate 12 (0 : Sample)).length % 4 = 0 ∧
      small.cfg.nMax < (List.replicate 12 (0 : Sample)).length / 4) ∧
    (small.dst = .idle ∧ Written.dterm ∈ (decodeCommands [0, 0, 0]).tail ∧ Written.dterm.assemble = some .dterm) := by
  decide

/-- The longest `DECODE` whose `DSTART` has a word, and the first without one (R93). -/
theorem witness_DecodeRunGivesBits_longest :
    (List.replicate 16777215 (0 : Sample)).length < 2 ^ 24 ∧ 2 ^ 24 ≤ (List.replicate 16777216 (0 : Sample)).length := by
  rw [List.length_replicate, List.length_replicate]
  decide

theorem witness_DecodeIsOptimal : ([0, 0, 0, 0] : List Sample).length = 4 * 1 ∧ [1#1].length = 1 := by decide

theorem witness_NoiselessRoundTrip :
    [0#1] ≠ [] ∧ ([0#1].length = [0#1].length ∧ encodeBits [0#1] = encodeBits [0#1]) := by decide

/-- Allowed and not allowed, for each row of R228. -/
theorem witness_SequenceErrors :
    (finished.t.toNat ≤ finished.n.toNat ∧ ¬ sequenceAllows .dterm finished ∧ sequenceAllows (.drd 0) finished) ∧
      (complete.t.toNat ≤ complete.n.toNat ∧ ¬ sequenceAllows (.dsamp 0) complete ∧ sequenceAllows .dterm complete ∧
        ¬ sequenceAllows (.drd 0) complete ∧ sequenceAllows (.rdpm 0) complete ∧ sequenceAllows (.rdsv 1 0) complete) ∧
      (held.t.toNat ≤ held.n.toNat ∧ sequenceAllows (.dsamp 0) held) ∧
      (failed.t.toNat ≤ failed.n.toNat ∧ ¬ sequenceAllows (.ebit 0) failed ∧ ¬ sequenceAllows (.rdpm 0) failed ∧
        ¬ sequenceAllows (.rdsv 1 0) failed) ∧ sequenceAllows (.ebit 0) small := by
  simp only [sequenceAllows]
  decide

/-- Each kind of failure: a bad bit, a bad length, any other command, an illegal word. -/
theorem witness_FailuresArePrecise :
    (done (issue small 0x21000002) = true ∧
      (after (issue small 0x21000002)).succeeded = false ∧ decode 0x21000002 = .ok (.ebit 2)) ∧
    (done (issue stepped 0x30000005) = true ∧
      (after (issue stepped 0x30000005)).succeeded = false ∧ decode 0x30000005 = .ok (.dstart 5)) ∧
    (done (issue small 0x32000000) = true ∧
      (after (issue small 0x32000000)).succeeded = false) ∧
    (done (issue held 0x04000000) = true ∧
      (after (issue held 0x04000000)).succeeded = false) := by decide

theorem witness_ErrorsByCommand :
    done (exec (.rdsv 2 0) stepped) = true ∧
      (after (exec (.rdsv 2 0) stepped)).succeeded = false ∧ Err.idx ∈ errorsOf (.rdsv 2 0) := by decide

theorem witness_EveryCommandResponds :
    done (issue small 0x21000000) = true ∧
      done (issue small 0x04000000) = true := by decide

/-- A clearing command, a failing one and a succeeding one, from a state with a record. -/
theorem witness_ErrorRecordSticky :
    ((placeCommand failed 0x03000000).inputs = [.command 0x03000000] ∧ encode .clrerr = 0x03000000 ∧
      done (step (placeCommand failed 0x03000000)) = true) ∧
    (failed.errflags.getLsbD 1 = true ∧
      done (step (placeCommand failed 0x32000000)) = true ∧
      (after (step (placeCommand failed 0x32000000))).succeeded = false ∧
      0x32000000#32 ≠ encode .clrerr ∧ 0x32000000#32 ≠ encode .reset) ∧
    (done (step (placeCommand failed 0x10000001)) = true ∧
      (after (step (placeCommand failed 0x10000001))).succeeded = true) ∧
    (Instr.b2s 0 ≠ .rdstat ∧ done (exec (.b2s 0) failed) = true) := by decide

theorem witness_DstTransitions :
    (done (step { finished with inputs := [.resetInput] }) = true) ∧
    (done (step (placeCommand finished 0x01000000)) = true ∧
      decode 0x01000000 = .ok .reset) ∧
    (done (step (placeCommand finished 0x30000004)) = true ∧
      (after (step (placeCommand finished 0x30000004))).succeeded = true) ∧
    (done (step (placeCommand finished 0x30000005)) = true ∧
      (after (step (placeCommand finished 0x30000005))).succeeded = false) ∧
    (done (step (placeCommand complete 0x32000000)) = true ∧
      (after (step (placeCommand complete 0x32000000))).succeeded = true) ∧
    (done (step (placeCommand held 0x32000000)) = true ∧
      (after (step (placeCommand held 0x32000000))).succeeded = false) ∧
    (done (step (placeCommand held 0x31000000)) = true ∧
      (after (step (placeCommand held 0x31000000))).succeeded = true) ∧
    (done (step (placeCommand finished 0x33000000)) = true) := by
  decide

theorem witness_ReadCommandsFrame :
    done (exec .nop finished) = true ∧
      done (exec .rdstat finished) = true ∧
      done (exec (.b2s 1) finished) = true ∧
      done (exec (.s2b 0) finished) = true ∧
      done (exec (.trans 7 1) finished) = true ∧
      done (exec (.drd 0) finished) = true ∧
      done (exec (.rdpm 7) finished) = true ∧
      done (exec (.rdsv 2 0) finished) = true ∧
      (after (exec (.rdsv 2 0) finished)).succeeded = true := by decide

theorem witness_EncoderCommandsFrame :
    done (exec .estart failed) = true ∧
      (done (exec (.ebit 1) small) = true ∧ (after (exec (.ebit 1) small)).succeeded = true) ∧
      (done (exec (.ebit 1) failed) = true ∧
        (after (exec (.ebit 1) failed)).succeeded = false) := by decide

theorem witness_DecoderCommandsFrame :
    (done (exec (.dstart 8) finished) = true ∧
      (after (exec (.dstart 12) finished)).succeeded = false) ∧
    (done (exec (.dsamp 0) held) = true ∧ held.ph = 3 ∧
      (after (exec (.dsamp 0) held)).succeeded = true) ∧
    (done (exec (.dsamp 0) started) = true ∧ started.ph ≠ 3 ∧
      (after (exec (.dsamp 0) started)).succeeded = true ∧ (after (exec (.dsamp 0) finished)).succeeded = false) ∧
    (done (exec .dterm complete) = true ∧
      (after (exec .dterm complete)).succeeded = true) := by decide

theorem witness_ResetCommandsFrame :
    done (exec .reset finished) = true ∧
      done (exec .clrerr finished) = true := by decide

/-- Two states that differ in the other half only. -/
theorem witness_EncoderDecoderIndependent :
    (small.enc = finished.enc ∧ small ≠ finished ∧ done (exec (.ebit 1) small) = true ∧
      done (exec (.ebit 1) finished) = true) ∧
    (complete.dec = ({ complete with eflt := true } : State).dec ∧
      done (exec .dterm complete) = true) := by decide

theorem witness_InvKeptByEveryStep :
    finished.Inv ∧ done (step (placeCommand finished 0x30000008)) = true :=
  ⟨finished_inv, by decide⟩

theorem witness_InvNeverStops : complete.Inv ∧ finished.Inv := ⟨complete_inv, finished_inv⟩

theorem witness_MetricsFitRegister : complete.Inv ∧ complete.dst ≠ .idle ∧ at8 complete.pm 5 = .fin 0 :=
  ⟨complete_inv, by decide⟩

/-- States outside the invariant, one for each clause. -/
theorem witness_StopsByName :
    (let s : State := { small with dst := .run, n := 2, t := 1 }
     s.dst ≠ .idle ∧ 1 ≤ (1#16).toNat ∧ (1#16).toNat ≤ s.t.toNat ∧ (1#16).toNat ≤ s.cfg.nMax ∧
       s.sv.read (svAddr (1#16).toNat 0) = none) ∧
    (let s : State := { small with dst := .run, n := 3, t := 3 }
     (3#16).toNat ≤ s.t.toNat ∧ s.cfg.nMax < (3#16).toNat) ∧
    (let s : State := { small with dst := .done, n := 2, t := 2 }
     s.dst = .done ∧ (1#16).toNat < s.n.toNat ∧ (1#16).toNat < s.cfg.nMax ∧ s.dbuf.read (1#16).toNat = none) ∧
    (let s : State := { small with dst := .done, n := 3, t := 3 }
     (2#16).toNat < s.n.toNat ∧ s.cfg.nMax ≤ (2#16).toNat) ∧
    (let s : State := { small with dst := .run, n := 3, t := 2, ph := 3 }
     s.t ≠ s.n ∧ s.ph = 3 ∧ s.cfg.nMax ≤ s.t.toNat) ∧
    (let s : State := { small with dst := .run, n := 1, t := 1, sv := [(8, 0)] }
     s.t = s.n ∧ 1 ≤ s.n.toNat ∧ s.n.toNat ≤ s.cfg.nMax ∧ s.sv.read (svAddr s.n.toNat (term s.pm)) = some 0#5 ∧
       entryValid 0#5 = false) := by decide

end Sys2Proof.Tests
end

section
/-! PROOFS. The statements of 00_scope: a step carries out the command word it takes (R8), and the natural numbers of
the model's metrics are the values of the 49-bit registers (R7). -/

namespace Sys2Proof.Proofs

open Sys2Proof.Machine Sys2Proof.Laws

/-! ## A finite metric in its register (00_scope R7, 45_system_ops R210) -/

/-- A path of a legal frame costs less than a 49-bit register holds: `N_MAX · BM_MAX < 2^49` (00_scope R7). -/
theorem mul_bmMax_lt {k : Nat} (hk : k ≤ 65535) : k * bmMax < 2 ^ 49 :=
  calc k * bmMax ≤ 65535 * bmMax := Nat.mul_le_mul_right bmMax hk
    _ < 2 ^ 49 := by decide

/-- The time step of a frame is at most `N_MAX` (10_state R34 item 3), and a metric at most `BM_MAX` per time step (item
7). -/
theorem metric_lt_of_inv {s : State} {i : Idx} {m : Nat} (hinv : s.Inv) (hd : s.dst ≠ .idle)
    (hm : at8 s.pm i = .fin m) : m < 2 ^ 49 := by
  obtain ⟨-, hn, ht⟩ := hinv.frameBounds hd
  have ht' : s.t.toNat ≤ 65535 := ht.trans (hn.trans hinv.cfgLegal.2)
  exact (hinv.metricBound hd i m hm).trans_lt (mul_bmMax_lt ht')

/-- The `data` field of `RDPM` has the flag `inf` at 0 and the 49 low bits of a finite metric. -/
theorem rdpmData_fin_toNat {m : Nat} (hm : m < 2 ^ 49) : (rdpmData (.fin m)).toNat = m := by
  have hvalue : (BitVec.ofBool (Metric.fin m).isInf ++ (Metric.fin m).val).toNat = m := by
    rw [toNat_append_add]
    simpa [Metric.isInf, Metric.val] using hm
  rw [rdpmData, zext56, BitVec.toNat_setWidth, hvalue]
  omega

/-- `RDPM` with a frame in progress answers the metric (45_system_ops R210). -/
theorem exec_rdpm_of_frame {s : State} (i : Idx) (hd : s.dst ≠ .idle) :
    exec (.rdpm i) s = .next (respond (rdpmData (at8 s.pm i)) s) :=
  if_neg hd

/-- Settles O59: the bound is the invariant's, and the 49 bits of `RDPM` cut nothing off below it. -/
theorem metricsFitRegister : Obligations.MetricsFitRegister := by
  intro s i m hinv hd hm
  have hlt : m < 2 ^ 49 := metric_lt_of_inv hinv hd hm
  refine ⟨hlt, okResponse (rdpmData (.fin m)), ?_, ?_⟩
  · rw [exec_rdpm_of_frame i hd, hm]
    rfl
  · rw [okResponse_toNat, rdpmData_fin_toNat hlt]

/-! ## A step with a legal word next (00_scope R8) -/

/-- Settles O7: the step takes the word from the head of the inputs, and the decoder selects the command's branch. -/
theorem stepRunsCommand : Obligations.StepRunsCommand := by
  intro s w rest i hinputs hdecode
  have hnext : nextInput s = some (.command w, { s with inputs := rest }) := by
    simp only [nextInput, hinputs]
  simp only [step, hnext, hdecode]

end Sys2Proof.Proofs
end

section
/-! PROOFS. What one command can do to the state, case by case (`Effect`), and what one step can: the inversion lemmas
of Sys2Proof/Laws/Cases.lean gathered into one, which the frames and the invariant of 10_state are derived from. -/

namespace Sys2Proof.Proofs

open Sys2Proof.Machine Sys2Proof.Laws

/-! ## The effects of the commands -/

/-- The commands that write no data state when they succeed or fail. -/
def readsOnly : Instr → Bool
  | .nop | .rdstat | .b2s _ | .s2b _ | .trans _ _ | .drd _ | .rdpm _ | .rdsv _ _ => true
  | .reset | .clrerr | .estart | .ebit _ | .dstart _ | .dsamp _ | .dterm => false

/-- The next states a command can lead to, one constructor for each way it can end. `exec_effect` ties it to `exec`. -/
inductive Effect (s : State) : Instr → State → Prop
  | read {i : Instr} (hi : readsOnly i = true) (d : BitVec 56) : Effect s i (respond d s)
  | readRefused {i : Instr} (hi : readsOnly i = true) (e : Err) : Effect s i (raise e s)
  | reset : Effect s .reset (respond 0 (resetRegs s))
  | clrerr : Effect s .clrerr (respond 0 (clearErrors s))
  | estart : Effect s .estart (respond 0 { s with encState := 7, eflt := false })
  | ebitFailed {b : BitVec 24} (hf : s.eflt = true) : Effect s (.ebit b) (raise .seq s)
  | ebitBadBit {b : BitVec 24} (hf : s.eflt = false) (hb : 1 < b.toNat) :
      Effect s (.ebit b) (raise .bit { s with eflt := true })
  | ebit {b : BitVec 24} (hf : s.eflt = false) (hb : b.toNat ≤ 1) (u : Bit) :
      Effect s (.ebit b) (respondCw (transition s.encState u).data (transition s.encState u).samples
        { s with encState := (transition s.encState u).next })
  | dstartRefused {len : BitVec 24} (e : Err) : Effect s (.dstart len) (raise e (abandonFrame s))
  | dstart {len : BitVec 24} (hl : len.toNat ≠ 0) (hm : len.toNat % 4 = 0) (hn : len.toNat / 4 ≤ s.cfg.nMax) :
      Effect s (.dstart len) (respond (zext56 (BitVec.ofNat 16 (len.toNat / 4)))
        { s with n := BitVec.ofNat 16 (len.toNat / 4), t := 0, ph := 0, pm := column0, dst := .run })
  | dsampRefused {y : Sample} : Effect s (.dsamp y) (raise .seq s)
  | dsampHeld {y : Sample} (hd : s.dst = .run) (ht : s.t ≠ s.n) (hp : s.ph.toNat < 3) :
      Effect s (.dsamp y) (respond (dsampData false (s.ph + 1) s.t)
        { s with ybuf := s.ybuf.setIfInBounds s.ph.toNat y, ph := s.ph + 1 })
  | dsampStepped {y : Sample} (hd : s.dst = .run) (ht : s.t ≠ s.n) (hp : s.ph = 3#2) (sv' : Memory 5)
      (hw : svWriteRow s.cfg s.sv (s.t.toNat + 1) (stepRow s.pm (heldGroup s y)) = .ok sv') :
      Effect s (.dsamp y) (steppedState y s sv')
  | dtermRefused : Effect s .dterm (raise .seq s)
  | dterm (hd : s.dst = .run) (ht : s.t = s.n) (db : Memory 1)
      (htr : traceback s.cfg s.sv s.n.toNat (term s.pm) s.dbuf = .ok db) :
      Effect s .dterm
        (respond (dtermData (at8 s.pm (term s.pm)) (term s.pm)) { s with dbuf := db, dst := .done })

/-- A command that gives a next state has one of the effects. -/
theorem exec_effect {i : Instr} {s t : State} (h : exec i s = .next t) : Effect s i t := by
  cases i with
  | nop => exact answer_next h ▸ .read rfl _
  | reset => exact answer_next h ▸ .reset
  | rdstat => exact answer_next h ▸ .read rfl _
  | clrerr => exact answer_next h ▸ .clrerr
  | b2s b =>
    obtain ⟨-, rfl⟩ | ⟨u, -, -, rfl⟩ := execB2s_cases h
    · exact .readRefused rfl _
    · exact .read rfl _
  | s2b y => exact answer_next h ▸ .read rfl _
  | trans q b =>
    obtain ⟨-, rfl⟩ | ⟨-, -, rfl⟩ | ⟨i, u, -, -, rfl⟩ := execTrans_cases h
    · exact .readRefused rfl _
    · exact .readRefused rfl _
    · exact .read rfl _
  | estart => exact answer_next h ▸ .estart
  | ebit b =>
    obtain ⟨hf, rfl⟩ | ⟨hf, hb, rfl⟩ | ⟨hf, hb, u, -, rfl⟩ := execEbit_cases h
    · exact .ebitFailed hf
    · exact .ebitBadBit hf hb
    · exact .ebit hf hb u
  | dstart len =>
    obtain ⟨-, rfl⟩ | ⟨-, -, -, rfl⟩ | ⟨hl, hm, hn, rfl⟩ := execDstart_cases h
    · exact .dstartRefused _
    · exact .dstartRefused _
    · exact .dstart hl hm hn
  | dsamp y =>
    obtain ⟨-, rfl⟩ | ⟨hd, ht, hp, rfl⟩ | ⟨hd, ht, hp, sv', hw, rfl⟩ := execDsamp_cases h
    · exact .dsampRefused
    · exact .dsampHeld hd ht hp
    · exact .dsampStepped hd ht hp sv' hw
  | dterm =>
    obtain ⟨-, rfl⟩ | ⟨hd, ht, db, htr, rfl⟩ := execDterm_cases h
    · exact .dtermRefused
    · exact .dterm hd ht db htr
  | drd k =>
    obtain ⟨-, rfl⟩ | ⟨-, -, rfl⟩ | ⟨-, -, b, -, rfl⟩ := execDrd_cases h
    · exact .readRefused rfl _
    · exact .readRefused rfl _
    · exact .read rfl _
  | rdpm si =>
    obtain ⟨-, rfl⟩ | ⟨-, rfl⟩ := execRdpm_cases h
    · exact .readRefused rfl _
    · exact .read rfl _
  | rdsv tt si =>
    obtain ⟨-, rfl⟩ | ⟨-, -, rfl⟩ | ⟨-, -, -, e, -, rfl⟩ := execRdsv_cases h
    · exact .readRefused rfl _
    · exact .readRefused rfl _
    · exact .read rfl _

/-- Everything a step that gives a next state can have done. -/
theorem step_effect {s t : State} (h : step s = .next t) :
    (s.inputs = [] ∧ t = idle s) ∨
    (∃ rest, s.inputs = .resetInput :: rest ∧ t = hardwareReset { s with inputs := rest }) ∨
    (∃ w rest i, s.inputs = .command w :: rest ∧ decode w = .ok i ∧ Effect { s with inputs := rest } i t) ∨
    (∃ w rest e, s.inputs = .command w :: rest ∧ decode w = .error e ∧ t = raise .op { s with inputs := rest }) := by
  obtain ⟨hin, hs⟩ | ⟨rest, hin, hs⟩ | ⟨w, rest, i, hin, hd, hs⟩ | ⟨w, rest, e, hin, hd, hs⟩ := step_cases s
  · rw [hs, Host.Outcome.next.injEq] at h
    exact .inl ⟨hin, h.symm⟩
  · rw [hs, Host.Outcome.next.injEq] at h
    exact .inr (.inl ⟨rest, hin, h.symm⟩)
  · rw [hs] at h
    exact .inr (.inr (.inl ⟨w, rest, i, hin, hd, exec_effect h⟩))
  · rw [hs, Host.Outcome.next.injEq] at h
    exact .inr (.inr (.inr ⟨w, rest, e, hin, hd, h.symm⟩))

/-! ## The decoder's part of a state (10_state R36) -/

/-- States with the same decoder part differ in the other fields only. -/
theorem eq_of_dec_eq {s s' : State} (h : s'.dec = s.dec) :
    s' = { s with
      encState := s'.encState, eflt := s'.eflt, errflags := s'.errflags, lasterr := s'.lasterr
      inputs := s'.inputs, rsp := s'.rsp, cw := s'.cw } := by
  simp only [State.dec, DecView.mk.injEq] at h
  obtain ⟨hcfg, hdst, hn, ht, hph, hybuf, hpm, hsv, hdb⟩ := h
  simp only [← hcfg, ← hdst, ← hn, ← ht, ← hph, ← hybuf, ← hpm, ← hsv, ← hdb]

/-! ## Whether a response says success (30_encoding R86) -/

@[simp] theorem respond_succeeded (d : BitVec 56) (s : State) : (respond d s).succeeded = true := by
  simp [State.succeeded]

@[simp] theorem respondCw_succeeded (d : BitVec 56) (c : CwWord) (s : State) : (respondCw d c s).succeeded = true := by
  simp [State.succeeded]

@[simp] theorem raise_succeeded (e : Err) (s : State) : (raise e s).succeeded = false := by
  simp [State.succeeded, code_ne_zero]

@[simp] theorem steppedState_succeeded (y : Sample) (s : State) (sv' : Memory 5) :
    (steppedState y s sv').succeeded = true :=
  respond_succeeded _ _

end Sys2Proof.Proofs
end

section
/-! PROOFS. The invariant of 10_state R34: the reset state meets it, every step keeps it, and from a state that meets it
no step stops the machine. -/

namespace Sys2Proof.Proofs

open Sys2Proof.Machine Sys2Proof.Laws

/-! ## The branch metric is at most `BM_MAX` (43_viterbi_forward R163) -/

theorem sqDiff_le (y : Sample) (o : Symbol) : sqDiff y o ≤ 33024 * 33024 := by
  have hlo : -32768 ≤ y.toInt := BitVec.le_toInt y
  have hhi : y.toInt < 32768 := BitVec.toInt_lt
  have ho : o.val = 1 ∨ o.val = -1 := by cases o <;> simp [Symbol.val]
  have habs : |y.toInt - o.val * one| ≤ |(33024 : Int)| := by
    rw [abs_of_nonneg (by decide : (0 : Int) ≤ 33024), abs_le, one]
    omega
  rw [sqDiff, sampleValue, Int.toNat_le]
  exact abs_le_iff_mul_self_le.1 habs

theorem branchMetric_le (p : Idx) (u : Bit) (g : Group) : branchMetric p u g ≤ bmMax := by
  have h0 := sqDiff_le g.y0 (transition p u).o0
  have h1 := sqDiff_le g.y1 (transition p u).o1
  have h2 := sqDiff_le g.y2 (transition p u).o2
  have h3 := sqDiff_le g.y3 (transition p u).o3
  simp only [branchMetric, bmMax]
  omega

/-! ## Reachable states (41_trellis_model R129) -/

@[simp] theorem reachableAt_seven (t : Nat) : reachableAt t 7#3 = true := by
  match t with
  | 0 | 1 | 2 => decide
  | _ + 3 => rfl

/-- A state is reachable in `t + 1` steps when one of its two predecessors is in `t`. -/
theorem reachableAt_succ (t : Nat) (i : Idx) :
    reachableAt (t + 1) i = (reachableAt t (pred0 i) || reachableAt t (pred1 i)) := by
  match t with
  | 0 | 1 | 2 => revert i; decide
  | _ + 3 => rfl

/-! ## One time step keeps items 5 to 7 (43_viterbi_forward R159, R165) -/

/-- Item 5 of the invariant for a column: its finite entries are those of the states reachable in `t` steps. -/
def FiniteAt (t : Nat) (pm : Vector Metric 8) : Prop := ∀ i, (at8 pm i).isInf = !reachableAt t i

/-- Item 7 of the invariant for a column (log 12). -/
def BoundedAt (t : Nat) (pm : Vector Metric 8) : Prop := ∀ i m, at8 pm i = .fin m → m ≤ t * bmMax

theorem finiteAt_column0 : FiniteAt 0 column0 := by
  intro i
  rw [at8_column0]
  revert i
  decide

theorem boundedAt_column0 : BoundedAt 0 column0 := by
  intro i m hm
  rw [at8_column0] at hm
  split at hm
  · cases hm; exact Nat.zero_le _
  · cases hm

variable {t : Nat} {pm : Vector Metric 8}

theorem reachableAt_of_fin (h : FiniteAt t pm) {i : Idx} {m : Nat} (hm : at8 pm i = .fin m) :
    reachableAt t i = true := by
  have hi := h i
  rw [hm] at hi
  simpa [Metric.isInf] using hi

theorem not_reachableAt_of_inf (h : FiniteAt t pm) {i : Idx} (hm : at8 pm i = .inf) : reachableAt t i = false := by
  have hi := h i
  rw [hm] at hi
  simpa [Metric.isInf] using hi

/-- Both halves of item 5 and 6 at once: what a lane stores as its metric and as its entry. -/
theorem acs_reachable (h : FiniteAt t pm) (g : Group) (i : Idx) :
    (acs pm g i).1.isInf = !reachableAt (t + 1) i ∧ EntryOk (t + 1) i (packEntry (acs pm g i).2) := by
  obtain ⟨hacs, h0, h1⟩ | ⟨x, h1, hacs, -⟩ | ⟨x, h0, hacs, -⟩ := acs_cases pm g i
  · have hr : reachableAt (t + 1) i = false := by
      rw [reachableAt_succ, not_reachableAt_of_inf h h0, not_reachableAt_of_inf h h1]
      rfl
    simp [hacs, Metric.isInf, EntryOk, hr, entryValid]
  · have hpred := reachableAt_of_fin h h1
    simp [hacs, Metric.isInf, EntryOk, reachableAt_succ, hpred, pred1_mod]
  · have hpred := reachableAt_of_fin h h0
    simp [hacs, Metric.isInf, EntryOk, reachableAt_succ, hpred, pred0_mod]

theorem finiteAt_stepColumn (h : FiniteAt t pm) (g : Group) : FiniteAt (t + 1) (stepColumn pm g) := by
  intro i
  rw [at8_stepColumn]
  exact (acs_reachable h g i).1

theorem entryOk_stepRow (h : FiniteAt t pm) (g : Group) (i : Idx) :
    EntryOk (t + 1) i (packEntry (at8 (stepRow pm g) i)) := by
  rw [at8_stepRow]
  exact (acs_reachable h g i).2

theorem boundedAt_stepColumn (h : BoundedAt t pm) (g : Group) : BoundedAt (t + 1) (stepColumn pm g) := by
  intro i m hm
  have hb (p : Idx) (x : Nat) (hp : at8 pm p = .fin x) : x + branchMetric p (inputBit i) g ≤ (t + 1) * bmMax := by
    rw [Nat.succ_mul]
    exact Nat.add_le_add (h p x hp) (branchMetric_le p (inputBit i) g)
  rw [at8_stepColumn] at hm
  obtain ⟨hacs, -, -⟩ | ⟨x, h1, hacs, -⟩ | ⟨x, h0, hacs, -⟩ := acs_cases pm g i
  all_goals rw [hacs] at hm; cases hm
  · exact hb _ x h1
  · exact hb _ x h0

/-! ## The parts of the invariant -/

/-- The items of the invariant about the error record (10_state R29, R30). -/
def RecordOk (s : State) : Prop :=
  (s.lasterr = 0 → s.errflags = 0) ∧
    (s.lasterr ≠ 0 → s.lasterr.toNat ≤ 6 ∧ s.errflags.getLsbD (s.lasterr.toNat - 1) = true)

/-- A failing command leaves a record that agrees with itself, whatever was recorded before. -/
theorem recordOk_raise (e : Err) (s : State) : RecordOk (raise e s) := by
  have hflag : e.code.toNat ≤ 6 ∧ e.flag.getLsbD (e.code.toNat - 1) = true := by cases e <;> decide
  exact ⟨fun h => absurd h (code_ne_zero e), fun _ => ⟨hflag.1, by simp [hflag.2]⟩⟩

/-- The rest of the invariant speaks of the decoder's state only. -/
theorem inv_of_dec_eq {s s' : State} (h : s.Inv) (hdec : s'.dec = s.dec) (hrec : RecordOk s') : s'.Inv := by
  rw [eq_of_dec_eq hdec]
  exact ⟨h.cfgLegal, h.idleFrame, h.frameBounds, h.noPartialGroup, h.doneComplete, h.finiteSet, h.rowsWritten,
    h.metricBound, h.bitsWritten, hrec.1, hrec.2, h.svWf, h.dbWf⟩

/-- Without a frame the invariant asks little (item 2). -/
theorem inv_of_idle {s : State} (hcfg : s.cfg.Legal) (hd : s.dst = .idle) (hframe : s.n = 0 ∧ s.t = 0 ∧ s.ph = 0)
    (hrec : RecordOk s) (hsv : s.sv.wf = true) (hdb : s.dbuf.wf = true) : s.Inv where
  cfgLegal := hcfg
  idleFrame _ := hframe
  frameBounds hne := absurd hd hne
  noPartialGroup hne := absurd hd hne
  doneComplete hdone := nomatch hd.symm.trans hdone
  finiteSet hne := absurd hd hne
  rowsWritten hne := absurd hd hne
  metricBound hne := absurd hd hne
  bitsWritten hdone := nomatch hd.symm.trans hdone
  noErrorRecorded := hrec.1
  errorRecorded := hrec.2
  svWf := hsv
  dbWf := hdb

theorem recordOk_of_clear {s : State} (hf : s.errflags = 0) (hl : s.lasterr = 0) : RecordOk s :=
  ⟨fun _ => hf, fun hne => absurd hl hne⟩

/-! ## The commands that write the frame -/

variable {s : State}

/-- A new frame begins with column 0 (43_viterbi_forward R157). -/
theorem inv_dstart (h : s.Inv) {k : Nat} (hk : 1 ≤ k) (hn : k ≤ s.cfg.nMax) (d : BitVec 56) :
    (respond d { s with n := BitVec.ofNat 16 k, t := 0, ph := 0, pm := column0, dst := .run }).Inv := by
  have hk16 : (BitVec.ofNat 16 k).toNat = k := by
    have hle : k ≤ 65535 := hn.trans h.cfgLegal.2
    rw [BitVec.toNat_ofNat]
    omega
  exact {
    cfgLegal := h.cfgLegal
    idleFrame := nofun
    frameBounds _ := ⟨hk16.symm ▸ hk, hk16.symm ▸ hn, Nat.zero_le _⟩
    noPartialGroup _ _ := rfl
    doneComplete := nofun
    finiteSet _ := finiteAt_column0
    rowsWritten _ t' i h1 h2 := absurd (h1.trans h2) (by simp)
    metricBound _ := boundedAt_column0
    bitsWritten := nofun
    noErrorRecorded := h.noErrorRecorded
    errorRecorded := h.errorRecorded
    svWf := h.svWf
    dbWf := h.dbWf }

/-- A held sample changes `ybuf` and `ph` only, within a frame that is not complete (43_viterbi_forward R158). -/
theorem inv_dsampHeld (h : s.Inv) (hd : s.dst = .run) (ht : s.t ≠ s.n) (d : BitVec 56) (yb : Vector Sample 3)
    (p : BitVec 2) : (respond d { s with ybuf := yb, ph := p }).Inv where
  cfgLegal := h.cfgLegal
  idleFrame hidle := nomatch hd.symm.trans hidle
  frameBounds := h.frameBounds
  noPartialGroup _ heq := absurd heq ht
  doneComplete := h.doneComplete
  finiteSet := h.finiteSet
  rowsWritten := h.rowsWritten
  metricBound := h.metricBound
  bitsWritten := h.bitsWritten
  noErrorRecorded := h.noErrorRecorded
  errorRecorded := h.errorRecorded
  svWf := h.svWf
  dbWf := h.dbWf

/-- In an incomplete frame `t` does not wrap (10_state R24). -/
theorem toNat_succ_of_lt {x y : BitVec 16} (h : x.toNat < y.toNat) : (x + 1).toNat = x.toNat + 1 := by
  have := y.isLt
  have h1 : (1 : BitVec 16).toNat = 1 := rfl
  rw [BitVec.toNat_add, h1]
  omega

/-- The time step of an incomplete frame is below the frame's length (10_state R34 item 3). -/
theorem t_lt_n_of_inv (h : s.Inv) (hd : s.dst ≠ .idle) (ht : s.t ≠ s.n) : s.t.toNat < s.n.toNat := by
  obtain ⟨-, -, hle⟩ := h.frameBounds hd
  exact Nat.lt_of_le_of_ne hle fun heq => ht (BitVec.eq_of_toNat_eq heq)

/-- A completed time step moves items 5 to 7 from `t` to `t + 1` (43_viterbi_forward R158, R167). -/
theorem inv_dsampStepped (h : s.Inv) (hd : s.dst = .run) (ht : s.t ≠ s.n) {y : Sample} {sv' : Memory 5}
    (hw : svWriteRow s.cfg s.sv (s.t.toNat + 1) (stepRow s.pm (heldGroup s y)) = .ok sv') :
    (steppedState y s sv').Inv := by
  have hne : s.dst ≠ .idle := by simp [hd]
  have hlt := t_lt_n_of_inv h hne ht
  have hsucc : (s.t + 1).toNat = s.t.toNat + 1 := toNat_succ_of_lt hlt
  obtain ⟨-, hnew, hold, hwf⟩ := svWriteRow_ok hw
  obtain ⟨h1, hn, -⟩ := h.frameBounds hne
  have hrows (t' : Nat) (i : Idx) (h1 : 1 ≤ t') (h2 : t' ≤ s.t.toNat + 1) :
      ∃ e, sv'.read (svAddr t' i) = some e ∧ EntryOk t' i e := by
    obtain rfl | h2 := Nat.eq_or_lt_of_le h2
    · exact ⟨_, hnew i, entryOk_stepRow (h.finiteSet hne) _ i⟩
    · rw [hold _ fun j hj => by have := (svAddr_inj hj).1; omega]
      exact h.rowsWritten hne t' i h1 (Nat.le_of_lt_succ h2)
  exact {
    cfgLegal := h.cfgLegal
    idleFrame hidle := absurd hidle hne
    frameBounds _ := ⟨h1, hn, hsucc.symm ▸ hlt⟩
    noPartialGroup _ _ := rfl
    doneComplete hdone := nomatch hd.symm.trans hdone
    finiteSet _ := hsucc.symm ▸ finiteAt_stepColumn (h.finiteSet hne) _
    rowsWritten _ := hsucc.symm ▸ hrows
    metricBound _ := hsucc.symm ▸ boundedAt_stepColumn (h.metricBound hne) _
    bitsWritten hdone := nomatch hd.symm.trans hdone
    noErrorRecorded := h.noErrorRecorded
    errorRecorded := h.errorRecorded
    svWf := hwf h.svWf
    dbWf := h.dbWf }

/-- A traceback writes every decoded bit of a complete frame (44_viterbi_traceback R188). -/
theorem inv_dterm (h : s.Inv) (hd : s.dst = .run) (ht : s.t = s.n) {db : Memory 1} {cur : Idx}
    (htr : traceback s.cfg s.sv s.n.toNat cur s.dbuf = .ok db) (d : BitVec 56) :
    (respond d { s with dbuf := db, dst := .done }).Inv := by
  have hne : s.dst ≠ .idle := by simp [hd]
  obtain ⟨-, hwf, hbits⟩ := traceback_ok htr
  exact {
    cfgLegal := h.cfgLegal
    idleFrame := nofun
    frameBounds _ := h.frameBounds hne
    noPartialGroup _ := h.noPartialGroup hne
    doneComplete _ := ht
    finiteSet _ := h.finiteSet hne
    rowsWritten _ := h.rowsWritten hne
    metricBound _ := h.metricBound hne
    bitsWritten _ := hbits
    noErrorRecorded := h.noErrorRecorded
    errorRecorded := h.errorRecorded
    svWf := h.svWf
    dbWf := hwf h.dbWf }

/-! ## Every step keeps the invariant -/

/-- Every command keeps the invariant, by its effects. -/
theorem effect_inv {i : Instr} {t : State} (h : s.Inv) (heff : Effect s i t) : t.Inv := by
  have hrec : RecordOk s := ⟨h.noErrorRecorded, h.errorRecorded⟩
  cases heff with
  | read _ d => exact inv_of_dec_eq h rfl hrec
  | readRefused _ e => exact inv_of_dec_eq h rfl (recordOk_raise e s)
  | reset => exact inv_of_idle h.cfgLegal rfl ⟨rfl, rfl, rfl⟩ (recordOk_of_clear rfl rfl) h.svWf h.dbWf
  | clrerr => exact inv_of_dec_eq h rfl (recordOk_of_clear rfl rfl)
  | estart => exact inv_of_dec_eq h rfl hrec
  | ebitFailed _ => exact inv_of_dec_eq h rfl (recordOk_raise .seq s)
  | ebitBadBit _ _ => exact inv_of_dec_eq h rfl (recordOk_raise .bit _)
  | ebit _ _ u => exact inv_of_dec_eq h rfl hrec
  | dstartRefused e => exact inv_of_idle h.cfgLegal rfl ⟨rfl, rfl, rfl⟩ (recordOk_raise e _) h.svWf h.dbWf
  | dstart hl hm hn => exact inv_dstart h (by omega) hn _
  | dsampRefused => exact inv_of_dec_eq h rfl (recordOk_raise .seq s)
  | dsampHeld hd ht _ => exact inv_dsampHeld h hd ht _ _ _
  | dsampStepped hd ht _ sv' hw => exact inv_dsampStepped h hd ht hw
  | dtermRefused => exact inv_of_dec_eq h rfl (recordOk_raise .seq s)
  | dterm hd ht db htr => exact inv_dterm h hd ht htr _

/-- The invariant does not speak of what the host sends. -/
theorem inv_inputs (h : s.Inv) (rest : List HostInput) : State.Inv { s with inputs := rest } :=
  inv_of_dec_eq h rfl ⟨h.noErrorRecorded, h.errorRecorded⟩

/-- Settles O56: a step is idle, resets, carries out a command or refuses a word, and each keeps the invariant. -/
theorem invKeptByEveryStep : Obligations.InvKeptByEveryStep := by
  intro s t h hstep
  obtain ⟨-, rfl⟩ | ⟨rest, -, rfl⟩ | ⟨w, rest, i, -, -, heff⟩ | ⟨w, rest, e, -, -, rfl⟩ := step_effect hstep
  · exact inv_of_dec_eq h rfl ⟨h.noErrorRecorded, h.errorRecorded⟩
  · exact inv_of_idle h.cfgLegal rfl ⟨rfl, rfl, rfl⟩ (recordOk_of_clear rfl rfl) h.svWf h.dbWf
  · exact effect_inv (inv_inputs h rest) heff
  · exact inv_of_dec_eq h rfl (recordOk_raise .op _)

/-- Settles O57: at reset there is no frame and no error, and the memories list nothing. -/
theorem invAtReset : Obligations.InvAtReset :=
  inv_of_idle (s := State.reset) (by decide) rfl ⟨rfl, rfl, rfl⟩ (recordOk_of_clear rfl rfl) rfl rfl

end Sys2Proof.Proofs
end

section
/-! PROOFS. The commands that can stop the machine, an equation per case, and where they stop (logs 6, 8, 9): by name
outside the invariant of 10_state R34, never inside it. -/

namespace Sys2Proof.Proofs

open Sys2Proof.Machine Sys2Proof.Laws

/-! ## Checked accesses that fault -/

theorem svRead_unwritten {c : Config} {m : Memory 5} {t' : Nat} {i : Idx} (h1 : 1 ≤ t') (h2 : t' ≤ c.nMax)
    (hr : m.read (svAddr t' i) = none) : svRead c m t' i = .error (.svUnwritten (svAddr t' i)) := by
  simp [svRead, svRowExists, h1, h2, hr]

theorem svRead_beyond {c : Config} {m : Memory 5} {t' : Nat} {i : Idx} (h : c.nMax < t') :
    svRead c m t' i = .error (.svNoAddress (svAddr t' i)) := by
  simp [svRead, svRowExists, Nat.not_le.2 h]

theorem dbRead_unwritten {c : Config} {m : Memory 1} {k : Nat} (h : k < c.nMax) (hr : m.read k = none) :
    dbRead c m k = .error (.dbUnwritten k) := by
  simp [dbRead, dbExists, h, hr]

theorem dbRead_beyond {c : Config} {m : Memory 1} {k : Nat} (h : c.nMax ≤ k) :
    dbRead c m k = .error (.dbNoAddress k) := by
  simp [dbRead, dbExists, Nat.not_lt.2 h]

theorem svWriteRow_beyond {c : Config} {m : Memory 5} {t' : Nat} {row : Vector SvEntry 8} (h : c.nMax < t') :
    svWriteRow c m t' row = .error (.svNoAddress (svAddr t' 0)) := by
  simp [svWriteRow, svRowExists, Nat.not_le.2 h]

theorem backPointer_invalid {c : Config} {sv : Memory 5} {k : Nat} {cur : Idx} {e : BitVec 5} (h1 : 1 ≤ k)
    (h2 : k ≤ c.nMax) (he : sv.read (svAddr k cur) = some e) (hv : entryValid e = false) :
    backPointer c sv k cur = .error (.missingBackPointer (svAddr k cur)) := by
  simp [backPointer, svRead_ok.2 ⟨⟨h1, h2⟩, he⟩, hv]

/-- A traceback stops where its first back-pointer is missing. -/
theorem traceback_error {c : Config} {sv : Memory 5} {k : Nat} {cur : Idx} {db : Memory 1} {f : Fault} (hk : 1 ≤ k)
    (h : backPointer c sv k cur = .error f) : traceback c sv k cur db = .error f := by
  obtain ⟨j, rfl⟩ : ∃ j, k = j + 1 := ⟨k - 1, by omega⟩
  simp only [traceback, h]

/-! ## The commands that read no state -/

/-- The command answers, or raises its error, whatever the state: its operands alone decide (40_symbol_mapper R113,
R114, 41_trellis_model R130). -/
def AnswersUniformly (i : Instr) : Prop :=
  (∃ e, ∀ s, exec i s = fail e s) ∨ ∃ d, ∀ s, exec i s = answer d s

theorem nop_uniform : AnswersUniformly .nop := .inr ⟨_, fun _ => rfl⟩

theorem s2b_uniform (y : Sample) : AnswersUniformly (.s2b y) := .inr ⟨_, fun _ => rfl⟩

theorem b2s_uniform (b : BitVec 24) : AnswersUniformly (.b2s b) := by
  unfold AnswersUniformly
  simp only [exec, execB2s]
  cases asBit b with
  | none => exact .inl ⟨_, fun _ => rfl⟩
  | some u => exact .inr ⟨_, fun _ => rfl⟩

theorem trans_uniform (q b : BitVec 8) : AnswersUniformly (.trans q b) := by
  unfold AnswersUniformly
  simp only [exec, execTrans]
  cases asIdx q with
  | none => exact .inl ⟨_, fun _ => rfl⟩
  | some i =>
    cases asBit b with
    | none => exact .inl ⟨_, fun _ => rfl⟩
    | some u => exact .inr ⟨_, fun _ => rfl⟩

/-! ## The other commands, an equation per case -/

variable {s : State}

theorem exec_ebit_failed {b : BitVec 24} (hf : s.eflt = true) : exec (.ebit b) s = fail .seq s :=
  if_pos hf

theorem exec_ebit_badBit {b : BitVec 24} (hf : s.eflt = false) (hb : 1 < b.toNat) :
    exec (.ebit b) s = fail .bit { s with eflt := true } := by
  simp only [exec, execEbit, hf, asBit_of_gt hb, Bool.false_eq_true, if_false]

theorem exec_ebit_ok {b : BitVec 24} {u : Bit} (hf : s.eflt = false) (hu : asBit b = some u) :
    exec (.ebit b) s = .next (respondCw (transition s.encState u).data (transition s.encState u).samples
      { s with encState := (transition s.encState u).next }) := by
  simp only [exec, execEbit, hf, hu, Bool.false_eq_true, if_false]

theorem exec_dstart_len {len : BitVec 24} (hl : len.toNat = 0 ∨ len.toNat % 4 ≠ 0) :
    exec (.dstart len) s = fail .len (abandonFrame s) :=
  if_pos hl

theorem exec_dstart_cap {len : BitVec 24} (hl : len.toNat ≠ 0) (hm : len.toNat % 4 = 0)
    (hn : s.cfg.nMax < len.toNat / 4) : exec (.dstart len) s = fail .cap (abandonFrame s) :=
  (if_neg (by simp [hl, hm])).trans (if_pos hn)

theorem exec_dstart_ok {len : BitVec 24} (hl : len.toNat ≠ 0) (hm : len.toNat % 4 = 0)
    (hn : len.toNat / 4 ≤ s.cfg.nMax) :
    exec (.dstart len) s = answer (zext56 (BitVec.ofNat 16 (len.toNat / 4)))
      { s with n := BitVec.ofNat 16 (len.toNat / 4), t := 0, ph := 0, pm := column0, dst := .run } :=
  (if_neg (by simp [hl, hm])).trans (if_neg (Nat.not_lt.2 hn))

theorem exec_rdpm_idle {i : Idx} (hd : s.dst = .idle) : exec (.rdpm i) s = fail .seq s :=
  if_pos hd

theorem exec_rdsv_idle {tt : BitVec 16} {i : Idx} (hd : s.dst = .idle) : exec (.rdsv tt i) s = fail .seq s :=
  if_pos hd

theorem exec_rdsv_range {tt : BitVec 16} {i : Idx} (hd : s.dst ≠ .idle) (ht : tt.toNat < 1 ∨ s.t.toNat < tt.toNat) :
    exec (.rdsv tt i) s = fail .idx s :=
  (if_neg hd).trans (if_pos ht)

theorem exec_rdsv_ok {tt : BitVec 16} {i : Idx} {e : BitVec 5} (hd : s.dst ≠ .idle) (h1 : 1 ≤ tt.toNat)
    (h2 : tt.toNat ≤ s.t.toNat) (he : svRead s.cfg s.sv tt.toNat i = .ok e) :
    exec (.rdsv tt i) s = answer (zext56 e) s := by
  have hr : ¬ (tt.toNat < 1 ∨ s.t.toNat < tt.toNat) := by omega
  simp only [exec, execRdsv, if_neg hd, if_neg hr, he]

theorem exec_rdsv_fault {tt : BitVec 16} {i : Idx} {f : Fault} (hd : s.dst ≠ .idle) (h1 : 1 ≤ tt.toNat)
    (h2 : tt.toNat ≤ s.t.toNat) (he : svRead s.cfg s.sv tt.toNat i = .error f) :
    exec (.rdsv tt i) s = .fault f := by
  have hr : ¬ (tt.toNat < 1 ∨ s.t.toNat < tt.toNat) := by omega
  simp only [exec, execRdsv, if_neg hd, if_neg hr, he]

theorem exec_drd_refused {k : BitVec 16} (hd : s.dst ≠ .done) : exec (.drd k) s = fail .seq s :=
  if_pos hd

theorem exec_drd_range {k : BitVec 16} (hd : s.dst = .done) (hk : s.n.toNat ≤ k.toNat) :
    exec (.drd k) s = fail .idx s :=
  (if_neg (not_not.2 hd)).trans (if_pos hk)

theorem exec_drd_ok {k : BitVec 16} {b : Bit} (hd : s.dst = .done) (hk : k.toNat < s.n.toNat)
    (hb : dbRead s.cfg s.dbuf k.toNat = .ok b) : exec (.drd k) s = answer (zext56 b) s := by
  simp only [exec, execDrd, if_neg (not_not.2 hd), if_neg (Nat.not_le.2 hk), hb]

theorem exec_drd_fault {k : BitVec 16} {f : Fault} (hd : s.dst = .done) (hk : k.toNat < s.n.toNat)
    (hb : dbRead s.cfg s.dbuf k.toNat = .error f) : exec (.drd k) s = .fault f := by
  simp only [exec, execDrd, if_neg (not_not.2 hd), if_neg (Nat.not_le.2 hk), hb]

theorem exec_dsamp_refused {y : Sample} (h : s.dst ≠ .run ∨ s.t = s.n) : exec (.dsamp y) s = fail .seq s :=
  if_pos h

theorem exec_dsamp_held {y : Sample} (hd : s.dst = .run) (ht : s.t ≠ s.n) (hp : s.ph.toNat < 3) :
    exec (.dsamp y) s = holdSample y s :=
  (if_neg (by simp [hd, ht])).trans (if_pos hp)

theorem exec_dsamp_stepped {y : Sample} {sv' : Memory 5} (hd : s.dst = .run) (ht : s.t ≠ s.n) (hp : s.ph = 3#2)
    (hw : svWriteRow s.cfg s.sv (s.t.toNat + 1) (stepRow s.pm (heldGroup s y)) = .ok sv') :
    exec (.dsamp y) s = .next (steppedState y s sv') := by
  have hr : ¬ (s.dst ≠ .run ∨ s.t = s.n) := by simp [hd, ht]
  have hp' : ¬ s.ph.toNat < 3 := by simp [hp]
  simp only [exec, execDsamp, if_neg hr, if_neg hp', completeStep, hw, answer, steppedState]

theorem exec_dsamp_fault {y : Sample} {f : Fault} (hd : s.dst = .run) (ht : s.t ≠ s.n) (hp : s.ph = 3#2)
    (hw : svWriteRow s.cfg s.sv (s.t.toNat + 1) (stepRow s.pm (heldGroup s y)) = .error f) :
    exec (.dsamp y) s = .fault f := by
  have hr : ¬ (s.dst ≠ .run ∨ s.t = s.n) := by simp [hd, ht]
  have hp' : ¬ s.ph.toNat < 3 := by simp [hp]
  simp only [exec, execDsamp, if_neg hr, if_neg hp', completeStep, hw]

theorem exec_dterm_refused (h : s.dst ≠ .run ∨ s.t ≠ s.n) : exec .dterm s = fail .seq s :=
  if_pos h

theorem exec_dterm_ok {db : Memory 1} (hd : s.dst = .run) (ht : s.t = s.n)
    (htr : traceback s.cfg s.sv s.n.toNat (term s.pm) s.dbuf = .ok db) :
    exec .dterm s =
      answer (dtermData (at8 s.pm (term s.pm)) (term s.pm)) { s with dbuf := db, dst := .done } := by
  have hr : ¬ (s.dst ≠ .run ∨ s.t ≠ s.n) := by simp [hd, ht]
  simp only [exec, execDterm, if_neg hr, htr]

theorem exec_dterm_fault {f : Fault} (hd : s.dst = .run) (ht : s.t = s.n)
    (htr : traceback s.cfg s.sv s.n.toNat (term s.pm) s.dbuf = .error f) : exec .dterm s = .fault f := by
  have hr : ¬ (s.dst ≠ .run ∨ s.t ≠ s.n) := by simp [hd, ht]
  simp only [exec, execDterm, if_neg hr, htr]

/-- A two-bit phase that is not below 3 is 3. -/
theorem ph_eq_three {p : BitVec 2} (h : ¬ p.toNat < 3) : p = 3#2 := by
  have := p.isLt
  apply BitVec.eq_of_toNat_eq
  rw [BitVec.toNat_ofNat]
  omega

/-! ## Outside the invariant -/

/-- Settles O60: each clause is the fault of one checked access, taken through the command that makes it. -/
theorem stopsByName : Obligations.StopsByName := by
  refine ⟨?rdsvUnwritten, ?rdsvBeyond, ?drdUnwritten, ?drdBeyond, ?dsampBeyond, ?dtermMissing⟩
  case rdsvUnwritten =>
    intro s tt i hd h1 h2 hmax hr
    exact exec_rdsv_fault hd h1 h2 (svRead_unwritten h1 hmax hr)
  case rdsvBeyond =>
    intro s tt i hd h1 h2 hmax
    exact exec_rdsv_fault hd h1 h2 (svRead_beyond hmax)
  case drdUnwritten =>
    intro s k hd hk hmax hr
    exact exec_drd_fault hd hk (dbRead_unwritten hmax hr)
  case drdBeyond =>
    intro s k hd hk hmax
    exact exec_drd_fault hd hk (dbRead_beyond hmax)
  case dsampBeyond =>
    intro s y hd ht hp hmax
    exact exec_dsamp_fault hd ht hp (svWriteRow_beyond (Nat.lt_succ_of_le hmax))
  case dtermMissing =>
    intro s e hd ht h1 hmax he hv
    exact exec_dterm_fault hd ht (traceback_error h1 (backPointer_invalid h1 hmax he hv))

/-! ## Inside the invariant -/

theorem safe_answer (d : BitVec 56) (s : State) : Safe (answer d s) := ⟨_, rfl⟩

theorem safe_fail (e : Err) (s : State) : Safe (fail e s) := ⟨_, rfl⟩

theorem isInf_of_lt {x y : Metric} (h : x.lt y = true) : x.isInf = false := by
  cases x with
  | inf => simp at h
  | fin m => rfl

theorem isInf_of_not_lt {x y : Metric} (hx : x.isInf = false) (h : ¬ x.lt y = true) : y.isInf = false := by
  cases y with
  | inf => cases x with
    | inf => exact hx
    | fin m => exact absurd rfl h
  | fin m => rfl

/-- The scan for the least metric ends at a finite one as soon as it meets a finite one. -/
theorem foldl_least_finite {pm : Vector Metric 8} {is : List Idx} {best : Idx}
    (h : (at8 pm best).isInf = false ∨ ∃ i ∈ is, (at8 pm i).isInf = false) :
    (at8 pm (is.foldl (fun best i => if (at8 pm i).lt (at8 pm best) then i else best) best)).isInf = false := by
  induction is generalizing best with
  | nil => simpa using h
  | cons j is ih =>
    rw [List.foldl_cons]
    apply ih
    split
    · next hlt => exact .inl (isInf_of_lt hlt)
    · next hlt =>
      obtain hb | ⟨i, hi, hfin⟩ := h
      · exact .inl hb
      · obtain rfl | hi := List.mem_cons.1 hi
        · exact .inl (isInf_of_not_lt hfin hlt)
        · exact .inr ⟨i, hi, hfin⟩

theorem mem_allStates (i : Idx) : i ∈ allStates := by revert i; decide

/-- The terminal state has a finite metric when any state has one (44_viterbi_traceback R186). -/
theorem term_finite {pm : Vector Metric 8} {i : Idx} (h : (at8 pm i).isInf = false) :
    (at8 pm (term pm)).isInf = false :=
  foldl_least_finite (.inr ⟨i, mem_allStates i, h⟩)

/-- The traceback never meets a missing back-pointer (44_viterbi_traceback R189): from a reachable state each entry is
valid and leads to a reachable state one step earlier. -/
theorem traceback_exists {c : Config} {sv : Memory 5} {k : Nat} (hk : k ≤ c.nMax)
    (hrows : ∀ t' i, 1 ≤ t' → t' ≤ k → ∃ e, sv.read (svAddr t' i) = some e ∧ EntryOk t' i e) {cur : Idx}
    (hcur : reachableAt k cur = true) (db : Memory 1) : ∃ db', traceback c sv k cur db = .ok db' := by
  induction k generalizing cur db with
  | zero => exact ⟨db, rfl⟩
  | succ k ih =>
    obtain ⟨e, he, hvalid, hsome, -⟩ := hrows (k + 1) cur (Nat.le_add_left 1 k) le_rfl
    have hv : entryValid e = true := hvalid.trans hcur
    obtain ⟨-, -, hpred⟩ := hsome hv
    have hbp : backPointer c sv (k + 1) cur = .ok (entryPred e, entryBit e) :=
      backPointer_ok.2 ⟨e, ⟨Nat.le_add_left 1 k, hk⟩, he, hv, rfl, rfl⟩
    have hw : dbWrite c db k (entryBit e) = .ok (db.write k (entryBit e)) := dbWrite_ok.2 ⟨hk, rfl⟩
    simp only [traceback, hbp, hw]
    exact ih (Nat.le_of_succ_le hk) (fun t' i h1 h2 => hrows t' i h1 (Nat.le_succ_of_le h2)) hpred _

theorem safe_rdsv (h : s.Inv) (tt : BitVec 16) (i : Idx) : Safe (exec (.rdsv tt i) s) := by
  by_cases hd : s.dst = .idle
  · rw [exec_rdsv_idle hd]; exact safe_fail _ _
  · by_cases ht : tt.toNat < 1 ∨ s.t.toNat < tt.toNat
    · rw [exec_rdsv_range hd ht]; exact safe_fail _ _
    · obtain ⟨h1, h2⟩ : 1 ≤ tt.toNat ∧ tt.toNat ≤ s.t.toNat := by omega
      obtain ⟨-, hn, hle⟩ := h.frameBounds hd
      obtain ⟨e, he, -⟩ := h.rowsWritten hd tt.toNat i h1 h2
      rw [exec_rdsv_ok hd h1 h2 (svRead_ok.2 ⟨⟨h1, h2.trans (hle.trans hn)⟩, he⟩)]
      exact safe_answer _ _

theorem safe_drd (h : s.Inv) (k : BitVec 16) : Safe (exec (.drd k) s) := by
  by_cases hd : s.dst = .done
  · by_cases hk : s.n.toNat ≤ k.toNat
    · rw [exec_drd_range hd hk]; exact safe_fail _ _
    · have hk : k.toNat < s.n.toNat := Nat.lt_of_not_le hk
      obtain ⟨-, hn, -⟩ := h.frameBounds (by simp [hd])
      obtain ⟨b, hb⟩ := h.bitsWritten hd k.toNat hk
      rw [exec_drd_ok hd hk (dbRead_ok.2 ⟨hk.trans_le hn, hb⟩)]
      exact safe_answer _ _
  · rw [exec_drd_refused hd]; exact safe_fail _ _

theorem safe_dsamp (h : s.Inv) (y : Sample) : Safe (exec (.dsamp y) s) := by
  by_cases hr : s.dst ≠ .run ∨ s.t = s.n
  · rw [exec_dsamp_refused hr]; exact safe_fail _ _
  · obtain ⟨hd, ht⟩ : s.dst = .run ∧ s.t ≠ s.n := by simpa using hr
    by_cases hp : s.ph.toNat < 3
    · rw [exec_dsamp_held hd ht hp]; exact safe_answer _ _
    · have hne : s.dst ≠ .idle := by simp [hd]
      obtain ⟨-, hn, -⟩ := h.frameBounds hne
      obtain ⟨sv', hw⟩ := svWriteRow_exists s.cfg s.sv (s.t.toNat + 1) (stepRow s.pm (heldGroup s y))
        (Nat.le_add_left 1 _) ((t_lt_n_of_inv h hne ht).trans_le hn)
      exact ⟨_, exec_dsamp_stepped hd ht (ph_eq_three hp) hw⟩

theorem safe_dterm (h : s.Inv) : Safe (exec .dterm s) := by
  by_cases hr : s.dst ≠ .run ∨ s.t ≠ s.n
  · rw [exec_dterm_refused hr]; exact safe_fail _ _
  · obtain ⟨hd, ht⟩ : s.dst = .run ∧ s.t = s.n := by simpa using hr
    have hne : s.dst ≠ .idle := by simp [hd]
    obtain ⟨-, hn, -⟩ := h.frameBounds hne
    have hterm : reachableAt s.n.toNat (term s.pm) = true := by
      have hfin : (at8 s.pm (term s.pm)).isInf = false := term_finite (i := 7#3) (by simp [h.finiteSet hne])
      simpa [h.finiteSet hne, ht] using hfin
    obtain ⟨db, htr⟩ := traceback_exists hn (ht ▸ h.rowsWritten hne) hterm s.dbuf
    rw [exec_dterm_ok hd ht htr]
    exact safe_answer _ _

theorem safe_uniform {i : Instr} (hu : AnswersUniformly i) (s : State) : Safe (exec i s) := by
  obtain ⟨e, he⟩ | ⟨d, hd⟩ := hu
  · exact he s ▸ safe_fail e s
  · exact hd s ▸ safe_answer d s

theorem safe_ebit (b : BitVec 24) (s : State) : Safe (exec (.ebit b) s) := by
  cases hf : s.eflt with
  | true => rw [exec_ebit_failed hf]; exact safe_fail _ _
  | false =>
    rcases Nat.lt_or_ge 1 b.toNat with hb | hb
    · rw [exec_ebit_badBit hf hb]; exact safe_fail _ _
    · exact ⟨_, exec_ebit_ok hf (asBit_of_le hb)⟩

theorem safe_dstart (len : BitVec 24) (s : State) : Safe (exec (.dstart len) s) := by
  by_cases hl : len.toNat = 0 ∨ len.toNat % 4 ≠ 0
  · rw [exec_dstart_len hl]; exact safe_fail _ _
  · obtain ⟨h0, hm⟩ : len.toNat ≠ 0 ∧ len.toNat % 4 = 0 := by omega
    rcases Nat.lt_or_ge s.cfg.nMax (len.toNat / 4) with hn | hn
    · rw [exec_dstart_cap h0 hm hn]; exact safe_fail _ _
    · rw [exec_dstart_ok h0 hm hn]; exact safe_answer _ _

theorem safe_rdpm (i : Idx) (s : State) : Safe (exec (.rdpm i) s) := by
  by_cases hd : s.dst = .idle
  · rw [exec_rdpm_idle hd]; exact safe_fail _ _
  · rw [exec_rdpm_of_frame i hd]; exact ⟨_, rfl⟩

/-- No command stops the machine; those without a memory access do not in any state. -/
theorem safe_exec (h : s.Inv) (i : Instr) : Safe (exec i s) := by
  cases i with
  | reset | rdstat | clrerr | estart => exact safe_answer _ _
  | nop => exact safe_uniform nop_uniform s
  | b2s b => exact safe_uniform (b2s_uniform b) s
  | s2b y => exact safe_uniform (s2b_uniform y) s
  | trans q b => exact safe_uniform (trans_uniform q b) s
  | ebit b => exact safe_ebit b s
  | dstart len => exact safe_dstart len s
  | rdpm i => exact safe_rdpm i s
  | dsamp y => exact safe_dsamp h y
  | dterm => exact safe_dterm h
  | drd k => exact safe_drd h k
  | rdsv tt i => exact safe_rdsv h tt i

/-- Settles O58: only a command can stop a step, and under the invariant none does. -/
theorem invNeverStops : Obligations.InvNeverStops := by
  intro s h
  obtain ⟨-, hs⟩ | ⟨rest, -, hs⟩ | ⟨w, rest, i, -, -, hs⟩ | ⟨w, rest, e, -, -, hs⟩ := step_cases s
  · exact ⟨_, hs⟩
  · exact ⟨_, hs⟩
  · rw [hs]; exact safe_exec (inv_inputs h rest) i
  · exact ⟨_, hs⟩

end Sys2Proof.Proofs
end

section
/-! PROOFS. What each command leaves unchanged (10_state R24, R36), the transitions of `eflt` and `dst` (R22, R23), the
error record (R29, R30), and the independence of the encoder and the decoder (R36). -/

namespace Sys2Proof.Proofs

open Sys2Proof.Machine Sys2Proof.Laws

/-! ## Words and commands, both ways (30_encoding R81, R85) -/

theorem decode_encode (i : Instr) : decode (encode i) = .ok i := by
  rw [decode_encode_fields]
  cases i with
  | nop => exact Fields.nop.1
  | reset => exact Fields.reset.1
  | rdstat => exact Fields.rdstat.1
  | clrerr => exact Fields.clrerr.1
  | b2s b => exact (Fields.b2s b).1
  | s2b y => exact (Fields.s2b y).1
  | trans q b => exact (Fields.trans q b).1
  | estart => exact Fields.estart.1
  | ebit b => exact (Fields.ebit b).1
  | dstart len => exact (Fields.dstart len).1
  | dsamp y => exact (Fields.dsamp y).1
  | dterm => exact Fields.dterm.1
  | drd k => exact (Fields.drd k).1
  | rdpm si => exact (Fields.rdpm si).1
  | rdsv tt si => exact (Fields.rdsv tt si).1

section Formats

variable {op : BitVec 8} {imm : BitVec 24} {i : Instr}

theorem formatZ_ok {j : Instr} (h : formatZ op imm j = .ok i) : i = j ∧ imm = 0 := by
  simp only [formatZ] at h
  split at h
  · next hz => exact ⟨(Except.ok.inj h).symm, hz⟩
  · cases h

theorem formatS_ok {f : BitVec 16 → Instr} (h : formatS op imm f = .ok i) : ∃ v, i = f v ∧ imm = 0#8 ++ v := by
  simp only [formatS] at h
  split at h
  · next hz =>
    have hjoin : imm.extractLsb' 16 8 ++ imm.extractLsb' 0 16 = imm :=
      (BitVec.extractLsb'_append_extractLsb'_eq_extractLsb' rfl).trans BitVec.extractLsb'_eq_self
    exact ⟨_, (Except.ok.inj h).symm, by rw [← hz, hjoin]⟩
  · cases h

theorem formatT_ok {f : BitVec 8 → BitVec 8 → Instr} (h : formatT op imm f = .ok i) :
    ∃ u v, i = f u v ∧ imm = 0#8 ++ u ++ v := by
  simp only [formatT] at h
  split at h
  · next hz =>
    have hhigh : imm.extractLsb' 16 8 ++ imm.extractLsb' 8 8 = imm.extractLsb' 8 16 :=
      BitVec.extractLsb'_append_extractLsb'_eq_extractLsb' rfl
    have hjoin : imm.extractLsb' 8 16 ++ imm.extractLsb' 0 8 = imm :=
      (BitVec.extractLsb'_append_extractLsb'_eq_extractLsb' rfl).trans BitVec.extractLsb'_eq_self
    exact ⟨_, _, (Except.ok.inj h).symm, by rw [← hz, hhigh, hjoin]⟩
  · cases h

theorem formatP_ok {f : Idx → Instr} (h : formatP op imm f = .ok i) : ∃ v, i = f v ∧ imm = 0#21 ++ v := by
  simp only [formatP] at h
  split at h
  · next hz =>
    have hjoin : imm.extractLsb' 3 21 ++ imm.extractLsb' 0 3 = imm :=
      (BitVec.extractLsb'_append_extractLsb'_eq_extractLsb' rfl).trans BitVec.extractLsb'_eq_self
    exact ⟨_, (Except.ok.inj h).symm, by rw [← hz, hjoin]⟩
  · cases h

theorem formatV_ok {f : BitVec 16 → Idx → Instr} (h : formatV op imm f = .ok i) :
    ∃ u v, i = f u v ∧ imm = 0#5 ++ u ++ v := by
  simp only [formatV] at h
  split at h
  · next hz =>
    have hhigh : imm.extractLsb' 19 5 ++ imm.extractLsb' 3 16 = imm.extractLsb' 3 21 :=
      BitVec.extractLsb'_append_extractLsb'_eq_extractLsb' rfl
    have hjoin : imm.extractLsb' 3 21 ++ imm.extractLsb' 0 3 = imm :=
      (BitVec.extractLsb'_append_extractLsb'_eq_extractLsb' rfl).trans BitVec.extractLsb'_eq_self
    exact ⟨_, _, (Except.ok.inj h).symm, by rw [← hz, hhigh, hjoin]⟩
  · cases h

/-- The fields of a legal word are the ones the encoder writes for its command. The cases are the opcodes in the order of
30_encoding R83, by format: B and L, S and K, T, P, V, no command, and Z for the rest. -/
theorem decodeFields_ok (h : decodeFields op imm = .ok i) : i.op = op ∧ i.imm = imm := by
  unfold decodeFields at h
  split at h
  case h_5 | h_9 | h_10 => cases h; exact ⟨rfl, rfl⟩
  case h_6 | h_11 | h_13 => obtain ⟨v, rfl, rfl⟩ := formatS_ok h; exact ⟨rfl, rfl⟩
  case h_7 => obtain ⟨u, v, rfl, rfl⟩ := formatT_ok h; exact ⟨rfl, rfl⟩
  case h_14 => obtain ⟨v, rfl, rfl⟩ := formatP_ok h; exact ⟨rfl, rfl⟩
  case h_15 => obtain ⟨u, v, rfl, rfl⟩ := formatV_ok h; exact ⟨rfl, rfl⟩
  case h_16 => cases h
  all_goals obtain ⟨rfl, rfl⟩ := formatZ_ok h; exact ⟨rfl, rfl⟩

end Formats

theorem encode_of_decode {w : Word} {i : Instr} (h : decode w = .ok i) : encode i = w := by
  obtain ⟨hop, himm⟩ := decodeFields_ok h
  rw [encode, hop, himm, op_append_imm]

/-! ## A step by its input -/

section Steps

variable {s t : State} {rest : List HostInput} {w : Word}

theorem step_command {i : Instr} (hin : s.inputs = .command w :: rest) (hd : decode w = .ok i)
    (h : step s = .next t) : Effect { s with inputs := rest } i t :=
  exec_effect ((stepRunsCommand s w rest i hin hd).symm.trans h)

theorem exec_of_step {i : Instr} (hin : s.inputs = .command (encode i) :: rest) (h : step s = .next t) :
    exec i { s with inputs := rest } = .next t :=
  (stepRunsCommand s (encode i) rest i hin (decode_encode i)).symm.trans h

theorem step_resetInput (hin : s.inputs = .resetInput :: rest) (h : step s = .next t) :
    t = hardwareReset { s with inputs := rest } := by
  simp only [step, nextInput, hin, Host.Outcome.next.injEq] at h
  exact h.symm

theorem step_illegal {e : IllegalWord} (hin : s.inputs = .command w :: rest) (hd : decode w = .error e)
    (h : step s = .next t) : t = raise .op { s with inputs := rest } := by
  simp only [step, nextInput, hin, hd] at h
  exact fail_next h

end Steps

/-! ## The error record (10_state R29, R30) -/

/-- A command that succeeds leaves the record; one that fails sets the flag of its code and `lasterr`. -/
def Recorded (s t : State) : Prop :=
  (t.succeeded = true ∧ t.errflags = s.errflags ∧ t.lasterr = s.lasterr) ∨
    ∃ e, t.succeeded = false ∧ t.rsp = some (errResponse e) ∧ t.errflags = s.errflags ||| e.flag ∧ t.lasterr = e.code

section Record

variable {s t : State} {i : Instr}

theorem recorded_raise (e : Err) {base : State} (hf : base.errflags = s.errflags) : Recorded s (raise e base) :=
  .inr ⟨e, raise_succeeded e base, rfl, by rw [raise_errflags, hf], rfl⟩

theorem recorded_respond (d : BitVec 56) {base : State} (hf : base.errflags = s.errflags)
    (hl : base.lasterr = s.lasterr) : Recorded s (respond d base) :=
  .inl ⟨respond_succeeded d base, hf, hl⟩

theorem effect_recorded (h : Effect s i t) (hr : i ≠ .reset) (hc : i ≠ .clrerr) : Recorded s t := by
  cases h with
  | read _ d => exact recorded_respond d rfl rfl
  | readRefused _ e => exact recorded_raise e rfl
  | reset => exact absurd rfl hr
  | clrerr => exact absurd rfl hc
  | estart => exact recorded_respond 0 rfl rfl
  | ebitFailed _ => exact recorded_raise .seq rfl
  | ebitBadBit _ _ => exact recorded_raise .bit rfl
  | ebit _ _ u => exact .inl ⟨respondCw_succeeded _ _ _, rfl, rfl⟩
  | dstartRefused e => exact recorded_raise e rfl
  | dstart _ _ _ => exact recorded_respond _ rfl rfl
  | dsampRefused => exact recorded_raise .seq rfl
  | dsampHeld _ _ _ => exact recorded_respond _ rfl rfl
  | dsampStepped _ _ _ sv' _ => exact recorded_respond _ rfl rfl
  | dtermRefused => exact recorded_raise .seq rfl
  | dterm _ _ db _ => exact recorded_respond _ rfl rfl

theorem Recorded.of_succeeded (h : Recorded s t) (hs : t.succeeded = true) :
    t.errflags = s.errflags ∧ t.lasterr = s.lasterr := by
  obtain ⟨-, hkept⟩ | ⟨e, hfail, -⟩ := h
  · exact hkept
  · rw [hfail] at hs; cases hs

theorem Recorded.of_failed (h : Recorded s t) (hs : t.succeeded = false) :
    ∃ r, t.rsp = some r ∧ t.lasterr = rspStatus r ∧
      t.errflags = s.errflags ||| (1#6 <<< ((rspStatus r).toNat - 1)) := by
  obtain ⟨hok, -⟩ | ⟨e, -, hrsp, hflags, hlast⟩ := h
  · rw [hs] at hok; cases hok
  · refine ⟨_, hrsp, ?_, ?_⟩
    · rw [rspStatus_err, hlast]
    · rw [rspStatus_err, hflags, flag_eq_shift]

/-- A recorded flag stays set. -/
theorem Recorded.sticky (h : Recorded s t) {k : Nat} (hk : s.errflags.getLsbD k = true) :
    t.errflags.getLsbD k = true := by
  obtain ⟨-, hflags, -⟩ | ⟨e, -, -, hflags, -⟩ := h
  · rw [hflags, hk]
  · rw [hflags, BitVec.getLsbD_or, hk, Bool.true_or]

end Record

/-! ## Frames (10_state R36) -/

/-- The encoder's commands. -/
def IsEncoderCommand (i : Instr) : Prop := i = .estart ∨ ∃ b, i = .ebit b

/-- The commands that write the decoder's state. -/
def IsDecoderWriter (i : Instr) : Prop := (∃ len, i = .dstart len) ∨ (∃ y, i = .dsamp y) ∨ i = .dterm

/-- The decoder's commands. -/
def IsDecoderCommand (i : Instr) : Prop :=
  (∃ len, i = .dstart len) ∨ (∃ y, i = .dsamp y) ∨ i = .dterm ∨ (∃ k, i = .drd k) ∨ (∃ x, i = .rdpm x) ∨
    (∃ tt x, i = .rdsv tt x)

section Frames

variable {s t : State} {i : Instr}

theorem effect_of_readsOnly (hi : readsOnly i = true) (h : Effect s i t) :
    (∃ d, t = respond d s) ∨ ∃ e, t = raise e s := by
  cases h with
  | read _ d => exact .inl ⟨d, rfl⟩
  | readRefused _ e => exact .inr ⟨e, rfl⟩
  | _ => cases hi

/-- Settles O51: such a command responds or raises an error on the state as it was. -/
theorem readCommandsFrame : Obligations.ReadCommandsFrame := by
  intro i s t hi h
  have hread : readsOnly i = true := by
    obtain rfl | rfl | ⟨b, rfl⟩ | ⟨y, rfl⟩ | ⟨q, b, rfl⟩ | ⟨k, rfl⟩ | ⟨x, rfl⟩ | ⟨tt, x, rfl⟩ := hi <;> rfl
  obtain ⟨d, rfl⟩ | ⟨e, rfl⟩ := effect_of_readsOnly hread (exec_effect h)
  · exact ⟨rfl, rfl, rfl, rfl, fun _ => ⟨rfl, rfl⟩, fun _ => rfl, fun _ => rfl⟩
  · exact ⟨rfl, rfl, rfl, rfl, fun hs => by simp at hs, fun _ => rfl, fun _ => rfl⟩

/-- The encoder's commands leave the decoder's state (10_state R36) and what the host sends. -/
theorem effect_encoder_frame (hi : IsEncoderCommand i) (h : Effect s i t) :
    t.dec = s.dec ∧ t.inputs = s.inputs ∧ (t.succeeded = false → t.encState = s.encState) := by
  obtain rfl | ⟨b, rfl⟩ := hi
  · cases h with
    | read hr _ | readRefused hr _ => cases hr
    | estart => exact ⟨rfl, rfl, by simp⟩
  · cases h with
    | read hr _ | readRefused hr _ => cases hr
    | ebitFailed _ | ebitBadBit _ _ => exact ⟨rfl, rfl, fun _ => rfl⟩
    | ebit _ _ u => exact ⟨rfl, rfl, by simp⟩

/-- Settles O52: both memories are part of the decoder's state. -/
theorem encoderCommandsFrame : Obligations.EncoderCommandsFrame := by
  intro i s t hi h
  have heff := exec_effect h
  obtain ⟨hdec, hin, henc⟩ := effect_encoder_frame hi heff
  have hrec : Recorded s t := by
    obtain rfl | ⟨b, rfl⟩ := hi <;> exact effect_recorded heff (by simp) (by simp)
  have hsv : t.sv = s.sv := congrArg DecView.sv hdec
  have hdb : t.dbuf = s.dbuf := congrArg DecView.dbuf hdec
  refine ⟨hdec, hin, hrec.of_succeeded, ?_, henc, fun a => by rw [hsv], fun a => by rw [hdb]⟩
  rintro rfl
  obtain rfl : t = respond 0 { s with encState := 7, eflt := false } := answer_next h
  exact ⟨rfl, rfl⟩

/-- The decoder's own commands leave the encoder's state, the platform parameter, what the host sends and `cw`. -/
theorem effect_decoder_frame (hi : IsDecoderWriter i) (h : Effect s i t) :
    t.enc = s.enc ∧ t.cfg = s.cfg ∧ t.inputs = s.inputs ∧ t.cw = none := by
  obtain ⟨len, rfl⟩ | ⟨y, rfl⟩ | rfl := hi
  all_goals cases h with
  | read hr _ | readRefused hr _ => cases hr
  | _ => exact ⟨rfl, rfl, rfl, rfl⟩

theorem effect_dstart_frame {len : BitVec 24} (h : Effect s (.dstart len) t) :
    t.ybuf = s.ybuf ∧ (∀ a, t.sv.read a = s.sv.read a) ∧ (∀ a, t.dbuf.read a = s.dbuf.read a) ∧
      (t.succeeded = false → t.pm = s.pm) := by
  cases h with
  | read hr _ | readRefused hr _ => cases hr
  | dstartRefused e => exact ⟨rfl, fun _ => rfl, fun _ => rfl, fun _ => rfl⟩
  | dstart _ _ _ => exact ⟨rfl, fun _ => rfl, fun _ => rfl, by simp⟩

theorem effect_dsamp_frame {y : Sample} (h : Effect s (.dsamp y) t) :
    t.dst = s.dst ∧ t.n = s.n ∧ (∀ a, t.dbuf.read a = s.dbuf.read a) ∧
      (∀ a, (t.succeeded = true → s.ph = 3#2 → ∀ x : Idx, a ≠ svAddr (s.t.toNat + 1) x) →
        t.sv.read a = s.sv.read a) ∧
      (t.succeeded = true → s.ph = 3#2 → t.ybuf = s.ybuf) ∧
      (t.succeeded = true → s.ph ≠ 3#2 → t.pm = s.pm ∧ t.t = s.t) ∧
      (t.succeeded = false → t.dec = s.dec) := by
  cases h with
  | read hr _ | readRefused hr _ => cases hr
  | dsampRefused =>
    exact ⟨rfl, rfl, fun _ => rfl, fun _ _ => rfl, fun _ _ => rfl, fun _ _ => ⟨rfl, rfl⟩, fun _ => rfl⟩
  | dsampHeld _ _ hp =>
    refine ⟨rfl, rfl, fun _ => rfl, fun _ _ => rfl, fun _ h3 => ?_, fun _ _ => ⟨rfl, rfl⟩, by simp⟩
    simp [h3] at hp
  | dsampStepped _ _ hp sv' hw =>
    obtain ⟨-, -, hold, -⟩ := svWriteRow_ok hw
    exact ⟨rfl, rfl, fun _ => rfl, fun a ha => hold a (ha (steppedState_succeeded _ _ _) hp), fun _ _ => rfl,
      fun _ h3 => absurd hp h3, by simp⟩

theorem effect_dterm_frame (h : Effect s .dterm t) :
    t.n = s.n ∧ t.t = s.t ∧ t.ph = s.ph ∧ t.ybuf = s.ybuf ∧ t.pm = s.pm ∧ (∀ a, t.sv.read a = s.sv.read a) ∧
      (∀ a, (t.succeeded = true → s.n.toNat ≤ a) → t.dbuf.read a = s.dbuf.read a) := by
  cases h with
  | read hr _ | readRefused hr _ => cases hr
  | dtermRefused => exact ⟨rfl, rfl, rfl, rfl, rfl, fun _ => rfl, fun _ _ => rfl⟩
  | dterm _ _ db htr =>
    obtain ⟨hold, -, -⟩ := traceback_ok htr
    exact ⟨rfl, rfl, rfl, rfl, rfl, fun _ => rfl, fun a ha => hold a (ha (respond_succeeded _ _))⟩

/-- Settles O53: the common part, then the part of each command. -/
theorem decoderCommandsFrame : Obligations.DecoderCommandsFrame := by
  intro i s t hi h
  have heff := exec_effect h
  obtain ⟨henc, hcfg, hin, hcw⟩ := effect_decoder_frame hi heff
  have hrec : Recorded s t := by
    obtain ⟨len, rfl⟩ | ⟨y, rfl⟩ | rfl := hi <;> exact effect_recorded heff (by simp) (by simp)
  refine ⟨henc, hcfg, hin, hcw, hrec.of_succeeded, ?_, ?_, ?_⟩
  · rintro len rfl; exact effect_dstart_frame heff
  · rintro y rfl; exact effect_dsamp_frame heff
  · rintro rfl; exact effect_dterm_frame heff

/-- Settles O54: `resetRegs` and `clearErrors` write registers only. -/
theorem resetCommandsFrame : Obligations.ResetCommandsFrame := by
  rintro i s t (rfl | rfl) h
  · obtain rfl : t = respond 0 (resetRegs s) := answer_next h
    exact ⟨rfl, rfl, fun _ => rfl, fun _ => rfl, rfl, rfl, rfl, nofun⟩
  · obtain rfl : t = respond 0 (clearErrors s) := answer_next h
    exact ⟨rfl, rfl, fun _ => rfl, fun _ => rfl, rfl, rfl, rfl, fun _ => ⟨rfl, rfl⟩⟩

end Frames

/-! ## Independence of the two halves (10_state R36) -/

section Independence

variable {s s' t t' : State} {i : Instr}

/-- An encoder command answers the same from every state with the same encoder part. -/
theorem exec_encoder_congr (hi : IsEncoderCommand i) (he : s.enc = s'.enc) (h : exec i s = .next t) :
    ∃ t', exec i s' = .next t' ∧ t.enc = t'.enc ∧ t.rsp = t'.rsp ∧ t.cw = t'.cw := by
  have hq : s'.encState = s.encState := congrArg EncView.encState he.symm
  have hf : s'.eflt = s.eflt := congrArg EncView.eflt he.symm
  obtain rfl | ⟨b, rfl⟩ := hi
  · obtain rfl := answer_next h
    exact ⟨_, rfl, rfl, rfl, rfl⟩
  · obtain ⟨hs, rfl⟩ | ⟨hs, hb, rfl⟩ | ⟨hs, -, u, hu, rfl⟩ := execEbit_cases h
    · exact ⟨_, exec_ebit_failed (hf.trans hs), he, rfl, rfl⟩
    · exact ⟨_, exec_ebit_badBit (hf.trans hs) hb, by simp [State.enc, hq], rfl, rfl⟩
    · exact ⟨_, exec_ebit_ok (hf.trans hs) hu, by simp [State.enc, hq, hf], by simp [hq], by simp [hq]⟩

/-- A decoder command answers the same from every state with the same decoder part. -/
theorem exec_decoder_congr (hi : IsDecoderCommand i) (he : s.dec = s'.dec) (h : exec i s = .next t) :
    ∃ t', exec i s' = .next t' ∧ t.dec = t'.dec ∧ t.rsp = t'.rsp := by
  rw [eq_of_dec_eq he.symm]
  obtain ⟨len, rfl⟩ | ⟨y, rfl⟩ | rfl | ⟨k, rfl⟩ | ⟨x, rfl⟩ | ⟨tt, x, rfl⟩ := hi
  · obtain ⟨hl, rfl⟩ | ⟨hl, hm, hn, rfl⟩ | ⟨hl, hm, hn, rfl⟩ := execDstart_cases h
    · exact ⟨_, exec_dstart_len hl, rfl, rfl⟩
    · exact ⟨_, exec_dstart_cap hl hm hn, rfl, rfl⟩
    · exact ⟨_, exec_dstart_ok hl hm hn, rfl, rfl⟩
  · obtain ⟨hr, rfl⟩ | ⟨hd, ht, hp, rfl⟩ | ⟨hd, ht, hp, sv', hw, rfl⟩ := execDsamp_cases h
    · exact ⟨_, exec_dsamp_refused hr, rfl, rfl⟩
    · exact ⟨_, exec_dsamp_held hd ht hp, rfl, rfl⟩
    · exact ⟨_, exec_dsamp_stepped hd ht hp hw, rfl, rfl⟩
  · obtain ⟨hr, rfl⟩ | ⟨hd, ht, db, htr, rfl⟩ := execDterm_cases h
    · exact ⟨_, exec_dterm_refused hr, rfl, rfl⟩
    · exact ⟨_, exec_dterm_ok hd ht htr, rfl, rfl⟩
  · obtain ⟨hd, rfl⟩ | ⟨hd, hk, rfl⟩ | ⟨hd, hk, b, hb, rfl⟩ := execDrd_cases h
    · exact ⟨_, exec_drd_refused hd, rfl, rfl⟩
    · exact ⟨_, exec_drd_range hd hk, rfl, rfl⟩
    · exact ⟨_, exec_drd_ok hd hk hb, rfl, rfl⟩
  · obtain ⟨hd, rfl⟩ | ⟨hd, rfl⟩ := execRdpm_cases h
    · exact ⟨_, exec_rdpm_idle hd, rfl, rfl⟩
    · exact ⟨_, exec_rdpm_of_frame x hd, rfl, rfl⟩
  · obtain ⟨hd, rfl⟩ | ⟨hd, ht, rfl⟩ | ⟨hd, h1, h2, e, he, rfl⟩ := execRdsv_cases h
    · exact ⟨_, exec_rdsv_idle hd, rfl, rfl⟩
    · exact ⟨_, exec_rdsv_range hd ht, rfl, rfl⟩
    · exact ⟨_, exec_rdsv_ok hd h1 h2 he, rfl, rfl⟩

/-- Settles O55: the two congruences, and that a command has one next state. -/
theorem encoderDecoderIndependent : Obligations.EncoderDecoderIndependent := by
  refine ⟨fun i s s' t t' hi he h h' => ?_, fun i s s' t hi he h => exec_decoder_congr hi he h⟩
  obtain ⟨t'', h'', henc, hrsp, hcw⟩ := exec_encoder_congr hi he h
  obtain rfl : t' = t'' := Host.Outcome.next.inj (h'.symm.trans h'')
  exact ⟨henc, hrsp, hcw⟩

end Independence

/-! ## `eflt` (10_state R22) -/

section Eflt

variable {s t : State} {i : Instr}

/-- Everything a command can do to `eflt`. -/
theorem effect_eflt (h : Effect s i t) :
    ((i = .estart ∨ i = .reset) ∧ t.eflt = false) ∨
    (∃ b, i = .ebit b ∧ 1 < b.toNat ∧ s.eflt = false ∧ t.eflt = true ∧ t.rsp = some (errResponse .bit)) ∨
    ((i ≠ .estart ∧ i ≠ .reset) ∧ (∀ b, i = .ebit b → s.eflt = false → b.toNat ≤ 1) ∧ t.eflt = s.eflt) := by
  cases h with
  | reset => exact .inl ⟨.inr rfl, rfl⟩
  | estart => exact .inl ⟨.inl rfl, rfl⟩
  | ebitBadBit hf hb => exact .inr (.inl ⟨_, rfl, hb, hf, rfl, rfl⟩)
  | ebitFailed hf => exact .inr (.inr ⟨by simp, fun _ _ hf' => (nomatch hf.symm.trans hf'), rfl⟩)
  | ebit _ hb u => exact .inr (.inr ⟨by simp, fun _ heq _ => by cases heq; exact hb, rfl⟩)
  | read hr _ | readRefused hr _ =>
    refine .inr (.inr ⟨⟨?_, ?_⟩, ?_, rfl⟩)
    · rintro rfl; cases hr
    · rintro rfl; cases hr
    · rintro b rfl; cases hr
  | _ => exact .inr (.inr ⟨by simp, nofun, rfl⟩)

theorem effect_ebit_failed {b : BitVec 24} (h : Effect s (.ebit b) t) (hf : s.eflt = true) :
    t.rsp = some (errResponse .seq) ∧ t.cw = none := by
  cases h with
  | read hr _ | readRefused hr _ => cases hr
  | ebitFailed _ => exact ⟨rfl, rfl⟩
  | ebitBadBit hf' _ | ebit hf' _ _ => exact nomatch hf.symm.trans hf'

/-- Settles O24: of a step's four kinds only the reset input and a command touch `eflt`. -/
theorem efltOnlyFromBadBit : Obligations.EfltOnlyFromBadBit := by
  intro s t hstep
  refine ⟨?setBy, ?clearedBy, ?failed, ?badBit, ?clears⟩
  case setBy =>
    intro hs ht
    obtain ⟨-, rfl⟩ | ⟨rest, -, rfl⟩ | ⟨w, rest, i, hin, hd, heff⟩ | ⟨w, rest, e, -, -, rfl⟩ := step_effect hstep
    · exact nomatch hs.symm.trans ht
    · cases ht
    · obtain ⟨-, hc⟩ | ⟨b, rfl, hb, -, -, hrsp⟩ | ⟨-, -, hk⟩ := effect_eflt heff
      · exact nomatch hc.symm.trans ht
      · exact ⟨w, rest, b, hin, hd, hb, hrsp⟩
      · exact nomatch (hs.symm.trans hk.symm).trans ht
    · exact nomatch hs.symm.trans ht
  case clearedBy =>
    intro hs ht
    obtain ⟨-, rfl⟩ | ⟨rest, hin, rfl⟩ | ⟨w, rest, i, hin, hd, heff⟩ | ⟨w, rest, e, -, -, rfl⟩ := step_effect hstep
    · exact nomatch hs.symm.trans ht
    · exact ⟨_, rest, hin, .inl rfl⟩
    · obtain ⟨hi, -⟩ | ⟨b, -, -, -, hset, -⟩ | ⟨-, -, hk⟩ := effect_eflt heff
      · obtain rfl := encode_of_decode hd
        exact ⟨_, rest, hin, .inr (hi.imp (by rintro rfl; rfl) (by rintro rfl; rfl))⟩
      · exact nomatch hset.symm.trans ht
      · exact nomatch (hs.symm.trans hk.symm).trans ht
    · exact nomatch hs.symm.trans ht
  case failed =>
    intro w rest b hs hin hd
    exact effect_ebit_failed (step_command hin hd hstep) hs
  case badBit =>
    intro w rest b hs hin hd hb
    obtain ⟨hi, -⟩ | ⟨-, -, -, -, hset, -⟩ | ⟨-, hle, -⟩ := effect_eflt (step_command hin hd hstep)
    · simp at hi
    · exact hset
    · exact absurd hb (Nat.not_lt.2 (hle b rfl hs))
  case clears =>
    rintro h rest hin (rfl | rfl | rfl)
    · rw [step_resetInput hin hstep, hardwareReset_eflt]
    · obtain rfl := answer_next (exec_of_step hin hstep)
      rfl
    · obtain rfl := answer_next (exec_of_step hin hstep)
      rfl

end Eflt

/-! ## `dst` (10_state R23) -/

section Dst

variable {s t : State} {i : Instr}

theorem effect_reset_dst (h : Effect s .reset t) : t.dst = .idle := by
  cases h with
  | read hr _ | readRefused hr _ => cases hr
  | reset => rfl

theorem effect_dstart_dst {len : BitVec 24} (h : Effect s (.dstart len) t) :
    (t.succeeded = true → t.dst = .run) ∧ (t.succeeded = false → t.dst = .idle) := by
  cases h with
  | read hr _ | readRefused hr _ => cases hr
  | dstartRefused e => simp
  | dstart _ _ _ => simp

theorem effect_dterm_dst (h : Effect s .dterm t) :
    (t.succeeded = true → s.dst = .run ∧ s.t = s.n ∧ t.dst = .done) ∧ (t.succeeded = false → t.dst = s.dst) := by
  cases h with
  | read hr _ | readRefused hr _ => cases hr
  | dtermRefused => simp
  | dterm hd ht db _ => simp [hd, ht]

theorem effect_dsamp_dst {y : Sample} (h : Effect s (.dsamp y) t) (hs : t.succeeded = true) :
    s.dst = .run ∧ t.dst = .run := by
  cases h with
  | read hr _ | readRefused hr _ => cases hr
  | dsampRefused => simp at hs
  | dsampHeld hd _ _ => exact ⟨hd, hd⟩
  | dsampStepped hd _ _ _ _ => exact ⟨hd, hd⟩

theorem effect_other_dst (h : Effect s i t) (hr : i ≠ .reset) (ht : i ≠ .dterm) (hl : ∀ len, i ≠ .dstart len) :
    t.dst = s.dst := by
  cases h with
  | reset => exact absurd rfl hr
  | dtermRefused | dterm _ _ _ _ => exact absurd rfl ht
  | dstartRefused _ | dstart _ _ _ => exact absurd rfl (hl _)
  | _ => rfl

/-- Settles O50: a word decodes to one command, whose row of R23 is one of the lemmas above. -/
theorem dstTransitions : Obligations.DstTransitions := by
  intro s t h rest hin hstep
  refine ⟨?_, ?_⟩
  · rintro rfl
    rw [step_resetInput hin hstep, hardwareReset_dst]
  · rintro w rfl
    refine ⟨fun hd => ?_, fun len hd => ?_, fun hd => ?_, fun y hd => ?_, fun hother => ?_⟩
    · exact effect_reset_dst (step_command hin hd hstep)
    · exact effect_dstart_dst (step_command hin hd hstep)
    · have hdst := effect_dterm_dst (step_command hin hd hstep)
      exact hdst
    · have hdst := effect_dsamp_dst (step_command hin hd hstep)
      exact hdst
    · cases hd : decode w with
      | ok i =>
        obtain ⟨hr, ht, hl⟩ := hother i hd
        have hdst := effect_other_dst (step_command hin hd hstep) hr ht hl
        exact hdst
      | error e => rw [step_illegal hin hd hstep, raise_dst]

end Dst

/-! ## The record decides nothing (10_state R29, R30) -/

section Sticky

variable {s t : State} {i : Instr}

/-- The outcome `r` is a next state with the ports and the data state of `t`, whatever its error record. -/
def AnswersAs (r : Result) (t : State) : Prop :=
  ∃ t', r = .next t' ∧ t'.rsp = t.rsp ∧ t'.cw = t.cw ∧ t'.enc = t.enc ∧ t'.dec = t.dec

theorem uniform_errflags_congr (f : BitVec 6) (hu : AnswersUniformly i) (h : exec i s = .next t) :
    AnswersAs (exec i { s with errflags := f }) t := by
  obtain ⟨e, he⟩ | ⟨d, hd⟩ := hu
  · obtain rfl := fail_next ((he s).symm.trans h)
    exact ⟨_, he _, rfl, rfl, rfl, rfl⟩
  · obtain rfl := answer_next ((hd s).symm.trans h)
    exact ⟨_, hd _, rfl, rfl, rfl, rfl⟩

theorem encoder_errflags_congr (f : BitVec 6) (hi : IsEncoderCommand i) (h : exec i s = .next t) :
    AnswersAs (exec i { s with errflags := f }) t := by
  obtain ⟨t', h', henc, hrsp, hcw⟩ := exec_encoder_congr (s' := { s with errflags := f }) hi (by rfl) h
  obtain ⟨hdec, -, -⟩ := effect_encoder_frame hi (exec_effect h)
  obtain ⟨hdec', -, -⟩ := effect_encoder_frame hi (exec_effect h')
  exact ⟨t', h', hrsp.symm, hcw.symm, henc.symm, hdec'.trans hdec.symm⟩

/-- The encoder and `cw` do not take part in a decoder command. -/
theorem effect_decoder_enc_cw (hi : IsDecoderCommand i) (h : Effect s i t) : t.enc = s.enc ∧ t.cw = none := by
  by_cases hread : readsOnly i = true
  · obtain ⟨d, rfl⟩ | ⟨e, rfl⟩ := effect_of_readsOnly hread h <;> exact ⟨rfl, rfl⟩
  · have hi' : IsDecoderWriter i := by
      obtain hi | hi | hi | ⟨k, rfl⟩ | ⟨x, rfl⟩ | ⟨tt, x, rfl⟩ := hi
      · exact .inl hi
      · exact .inr (.inl hi)
      · exact .inr (.inr hi)
      all_goals exact absurd rfl hread
    obtain ⟨henc, -, -, hcw⟩ := effect_decoder_frame hi' h
    exact ⟨henc, hcw⟩

theorem decoder_errflags_congr (f : BitVec 6) (hi : IsDecoderCommand i) (h : exec i s = .next t) :
    AnswersAs (exec i { s with errflags := f }) t := by
  obtain ⟨t', h', hdec, hrsp⟩ := exec_decoder_congr (s' := { s with errflags := f }) hi (by rfl) h
  obtain ⟨henc, hcw⟩ := effect_decoder_enc_cw hi (exec_effect h)
  obtain ⟨henc', hcw'⟩ := effect_decoder_enc_cw hi (exec_effect h')
  exact ⟨t', h', hrsp.symm, hcw'.trans hcw.symm, henc'.trans henc.symm, hdec.symm⟩

/-- But for `RDSTAT`, which returns it, no command's response or data depends on `errflags`. -/
theorem exec_errflags_congr (f : BitVec 6) (hi : i ≠ .rdstat) (h : exec i s = .next t) :
    AnswersAs (exec i { s with errflags := f }) t := by
  cases i with
  | rdstat => exact absurd rfl hi
  | reset | clrerr =>
    obtain rfl := answer_next h
    exact ⟨_, rfl, rfl, rfl, rfl, rfl⟩
  | nop => exact uniform_errflags_congr f nop_uniform h
  | b2s b => exact uniform_errflags_congr f (b2s_uniform b) h
  | s2b y => exact uniform_errflags_congr f (s2b_uniform y) h
  | trans q b => exact uniform_errflags_congr f (trans_uniform q b) h
  | estart => exact encoder_errflags_congr f (.inl rfl) h
  | ebit b => exact encoder_errflags_congr f (.inr ⟨b, rfl⟩) h
  | dstart len => exact decoder_errflags_congr f (.inl ⟨len, rfl⟩) h
  | dsamp y => exact decoder_errflags_congr f (.inr (.inl ⟨y, rfl⟩)) h
  | dterm => exact decoder_errflags_congr f (.inr (.inr (.inl rfl))) h
  | drd k => exact decoder_errflags_congr f (.inr (.inr (.inr (.inl ⟨k, rfl⟩)))) h
  | rdpm x => exact decoder_errflags_congr f (.inr (.inr (.inr (.inr (.inl ⟨x, rfl⟩))))) h
  | rdsv tt x => exact decoder_errflags_congr f (.inr (.inr (.inr (.inr (.inr ⟨tt, x, rfl⟩))))) h

/-- Settles O49: a step's input is the reset input, a command or an illegal word, and each leaves a record of R29. -/
theorem errorRecordSticky : Obligations.ErrorRecordSticky := by
  refine ⟨fun s t h rest hin hstep => ⟨?_, ?_⟩, fun i s t f hi h => exec_errflags_congr f hi h⟩
  · rintro (rfl | rfl | rfl)
    · obtain rfl := step_resetInput hin hstep
      exact ⟨rfl, rfl⟩
    · obtain rfl := answer_next (exec_of_step hin hstep)
      exact ⟨rfl, rfl⟩
    · obtain rfl := answer_next (exec_of_step hin hstep)
      exact ⟨rfl, rfl⟩
  · intro hreset hclrerr hrst
    have hrec : Recorded { s with inputs := rest } t := by
      cases h with
      | resetInput => exact absurd rfl hreset
      | command w =>
        cases hd : decode w with
        | ok i =>
          obtain rfl := encode_of_decode hd
          refine effect_recorded (step_command hin hd hstep) ?_ ?_
          · rintro rfl; exact hrst rfl
          · rintro rfl; exact hclrerr rfl
        | error e =>
          obtain rfl := step_illegal hin hd hstep
          exact recorded_raise .op rfl
    exact ⟨fun k => hrec.sticky, hrec.of_succeeded, hrec.of_failed⟩

end Sticky

/-- Settles O10: the reset state written out, and `RDSTAT` on it. -/
theorem resetStateValues : Obligations.ResetStateValues :=
  ⟨rfl, rfl, rfl, rfl, rfl, rfl, rfl, rfl, respond (statusWord State.reset) State.reset, rfl, by decide⟩

end Sys2Proof.Proofs
end

section
/-! PROOFS. The metrics of a running frame (43_viterbi_forward R169, 10_state R26): after any number of samples each metric
is the least squared distance between the samples of the complete groups and a codeword whose walk ends in that state. -/

namespace Sys2Proof.Proofs

open Sys2Proof.Machine Sys2Proof.Laws

/-! ## Codewords, one bit longer (42_convolutional_encoder R143) -/

theorem walkEnd_append (q : Idx) (us vs : List Bit) : walkEnd q (us ++ vs) = walkEnd (walkEnd q us) vs := by
  induction us generalizing q with
  | nil => rfl
  | cons u us ih => exact ih _

theorem walk_append (q : Idx) (us vs : List Bit) : walk q (us ++ vs) = walk q us ++ walk (walkEnd q us) vs := by
  induction us generalizing q with
  | nil => rfl
  | cons u us ih =>
    rw [List.cons_append, walk, walk, ih, List.append_assoc]
    rfl

theorem length_walk (q : Idx) (us : List Bit) : (walk q us).length = 4 * us.length := by
  induction us generalizing q with
  | nil => rfl
  | cons u us ih =>
    rw [walk, List.length_append, ih, List.length_cons]
    simp only [Transition.sampleList, List.length_cons, List.length_nil]
    omega

theorem length_encodeBits (us : List Bit) : (encodeBits us).length = 4 * us.length := length_walk 7#3 us

theorem walkEnd_concat (q : Idx) (us : List Bit) (u : Bit) :
    walkEnd q (us ++ [u]) = (transition (walkEnd q us) u).next :=
  walkEnd_append q us [u]

theorem encodeBits_concat (us : List Bit) (u : Bit) :
    encodeBits (us ++ [u]) = encodeBits us ++ (transition (walkEnd 7#3 us) u).sampleList :=
  (walk_append 7#3 us [u]).trans (by simp [walk, encodeBits])

/-- A list of bits that is not empty has a last bit. -/
theorem exists_concat_of_length {us : List Bit} {k : Nat} (h : us.length = k + 1) :
    ∃ vs u, us = vs ++ [u] ∧ vs.length = k := by
  obtain rfl | ⟨vs, u, rfl⟩ := us.eq_nil_or_concat
  · cases h
  · exact ⟨vs, u, List.concat_eq_append, by simpa using h⟩

/-! ## Distances (44_viterbi_traceback R190), one group longer -/

/-- The four samples of a group, in the order they were sent. -/
def groupSamples (g : Group) : List Sample := [g.y0, g.y1, g.y2, g.y3]

theorem dist_append {xs as : List Sample} (ys bs : List Sample) (h : xs.length = as.length) :
    Machine.dist (xs ++ ys) (as ++ bs) = Machine.dist xs as + Machine.dist ys bs := by
  induction xs generalizing as with
  | nil =>
    obtain rfl : as = [] := List.length_eq_zero_iff.1 h.symm
    simp [Machine.dist]
  | cons x xs ih =>
    cases as with
    | nil => cases h
    | cons a as =>
      rw [List.cons_append, List.cons_append, Machine.dist, Machine.dist, ih (Nat.succ.inj h), Nat.add_assoc]

theorem sym2sample_toInt (o : Symbol) : (sym2sample o).toInt = o.val * one := by cases o <;> decide

/-- The branch metric is the squared distance of one group (43_viterbi_forward R161). -/
theorem dist_group (p : Idx) (u : Bit) (g : Group) :
    Machine.dist (groupSamples g) (transition p u).sampleList = branchMetric p u g := by
  simp only [groupSamples, Transition.sampleList, Machine.dist, sym2sample_toInt, branchMetric, sqDiff, sampleValue]
  omega

theorem dist_concat {zs : List Sample} {us : List Bit} (h : zs.length = 4 * us.length) (u : Bit) (g : Group) :
    Machine.dist (zs ++ groupSamples g) (encodeBits (us ++ [u])) =
      Machine.dist zs (encodeBits us) + branchMetric (walkEnd 7#3 us) u g := by
  rw [encodeBits_concat, dist_append _ _ (h.trans (length_encodeBits us).symm), dist_group]

/-! ## One lane takes the minimum (43_viterbi_forward R165) -/

/-- A lane is `INF` when no predecessor is finite; else it has the least candidate and names the pair that attains it. -/
theorem acs_least (old : Vector Metric 8) (g : Group) (ns : Idx) :
    (acs old g ns = (.inf, none) ∧ ∀ p u, (transition p u).next = ns → at8 old p = .inf) ∨
    ∃ p u x, (transition p u).next = ns ∧ at8 old p = .fin x ∧
      acs old g ns = (.fin (x + branchMetric p u g), some (p, u)) ∧
      ∀ p' u' y, (transition p' u').next = ns → at8 old p' = .fin y →
        x + branchMetric p u g ≤ y + branchMetric p' u' g := by
  obtain ⟨hacs, h0, h1⟩ | ⟨x, h1, hacs, hle⟩ | ⟨x, h0, hacs, hle⟩ := acs_cases old g ns
  · refine .inl ⟨hacs, fun p u hnext => ?_⟩
    obtain ⟨rfl | rfl, -⟩ := (transition_next_iff p u ns).1 hnext <;> assumption
  · refine .inr ⟨_, _, x, transition_pred1 ns, h1, hacs, fun p u y hnext hy => ?_⟩
    obtain ⟨rfl | rfl, rfl⟩ := (transition_next_iff p u ns).1 hnext
    · exact (hle y hy).le
    · rw [h1] at hy; cases hy; exact le_rfl
  · refine .inr ⟨_, _, x, transition_pred0 ns, h0, hacs, fun p u y hnext hy => ?_⟩
    obtain ⟨rfl | rfl, rfl⟩ := (transition_next_iff p u ns).1 hnext
    · rw [h0] at hy; cases hy; exact le_rfl
    · exact hle y hy

/-! ## Metrics and back-pointers after complete groups -/

/-- The back-pointers stored for the walk of `us` from state 7 give its states and its bits (20_memory R51). -/
def StoredPath (sv : Memory 5) (us : List Bit) : Prop :=
  ∀ k, k < us.length → ∃ e, sv.read (svAddr (k + 1) (walkEnd 7#3 (us.take (k + 1)))) = some e ∧
    entryValid e = true ∧ entryPred e = walkEnd 7#3 (us.take k) ∧ us[k]? = some (entryBit e)

/-- The metric of state `i` after `k` groups with the samples `zs` (43_viterbi_forward R169). -/
def LeastDistance (zs : List Sample) (k : Nat) (sv : Memory 5) (i : Idx) (x : Metric) : Prop :=
  (∀ m, x = .fin m →
    (∃ us, us.length = k ∧ walkEnd 7#3 us = i ∧ Machine.dist zs (encodeBits us) = m ∧ StoredPath sv us) ∧
    (∀ us, us.length = k → walkEnd 7#3 us = i → m ≤ Machine.dist zs (encodeBits us))) ∧
  (x = .inf → ∀ us, us.length = k → walkEnd 7#3 us ≠ i)

theorem leastDistance_column0 (sv : Memory 5) (i : Idx) : LeastDistance [] 0 sv i (at8 column0 i) := by
  have hnil {us : List Bit} (h : us.length = 0) : us = [] := List.length_eq_zero_iff.1 h
  rw [at8_column0]
  split
  · next hi =>
    refine ⟨fun m hm => ⟨⟨[], rfl, hi.symm, Metric.fin.inj hm, nofun⟩, fun us hlen _ => ?_⟩, nofun⟩
    rw [← Metric.fin.inj hm]
    exact Nat.zero_le _
  · next hi =>
    refine ⟨nofun, fun _ us hlen heq => hi ?_⟩
    rw [hnil hlen] at heq
    exact heq.symm

theorem storedPath_concat {sv sv' : Memory 5} {us : List Bit} {p : Idx} {u : Bit} (h : StoredPath sv us)
    (hp : walkEnd 7#3 us = p)
    (hnew : sv'.read (svAddr (us.length + 1) (transition p u).next) = some (packEntry (some (p, u))))
    (hold : ∀ t' i, t' ≤ us.length → sv'.read (svAddr t' i) = sv.read (svAddr t' i)) :
    StoredPath sv' (us ++ [u]) := by
  intro k hk
  rw [List.length_append, List.length_singleton] at hk
  obtain rfl | hk := Nat.eq_or_lt_of_le (Nat.le_of_lt_succ hk)
  · rw [List.take_of_length_le (by simp), walkEnd_concat, hp, List.take_left]
    exact ⟨_, hnew, by simp, by simp [hp], by simp⟩
  · rw [List.take_append_of_le_length hk, List.take_append_of_le_length hk.le, List.getElem?_append_left hk,
      hold _ _ hk]
    exact h k hk

/-- One time step moves the metrics from `k` groups to `k + 1`. -/
theorem leastDistance_step {zs : List Sample} {k : Nat} {pm : Vector Metric 8} {sv sv' : Memory 5} {g : Group}
    (hzs : zs.length = 4 * k) (h : ∀ i, LeastDistance zs k sv i (at8 pm i))
    (hnew : ∀ i, sv'.read (svAddr (k + 1) i) = some (packEntry (at8 (stepRow pm g) i)))
    (hold : ∀ a, (∀ i, a ≠ svAddr (k + 1) i) → sv'.read a = sv.read a) (i : Idx) :
    LeastDistance (zs ++ groupSamples g) (k + 1) sv' i (at8 (stepColumn pm g) i) := by
  have hkept (t' : Nat) (j : Idx) (ht' : t' ≤ k) : sv'.read (svAddr t' j) = sv.read (svAddr t' j) :=
    hold _ fun j' hj' => by have := (svAddr_inj hj').1; omega
  have hrow := hnew i
  rw [at8_stepRow] at hrow
  rw [at8_stepColumn]
  obtain ⟨hacs, hinf⟩ | ⟨p, u, x, hnext, hp, hacs, hmin⟩ := acs_least pm g i
  · rw [hacs]
    refine ⟨nofun, fun _ us hlen hend => ?_⟩
    obtain ⟨vs, u, rfl, hvs⟩ := exists_concat_of_length hlen
    rw [walkEnd_concat] at hend
    exact (h _).2 (hinf _ u hend) vs hvs rfl
  · rw [hacs] at hrow ⊢
    refine ⟨fun m hm => ?_, nofun⟩
    obtain rfl := Metric.fin.inj hm
    constructor
    · obtain ⟨⟨vs, rfl, hend, hdist, hpath⟩, -⟩ := (h p).1 x hp
      refine ⟨vs ++ [u], by simp, by rw [walkEnd_concat, hend, hnext], ?_, ?_⟩
      · rw [dist_concat hzs, hdist, hend]
      · exact storedPath_concat hpath hend (hnext.symm ▸ hrow) hkept
    · intro us hlen hend
      obtain ⟨vs, v, rfl, rfl⟩ := exists_concat_of_length hlen
      rw [walkEnd_concat] at hend
      rw [dist_concat hzs]
      cases hv : at8 pm (walkEnd 7#3 vs) with
      | inf => exact absurd rfl ((h _).2 hv vs rfl)
      | fin y =>
        obtain ⟨-, hle⟩ := (h _).1 y hv
        exact (hmin _ v y hend hv).trans (Nat.add_le_add_right (hle vs rfl rfl) _)

/-! ## The machine during a frame -/

/-- A frame of `n` bits is running; `zs` are the samples of its complete groups, `ps` the held ones (10_state R26, R28). -/
structure FrameAfter (n : Nat) (zs ps : List Sample) (s : State) : Prop where
  cap : n ≤ s.cfg.nMax
  running : s.dst = .run
  bits : s.n.toNat = n
  groups : zs.length = 4 * s.t.toNat
  phase : ps.length = s.ph.toNat
  held : ∀ (j : Nat) (hj : j < 3), j < ps.length → ps[j]? = some s.ybuf[j]
  metrics : ∀ i, LeastDistance zs s.t.toNat s.sv i (at8 s.pm i)

variable {n : Nat} {zs ps : List Sample} {s : State}

theorem frameAfter_dstart (h1 : 1 ≤ n) (hn : n ≤ s.cfg.nMax) (hmax : n ≤ 65535) :
    ∃ t, exec (.dstart (BitVec.ofNat 24 (4 * n))) s = .next t ∧ t.succeeded = true ∧ FrameAfter n [] [] t := by
  have hlen : (BitVec.ofNat 24 (4 * n)).toNat = 4 * n := by
    rw [BitVec.toNat_ofNat]
    omega
  refine ⟨_, exec_dstart_ok (by omega) (by omega) (by omega), respond_succeeded _ _, hn, rfl, ?_, rfl, rfl, nofun,
    leastDistance_column0 _⟩
  simp only [respond_n, hlen, BitVec.toNat_ofNat]
  omega

theorem frameAfter_hold (h : FrameAfter n zs ps s) (hp : s.ph.toNat < 3) (y : Sample) (d : BitVec 56) :
    FrameAfter n zs (ps ++ [y])
      (respond d { s with ybuf := s.ybuf.setIfInBounds s.ph.toNat y, ph := s.ph + 1 }) where
  cap := h.cap
  running := h.running
  bits := h.bits
  groups := h.groups
  phase := by
    have h1 : (1 : BitVec 2).toNat = 1 := rfl
    simp only [List.length_append, List.length_singleton, h.phase, respond_ph, BitVec.toNat_add, h1]
    omega
  held j hj hlt := by
    rw [List.length_append, List.length_singleton] at hlt
    simp only [respond_ybuf, Vector.getElem_setIfInBounds, ← h.phase]
    obtain rfl | hlt := Nat.eq_or_lt_of_le (Nat.le_of_lt_succ hlt)
    · simp
    · rw [if_neg hlt.ne', List.getElem?_append_left hlt]
      exact h.held j hj hlt
  metrics := h.metrics

/-- With three samples held, the group the next sample completes is made of them. -/
theorem groupSamples_held (h : FrameAfter n zs ps s) (hp : s.ph = 3#2) (y : Sample) :
    groupSamples (heldGroup s y) = ps ++ [y] := by
  have hlen : ps.length = 3 := h.phase.trans (congrArg BitVec.toNat hp)
  have hheld (j : Nat) (hj : j < 3) : ps[j]? = some s.ybuf[j] := h.held j hj (hlen ▸ hj)
  match ps, hlen with
  | [a, b, c], _ =>
    have ha : a = s.ybuf[0] := Option.some.inj (hheld 0 (by decide))
    have hb : b = s.ybuf[1] := Option.some.inj (hheld 1 (by decide))
    have hc : c = s.ybuf[2] := Option.some.inj (hheld 2 (by decide))
    rw [ha, hb, hc]
    rfl

theorem frameAfter_step (h : FrameAfter n zs ps s) (hlt : s.t.toNat < s.n.toNat) {y : Sample}
    {sv' : Memory 5} (hw : svWriteRow s.cfg s.sv (s.t.toNat + 1) (stepRow s.pm (heldGroup s y)) = .ok sv') :
    FrameAfter n (zs ++ groupSamples (heldGroup s y)) [] (steppedState y s sv') := by
  obtain ⟨-, hnew, hold, -⟩ := svWriteRow_ok hw
  have hsucc : (steppedState y s sv').t.toNat = s.t.toNat + 1 := toNat_succ_of_lt hlt
  exact {
    cap := h.cap
    running := h.running
    bits := h.bits
    groups := by rw [hsucc, List.length_append, h.groups]; rfl
    phase := rfl
    held := nofun
    metrics := hsucc.symm ▸ leastDistance_step h.groups h.metrics hnew hold }

/-- A `DSAMP` within the frame succeeds, and its sample is held or completes a group (43_viterbi_forward R158). -/
theorem frameAfter_dsamp (h : FrameAfter n zs ps s) (hroom : zs.length + ps.length < 4 * n) (y : Sample) :
    ∃ t zs' ps', exec (.dsamp y) s = .next t ∧ t.succeeded = true ∧ zs' ++ ps' = zs ++ ps ++ [y] ∧
      FrameAfter n zs' ps' t := by
  have hlt : s.t.toNat < s.n.toNat := by
    rw [h.groups, h.phase] at hroom
    rw [h.bits]
    omega
  have hne : s.t ≠ s.n := fun heq => by simp [heq] at hlt
  by_cases hp : s.ph.toNat < 3
  · exact ⟨_, zs, ps ++ [y], exec_dsamp_held h.running hne hp, respond_succeeded _ _, (List.append_assoc _ _ _).symm,
      frameAfter_hold h hp y _⟩
  · have hp := ph_eq_three hp
    have hcap : s.t.toNat + 1 ≤ s.cfg.nMax := hlt.trans_le (h.bits.le.trans h.cap)
    obtain ⟨sv', hw⟩ := svWriteRow_exists s.cfg s.sv (s.t.toNat + 1) (stepRow s.pm (heldGroup s y))
      (Nat.le_add_left 1 _) hcap
    refine ⟨_, _, [], exec_dsamp_stepped h.running hne hp hw, steppedState_succeeded _ _ _, ?_,
      frameAfter_step h hlt hw⟩
    rw [groupSamples_held h hp, List.append_nil, List.append_assoc]

/-! ## Runs (70_reset_and_hazards R270) -/

/-- Issuing the word of a command carries the command out. -/
theorem issue_encode (s : State) (i : Instr) : issue s (encode i) = exec i s :=
  stepRunsCommand (placeCommand s (encode i)) (encode i) s.inputs i rfl (decode_encode i)

/-- A run whose first command succeeds. -/
theorem runWords_cons {i : Instr} {ws : List Word} {t t' : State} {rs : List Reply} (hi : exec i s = .next t)
    (hrun : runWords ws t = some (rs, t')) :
    runWords (encode i :: ws) s = some ({ rsp := t.rsp, cw := t.cw } :: rs, t') := by
  simp only [runWords, issue_encode, hi, hrun, Option.map_some]

theorem reply_ok (t : State) : ({ rsp := t.rsp, cw := t.cw } : Reply).ok = t.succeeded := rfl

/-- Any number of samples within the frame. -/
theorem runWords_dsamps (ys : List Sample) (h : FrameAfter n zs ps s)
    (hroom : zs.length + ps.length + ys.length ≤ 4 * n) :
    ∃ rs t zs' ps', runWords ((ys.map Instr.dsamp).map encode) s = some (rs, t) ∧ (∀ r ∈ rs, r.ok = true) ∧
      zs' ++ ps' = zs ++ ps ++ ys ∧ FrameAfter n zs' ps' t := by
  induction ys generalizing zs ps s with
  | nil => exact ⟨[], s, zs, ps, rfl, nofun, (List.append_nil _).symm, h⟩
  | cons y ys ih =>
    rw [List.length_cons] at hroom
    obtain ⟨t, zs1, ps1, hexec, hok, hsamples, h1⟩ := frameAfter_dsamp h (by omega) y
    have hlen : zs1.length + ps1.length = zs.length + ps.length + 1 := by
      rw [← List.length_append, hsamples]
      simp [Nat.add_assoc]
    obtain ⟨rs, t', zs', ps', hrun, hrs, hall, h'⟩ := ih h1 (by omega)
    refine ⟨_, t', zs', ps', runWords_cons hexec hrun, ?_, ?_, h'⟩
    · exact List.forall_mem_cons.2 ⟨(reply_ok t).trans hok, hrs⟩
    · rw [hall, hsamples, List.append_assoc, List.singleton_append]

/-- The registers and the samples of the complete groups, by the number of samples sent (10_state R26). -/
theorem frameAfter_counts {ys : List Sample} (h : FrameAfter n zs ps s) (hys : zs ++ ps = ys) :
    s.t.toNat = ys.length / 4 ∧ s.ph.toNat = ys.length % 4 ∧ zs = ys.take (4 * (ys.length / 4)) := by
  have hlen : ys.length = 4 * s.t.toNat + s.ph.toNat := by
    rw [← hys, List.length_append, h.groups, h.phase]
  have hph := s.ph.isLt
  obtain ⟨ht, hp⟩ : s.t.toNat = ys.length / 4 ∧ s.ph.toNat = ys.length % 4 := by omega
  refine ⟨ht, hp, ?_⟩
  rw [← ht, ← h.groups, ← hys, List.take_left]

/-- Settles O35: `DSTART` begins a frame, each `DSAMP` keeps its description, and the description gives the metrics. -/
theorem frameMetricsAreLeastDistances : Obligations.FrameMetricsAreLeastDistances := by
  intro s ys n hlegal h1 hn hlen
  obtain ⟨t0, hstart, hok, h0⟩ := frameAfter_dstart h1 hn (hn.trans hlegal.2)
  obtain ⟨rs, t, zs, ps, hrun, hrs, hsamples, h⟩ := runWords_dsamps ys h0 (by simpa using hlen)
  obtain ⟨ht, hp, hzs⟩ := frameAfter_counts (ys := ys) h hsamples
  refine ⟨_, t, runWords_cons hstart hrun, ?_, h.running, h.bits, ht, hp, fun i => ?_⟩
  · exact List.forall_mem_cons.2 ⟨(reply_ok t0).trans hok, hrs⟩
  · rw [← hzs, ← ht]
    exact h.metrics i

end Sys2Proof.Proofs
end

section
/-! PROOFS. The encoding (30_encoding): commands and words both ways (R81, R85, R93), the rows of the opcode table and
the decoder (R84), illegal words (R88), and the responses every word gets (R86, R87). -/

namespace Sys2Proof.Proofs

open Sys2Proof.Machine Sys2Proof.Laws

/-! ## Commands and words, both ways (30_encoding R81, R85, R93) -/

theorem instr_wellFormed (i : Instr) : i.wellFormed = true := by
  cases i with
  | nop => exact Fields.nop.2
  | reset => exact Fields.reset.2
  | rdstat => exact Fields.rdstat.2
  | clrerr => exact Fields.clrerr.2
  | b2s b => exact (Fields.b2s b).2
  | s2b y => exact (Fields.s2b y).2
  | trans q b => exact (Fields.trans q b).2
  | estart => exact Fields.estart.2
  | ebit b => exact (Fields.ebit b).2
  | dstart len => exact (Fields.dstart len).2
  | dsamp y => exact (Fields.dsamp y).2
  | dterm => exact Fields.dterm.2
  | drd k => exact (Fields.drd k).2
  | rdpm si => exact (Fields.rdpm si).2
  | rdsv tt si => exact (Fields.rdsv tt si).2

/-- Settles O1: the per-instruction laws, gathered. -/
theorem decodeEncodeRoundTrip : Obligations.DecodeEncodeRoundTrip :=
  fun i => ⟨instr_wellFormed i, decode_encode i⟩

/-- Settles O2: the fields of a legal word are the ones the encoder writes. -/
theorem legalWordsAreEncodings : Obligations.LegalWordsAreEncodings :=
  fun _ _ => encode_of_decode

/-- Settles O5: the decoder run on the twelve words. -/
theorem specWordsDecode : Obligations.SpecWordsDecode := by
  unfold Obligations.SpecWordsDecode
  decide

/-! ## The rows of the opcode table (30_encoding R84) -/

section Rows

variable {r : OpRow} {w : Word}

theorem opOf_and (x y : Word) : opOf (x &&& y) = opOf x &&& opOf y := BitVec.extractLsb'_and

theorem immOf_and (x y : Word) : immOf (x &&& y) = immOf x &&& immOf y := BitVec.extractLsb'_and

theorem word_eq_iff {x y : Word} : x = y ↔ opOf x = opOf y ∧ immOf x = immOf y := by
  refine ⟨fun h => h ▸ ⟨rfl, rfl⟩, fun ⟨hop, himm⟩ => ?_⟩
  rw [← op_append_imm x, hop, himm, op_append_imm]

/-- Every mask covers the whole opcode, and no match has an operand bit. -/
theorem opTable_fields : ∀ r ∈ opTable, opOf r.mask = 0xFF#8 ∧ immOf r.matchBits = 0#24 := by decide

/-- No two rows share an opcode. -/
theorem opTable_op_inj : ∀ r ∈ opTable, ∀ r' ∈ opTable, opOf r.matchBits = opOf r'.matchBits → r = r' := by decide

theorem opTable_mnemonic_inj : ∀ r ∈ opTable, ∀ r' ∈ opTable, r.mnemonic = r'.mnemonic → r = r' := by decide

/-- A row selects the words with its opcode in which the operand bits of its mask are 0. -/
theorem selects_iff (hr : r ∈ opTable) :
    r.selects w = true ↔ opOf w = opOf r.matchBits ∧ immOf w &&& immOf r.mask = 0#24 := by
  obtain ⟨hmask, hmatch⟩ := opTable_fields r hr
  have hop : opOf w &&& 0xFF#8 = opOf w := BitVec.and_allOnes
  rw [OpRow.selects, beq_iff_eq, word_eq_iff, opOf_and, immOf_and, hmask, hmatch, hop]

/-- The row of a command: the one with its mnemonic, whose match is its opcode. -/
theorem exists_row (i : Instr) : ∃ r ∈ opTable, r.mnemonic = i.mnemonic ∧ r.matchBits = i.op ++ 0#24 := by
  cases i <;> simp only [Instr.mnemonic, Instr.op] <;> decide

/-- The operand bits under a mask of adjacent bits are 0 when the field of these bits is. -/
theorem and_mask_eq_zero_iff {imm m : BitVec 24} (lo len : Nat)
    (hm : ∀ j : Fin 24, m.getLsbD j = decide (lo ≤ j.val ∧ j.val < lo + len)) :
    imm &&& m = 0#24 ↔ imm.extractLsb' lo len = 0#len := by
  constructor
  · intro h
    refine BitVec.eq_of_getLsbD_eq fun k hk => ?_
    rw [BitVec.getLsbD_extractLsb']
    by_cases hlt : lo + k < 24
    · have hbit := congrArg (fun v => v.getLsbD (lo + k)) h
      simpa [hm ⟨lo + k, hlt⟩, hk] using hbit
    · simp [BitVec.getLsbD_of_ge imm (lo + k) (Nat.le_of_not_lt hlt)]
  · intro h
    refine BitVec.eq_of_getLsbD_eq fun j hj => ?_
    rw [BitVec.getLsbD_and, hm ⟨j, hj⟩]
    by_cases hin : lo ≤ j ∧ j < lo + len
    · have hbit := congrArg (fun v => v.getLsbD (j - lo)) h
      have hlt : j - lo < len := by omega
      simpa [hin, hlt] using hbit
    · simp [hin]

/-! The formats of 30_encoding R81: a command is selected exactly when the operand bits of the row's mask are 0. -/

variable {op : BitVec 8} {imm : BitVec 24}

theorem formatZ_isOk {j : Instr} : (∃ i, formatZ op imm j = .ok i) ↔ imm &&& 0xFFFFFF#24 = 0#24 := by
  have hall : imm &&& 0xFFFFFF#24 = imm := BitVec.and_allOnes
  rw [hall, formatZ]
  split <;> simp [*]

theorem formatS_isOk {f : BitVec 16 → Instr} : (∃ i, formatS op imm f = .ok i) ↔ imm &&& 0xFF0000#24 = 0#24 := by
  rw [and_mask_eq_zero_iff 16 8 (by decide), formatS]
  split <;> simp [*]

theorem formatT_isOk {f : BitVec 8 → BitVec 8 → Instr} :
    (∃ i, formatT op imm f = .ok i) ↔ imm &&& 0xFF0000#24 = 0#24 := by
  rw [and_mask_eq_zero_iff 16 8 (by decide), formatT]
  split <;> simp [*]

theorem formatP_isOk {f : Idx → Instr} : (∃ i, formatP op imm f = .ok i) ↔ imm &&& 0xFFFFF8#24 = 0#24 := by
  rw [and_mask_eq_zero_iff 3 21 (by decide), formatP]
  split <;> simp [*]

theorem formatV_isOk {f : BitVec 16 → Idx → Instr} :
    (∃ i, formatV op imm f = .ok i) ↔ imm &&& 0xF80000#24 = 0#24 := by
  rw [and_mask_eq_zero_iff 19 5 (by decide), formatV]
  split <;> simp [*]

/-- Formats B and L have no reserved bit (30_encoding R81). -/
theorem noFormat_isOk {j : Instr} :
    (∃ i, (.ok j : Except IllegalWord Instr) = .ok i) ↔ imm &&& 0x000000#24 = 0#24 := by
  simp

/-- With the opcode of a row, a word is legal exactly when the row selects it. The cases are the rows in the order of
30_encoding R84, each by its format. -/
theorem decode_isOk_of_op (hr : r ∈ opTable) (hop : opOf w = opOf r.matchBits) :
    (∃ i, decode w = .ok i) ↔ immOf w &&& immOf r.mask = 0#24 := by
  rw [decode, hop]
  simp only [opTable, List.mem_cons, List.not_mem_nil, or_false] at hr
  obtain rfl | rfl | rfl | rfl | rfl | rfl | rfl | rfl | rfl | rfl | rfl | rfl | rfl | rfl | rfl := hr
  · exact formatZ_isOk
  · exact formatZ_isOk
  · exact formatZ_isOk
  · exact formatZ_isOk
  · exact noFormat_isOk
  · exact formatS_isOk
  · exact formatT_isOk
  · exact formatZ_isOk
  · exact noFormat_isOk
  · exact noFormat_isOk
  · exact formatS_isOk
  · exact formatZ_isOk
  · exact formatS_isOk
  · exact formatP_isOk
  · exact formatV_isOk

/-- A legal word has the opcode of its command's row. -/
theorem op_of_decode {i : Instr} (h : decode w = .ok i) :
    ∃ r ∈ opTable, r.mnemonic = i.mnemonic ∧ opOf w = opOf r.matchBits := by
  obtain ⟨r, hr, hmn, hmatch⟩ := exists_row i
  obtain ⟨hop, -⟩ := decodeFields_ok h
  exact ⟨r, hr, hmn, by rw [hmatch, opOf_append, hop]⟩

/-- A word that a row selects decodes to a command of that row. -/
theorem decode_of_selects (hr : r ∈ opTable) (hsel : r.selects w = true) :
    ∃ i, decode w = .ok i ∧ i.mnemonic = r.mnemonic := by
  obtain ⟨hop, himm⟩ := (selects_iff hr).1 hsel
  obtain ⟨i, hi⟩ := (decode_isOk_of_op hr hop).2 himm
  obtain ⟨r', hr', hmn, hop'⟩ := op_of_decode hi
  obtain rfl := opTable_op_inj r hr r' hr' (hop.symm.trans hop')
  exact ⟨i, hi, hmn.symm⟩

/-- A legal word is selected by a row. -/
theorem selects_of_decode {i : Instr} (h : decode w = .ok i) : ∃ r ∈ opTable, r.selects w = true := by
  obtain ⟨r, hr, -, hop⟩ := op_of_decode h
  exact ⟨r, hr, (selects_iff hr).2 ⟨hop, (decode_isOk_of_op hr hop).1 ⟨i, h⟩⟩⟩

/-- A word that no row selects is illegal (30_encoding R88). -/
theorem decode_error_of_unselected (h : ∀ r ∈ opTable, r.selects w = false) : ∃ e, decode w = .error e := by
  cases hd : decode w with
  | error e => exact ⟨e, rfl⟩
  | ok i =>
    obtain ⟨r, hr, hsel⟩ := selects_of_decode hd
    exact nomatch hsel.symm.trans (h r hr)

/-- Settles O3: the rows differ in their opcodes, and a row's mask has the reserved bits of its format. -/
theorem opcodeTableSelects : Obligations.OpcodeTableSelects := by
  intro w
  refine ⟨fun r hr r' hr' h h' => ?_, fun r hr h => decode_of_selects hr h, decode_error_of_unselected⟩
  obtain ⟨hop, -⟩ := (selects_iff hr).1 h
  obtain ⟨hop', -⟩ := (selects_iff hr').1 h'
  exact opTable_op_inj r hr r' hr' (hop.symm.trans hop')

end Rows

/-! ## Written commands (30_encoding R93) -/

/-- The 16 bits of a sample operand within its range are its value `y AND 0xFFFF`. -/
theorem sampleOperand_bits_toNat {y : SampleOperand} (h : y.wellFormed = true) : y.bits.toNat = y.value := by
  cases y with
  | raw y => exact BitVec.toNat_ofInt y
  | pattern p =>
    rw [SampleOperand.wellFormed, decide_eq_true_eq] at h
    exact Nat.mod_eq_of_lt (Nat.lt_succ_of_le h)

theorem cut_mnemonic (x : Written) : x.cut.mnemonic = x.mnemonic := by cases x <;> rfl

/-- Within the ranges nothing is cut: the operand field is the number R93 gives. -/
theorem cut_imm_toNat {x : Written} (h : x.wellFormed = true) : x.cut.imm.toNat = x.immValue := by
  cases x with
  | nop | reset | rdstat | clrerr | estart | dterm => rfl
  | b2s n | ebit n | dstart n =>
    rw [Written.wellFormed, decide_eq_true_eq] at h
    exact Nat.mod_eq_of_lt (Nat.lt_succ_of_le h)
  | s2b y | dsamp y =>
    have hbits : y.bits.toNat = y.value := sampleOperand_bits_toNat h
    simp only [Written.cut, Instr.imm, toNat_append_add, hbits, BitVec.toNat_ofNat, Written.immValue]
    omega
  | trans m n | rdsv m n =>
    simp only [Written.wellFormed, Bool.and_eq_true, decide_eq_true_eq] at h
    simp only [Written.cut, Instr.imm, toNat_append_add, BitVec.toNat_ofNat, Written.immValue]
    omega
  | drd n | rdpm n =>
    simp only [Written.wellFormed, decide_eq_true_eq] at h
    simp only [Written.cut, Instr.imm, toNat_append_add, BitVec.toNat_ofNat, Written.immValue]
    omega

theorem assemble_of_wellFormed {x : Written} (h : x.wellFormed = true) : x.assemble = some x.cut := if_pos h

theorem assemble_of_not_wellFormed {x : Written} (h : x.wellFormed = false) : x.assemble = none := if_neg (by simp [h])

/-- Settles O6: the word is the match of the mnemonic's row, and the operand field below it. -/
theorem writtenFormEncodes : Obligations.WrittenFormEncodes := by
  refine ⟨fun x h => ?_, opTable_mnemonic_inj, fun x => assemble_of_not_wellFormed⟩
  obtain ⟨r, hr, hmn, hmatch⟩ := exists_row x.cut
  refine ⟨x.cut, r, assemble_of_wellFormed h, hr, hmn.trans (cut_mnemonic x), ?_, decode_encode _, cut_mnemonic x⟩
  rw [encode, hmatch, toNat_append_add, toNat_append_add, cut_imm_toNat h]
  simp

/-! ## Illegal words (30_encoding R88) -/

section Issue

variable {w : Word}

theorem issue_legal {i : Instr} (h : decode w = .ok i) (s : State) : issue s w = exec i s :=
  stepRunsCommand (placeCommand s w) w s.inputs i rfl h

theorem issue_illegal {e : IllegalWord} (h : decode w = .error e) (s : State) : issue s w = fail .op s := by
  simp only [issue, step, nextInput, placeCommand_inputs, h]
  rfl

/-- Settles O4: such a word decodes to nothing, and what `ERR_OP` does is `raise`. -/
theorem illegalWordRaisesErrOp : Obligations.IllegalWordRaisesErrOp := by
  intro w h s
  obtain ⟨e, he⟩ := decode_error_of_unselected h
  exact issue_illegal he s

end Issue

/-! ## Responses (30_encoding R86, R87) -/

/-- The ports carry one response in the form of R86, and samples exactly when it says success and `ebit` holds. -/
def PortsOk (t : State) (ebit : Prop) : Prop :=
  ∃ r, t.rsp = some r ∧ r.extractLsb' 56 4 = 0#4 ∧ (rspStatus r).toNat ≤ 6 ∧ (rspStatus r ≠ 0#4 → rspData r = 0#56) ∧
    (t.cw.isSome = true ↔ rspStatus r = 0#4 ∧ ebit)

theorem okResponse_reserved (d : BitVec 56) : (okResponse d).extractLsb' 56 4 = 0#4 := by
  have := d.isLt
  apply BitVec.eq_of_toNat_eq
  rw [toNat_slice, okResponse_toNat, BitVec.toNat_ofNat]
  omega

theorem portsOk_respond (d : BitVec 56) (s : State) {ebit : Prop} (h : ¬ ebit) : PortsOk (respond d s) ebit :=
  ⟨_, rfl, okResponse_reserved d, by simp, by simp, by simp [h]⟩

theorem portsOk_respondCw (d : BitVec 56) (c : CwWord) (s : State) {ebit : Prop} (h : ebit) :
    PortsOk (respondCw d c s) ebit :=
  ⟨_, rfl, okResponse_reserved d, by simp, by simp, by simp [h]⟩

theorem portsOk_raise (e : Err) (s : State) (ebit : Prop) : PortsOk (raise e s) ebit := by
  have hform : (errResponse e).extractLsb' 56 4 = 0#4 ∧ e.code.toNat ≤ 6 := by cases e <;> decide
  exact ⟨_, rfl, hform.1, by simp [hform.2], by simp, by simp [code_ne_zero]⟩

/-- Every effect of a command ends in `respond`, `raise` or, for a successful `EBIT`, `respondCw`. -/
theorem effect_portsOk {s t : State} {i : Instr} (h : Effect s i t) : PortsOk t (∃ b, i = .ebit b) := by
  cases h with
  | read hi d =>
    refine portsOk_respond d s ?_
    rintro ⟨b, rfl⟩
    cases hi
  | ebit _ _ u => exact portsOk_respondCw _ _ _ ⟨_, rfl⟩
  | readRefused _ _ | ebitFailed _ | ebitBadBit _ _ | dstartRefused _ | dsampRefused | dtermRefused =>
    exact portsOk_raise _ _ _
  | reset | clrerr | estart | dstart _ _ _ | dsampHeld _ _ _ | dsampStepped _ _ _ _ _ | dterm _ _ _ _ =>
    exact portsOk_respond _ _ (by simp)

/-- Settles O48: a legal word has an effect of its command, an illegal one raises `ERR_OP`. -/
theorem everyCommandResponds : Obligations.EveryCommandResponds := by
  intro s t w h
  cases hd : decode w with
  | ok i =>
    rw [issue_legal hd] at h
    simpa [PortsOk] using effect_portsOk (exec_effect h)
  | error e =>
    rw [issue_illegal hd] at h
    exact fail_next h ▸ portsOk_raise .op s _

end Sys2Proof.Proofs
end

section
/-! PROOFS. Runs in parts (70_reset_and_hazards R270), and the run of `ENCODE` (30_encoding R95): its `cw` outputs are
the codeword of 42_convolutional_encoder R143. -/

namespace Sys2Proof.Proofs

open Sys2Proof.Machine Sys2Proof.Laws

/-! ## Runs in parts (70_reset_and_hazards R270) -/

section Runs

variable {s t u : State} {ws vs : List Word} {rs qs : List Reply}

/-- A run that goes on after its first word. -/
theorem runWords_cons_inv {w : Word} (h : runWords (w :: ws) s = some (rs, t)) :
    ∃ s1 rs1, issue s w = .next s1 ∧ runWords ws s1 = some (rs1, t) ∧ rs = { rsp := s1.rsp, cw := s1.cw } :: rs1 := by
  simp only [runWords] at h
  cases hw : issue s w with
  | next s1 =>
    simp only [hw, Option.map_eq_some_iff] at h
    obtain ⟨⟨rs1, t1⟩, hrun, heq⟩ := h
    cases heq
    exact ⟨s1, rs1, rfl, hrun, rfl⟩
  | fault f => simp [hw] at h
  | refused f => simp [hw] at h

theorem runWords_append (h : runWords ws s = some (rs, t)) (h' : runWords vs t = some (qs, u)) :
    runWords (ws ++ vs) s = some (rs ++ qs, u) := by
  induction ws generalizing s rs with
  | nil => cases h; exact h'
  | cons w ws ih =>
    obtain ⟨s1, rs1, hw, hrun, rfl⟩ := runWords_cons_inv h
    simp only [List.cons_append, runWords, hw, ih hrun, Option.map_some]

theorem length_of_runWords (h : runWords ws s = some (rs, t)) : rs.length = ws.length := by
  induction ws generalizing s rs with
  | nil => cases h; rfl
  | cons w ws ih =>
    obtain ⟨s1, rs1, -, hrun, rfl⟩ := runWords_cons_inv h
    rw [List.length_cons, List.length_cons, ih hrun]

end Runs

/-! ## The run of `ENCODE` -/

section EncodeRun

variable {s : State}

/-- The samples of a `cw` word, from the word made of four samples (30_encoding R87). -/
theorem cwSamples_append (y0 y1 y2 y3 : Sample) : cwSamples (y0 ++ y1 ++ y2 ++ y3) = [y0, y1, y2, y3] := by
  have hslice (lo : Nat) (y : Sample) (h : (y0 ++ y1 ++ y2 ++ y3).toNat / 2 ^ lo % 2 ^ 16 = y.toNat) :
      (y0 ++ y1 ++ y2 ++ y3).extractLsb' lo 16 = y :=
    BitVec.eq_of_toNat_eq ((toNat_slice _ lo 16).trans h)
  have := y0.isLt
  have := y1.isLt
  have := y2.isLt
  have := y3.isLt
  simp only [toNat_append_add] at hslice
  rw [cwSamples, hslice 48 y0 (by omega), hslice 32 y1 (by omega), hslice 16 y2 (by omega), hslice 0 y3 (by omega)]

theorem cwSamples_samples (x : Transition) : cwSamples x.samples = x.sampleList := cwSamples_append _ _ _ _

theorem codewordOf_cons (r : Reply) (rs : List Reply) : codewordOf (r :: rs) = codewordOf [r] ++ codewordOf rs := by
  simp [codewordOf]

/-- `EBIT` for each bit of a list, in an encode that has not failed (42_convolutional_encoder R143). -/
theorem runWords_ebits (us : List Bit) (hf : s.eflt = false) :
    ∃ rs t, runWords ((us.map (fun u => Instr.ebit (u.setWidth 24))).map encode) s = some (rs, t) ∧
      codewordOf rs = walk s.encState us ∧ t.encState = walkEnd s.encState us ∧ (∀ r ∈ rs, r.ok = true) ∧
      t.dec = s.dec := by
  induction us generalizing s with
  | nil => exact ⟨[], s, rfl, rfl, rfl, nofun, rfl⟩
  | cons u us ih =>
    obtain ⟨rs, t, hrun, hcode, hend, hok, hdec⟩ := ih (s := respondCw (transition s.encState u).data
      (transition s.encState u).samples { s with encState := (transition s.encState u).next }) hf
    refine ⟨_, t, runWords_cons (exec_ebit_ok hf (asBit_setWidth u)) hrun, ?_, hend, ?_, hdec⟩
    · rw [codewordOf_cons, hcode, walk, ← cwSamples_samples]
      simp [codewordOf]
    · exact List.forall_mem_cons.2 ⟨(reply_ok _).trans (respondCw_succeeded _ _ _), hok⟩

/-- Settles O26: `ESTART` puts the encoder in state 7 with `eflt` clear, from where the bits walk. -/
theorem encodeRunGivesCodeword : Obligations.EncodeRunGivesCodeword := by
  intro s us
  obtain ⟨rs, t, hrun, hcode, hend, hok, hdec⟩ :=
    runWords_ebits us (s := respond 0 { s with encState := 7, eflt := false }) rfl
  refine ⟨_, _, t, assembleAll_encodeCommands us, runWords_cons rfl hrun, ?_, hend, ?_, hdec⟩
  · rw [codewordOf_cons, hcode]
    rfl
  · exact List.forall_mem_cons.2 ⟨(reply_ok _).trans (respond_succeeded _ _), hok⟩

end EncodeRun

end Sys2Proof.Proofs
end

section
/-! PROOFS. `decode` as a function (44_viterbi_traceback R192): the groups of a frame, the forward pass one group
longer, and the traceback through its rows, which never meets a missing back-pointer (R189). -/

namespace Sys2Proof.Proofs

open Sys2Proof.Machine Sys2Proof.Laws

/-! ## The groups of a frame (20_memory R63, R64) -/

/-- A frame is cut into the groups it is made of, and has none when its length is not a multiple of 4. -/
theorem groupsOf_eq_some_iff {ys : List Sample} {gs : List Group} :
    groupsOf ys = some gs ↔ ys = gs.flatMap groupSamples := by
  constructor
  · intro h
    induction ys using groupsOf.induct generalizing gs with
    | case1 => cases h; rfl
    | case2 y0 y1 y2 y3 rest ih =>
      rw [groupsOf, Option.map_eq_some_iff] at h
      obtain ⟨gs', hgs', rfl⟩ := h
      rw [ih hgs']
      rfl
    | case3 ys hnil hcons =>
      rw [groupsOf] at h
      · cases h
      · exact hnil
      · exact hcons
  · rintro rfl
    induction gs with
    | nil => rfl
    | cons g gs ih =>
      show (groupsOf (gs.flatMap groupSamples)).map _ = _
      rw [ih]
      rfl

theorem length_flatMap_groupSamples (gs : List Group) : (gs.flatMap groupSamples).length = 4 * gs.length := by
  induction gs with
  | nil => rfl
  | cons g gs ih =>
    rw [List.flatMap_cons, List.length_append, ih, List.length_cons, groupSamples]
    simp only [List.length_cons, List.length_nil]
    omega

theorem exists_groups {n : Nat} {ys : List Sample} (h : ys.length = 4 * n) :
    ∃ gs : List Group, ys = gs.flatMap groupSamples ∧ gs.length = n := by
  induction n generalizing ys with
  | zero => exact ⟨[], List.length_eq_zero_iff.1 h, rfl⟩
  | succ n ih =>
    match ys, h with
    | y0 :: y1 :: y2 :: y3 :: rest, h =>
      obtain ⟨gs, rfl, rfl⟩ := ih (ys := rest) (by simpa [Nat.mul_succ] using h)
      exact ⟨⟨y0, y1, y2, y3⟩ :: gs, rfl, rfl⟩

/-! ## The forward pass -/

theorem forwardPass_append (col : Vector Metric 8) (rows : List (Vector SvEntry 8)) (gs hs : List Group) :
    forwardPass col rows (gs ++ hs) = forwardPass (forwardPass col rows gs).1 (forwardPass col rows gs).2 hs := by
  induction gs generalizing col rows with
  | nil => rfl
  | cons g gs ih => exact ih _ _

/-- Column and rows after the groups of a frame (43_viterbi_forward R159). -/
def framePass (gs : List Group) : Vector Metric 8 × List (Vector SvEntry 8) := forwardPass column0 [] gs

theorem framePass_concat (gs : List Group) (g : Group) :
    framePass (gs ++ [g]) = (stepColumn (framePass gs).1 g, stepRow (framePass gs).1 g :: (framePass gs).2) :=
  forwardPass_append _ _ _ _

theorem length_framePass_rows (gs : List Group) : (framePass gs).2.length = gs.length := by
  induction gs using List.reverseRecOn with
  | nil => rfl
  | append_singleton gs g ih => rw [framePass_concat, List.length_cons, ih, List.length_append, List.length_singleton]

theorem finiteAt_framePass (gs : List Group) : FiniteAt gs.length (framePass gs).1 := by
  induction gs using List.reverseRecOn with
  | nil => exact finiteAt_column0
  | append_singleton gs g ih =>
    rw [framePass_concat, List.length_append]
    exact finiteAt_stepColumn ih g

/-- The terminal state of a frame has a finite metric, since state 7 is always reachable (44_viterbi_traceback R186). -/
theorem term_framePass_finite (gs : List Group) : (at8 (framePass gs).1 (term (framePass gs).1)).isInf = false :=
  term_finite (i := 7#3) (by rw [finiteAt_framePass gs, reachableAt_seven]; rfl)

/-! ## The traceback through the rows (44_viterbi_traceback R188, R189) -/

/-- A finite lane has a back-pointer, to a state that was finite. -/
theorem acs_backPointer {old : Vector Metric 8} {g : Group} {i : Idx} (h : (acs old g i).1.isInf = false) :
    ∃ p u, (acs old g i).2 = some (p, u) ∧ (at8 old p).isInf = false := by
  obtain ⟨hacs, -, -⟩ | ⟨x, h1, hacs, -⟩ | ⟨x, h0, hacs, -⟩ := acs_cases old g i
  · rw [hacs] at h
    cases h
  · exact ⟨_, _, congrArg Prod.snd hacs, by rw [h1]; rfl⟩
  · exact ⟨_, _, congrArg Prod.snd hacs, by rw [h0]; rfl⟩

/-- From a state with a finite metric no back-pointer is missing. -/
theorem traceRows_exists {gs : List Group} {cur : Idx} (h : (at8 (framePass gs).1 cur).isInf = false)
    (acc : List Bit) : ∃ bits, traceRows (framePass gs).2 cur acc = some bits := by
  induction gs using List.reverseRecOn generalizing cur acc with
  | nil => exact ⟨acc, rfl⟩
  | append_singleton gs g ih =>
    rw [framePass_concat] at h ⊢
    rw [at8_stepColumn] at h
    obtain ⟨p, u, hrow, hp⟩ := acs_backPointer h
    simp only [traceRows, at8_stepRow, hrow]
    exact ih hp _

/-- A traceback puts one bit per row before those it was given. -/
theorem traceRows_eq_append {rows : List (Vector SvEntry 8)} {cur : Idx} {acc bits : List Bit}
    (h : traceRows rows cur acc = some bits) : ∃ us, bits = us ++ acc ∧ us.length = rows.length := by
  induction rows generalizing cur acc with
  | nil => exact ⟨[], (Option.some.inj h).symm, rfl⟩
  | cons row rows ih =>
    simp only [traceRows] at h
    split at h
    · cases h
    · next pred bit _ =>
      obtain ⟨us, rfl, hlen⟩ := ih h
      exact ⟨us ++ [bit], by simp, by simp [hlen]⟩

/-- `decode(Y)` of a frame that is not empty is the traceback from its terminal state. -/
theorem decodeSamples_groups {gs : List Group} (h : gs ≠ []) :
    decodeSamples (gs.flatMap groupSamples) = traceRows (framePass gs).2 (term (framePass gs).1) [] := by
  cases gs with
  | nil => exact absurd rfl h
  | cons g gs =>
    have hgroups : groupsOf ((g :: gs).flatMap groupSamples) = some (g :: gs) := groupsOf_eq_some_iff.2 rfl
    simp only [decodeSamples, hgroups, framePass]

/-- Only a positive multiple of 4 samples has a decode. -/
theorem decodeSamples_none {ys : List Sample} (h : ys.length = 0 ∨ ys.length % 4 ≠ 0) : decodeSamples ys = none := by
  cases hg : groupsOf ys with
  | none => simp only [decodeSamples, hg]
  | some gs =>
    obtain rfl := groupsOf_eq_some_iff.1 hg
    rw [length_flatMap_groupSamples] at h
    obtain rfl : gs = [] := List.length_eq_zero_iff.1 (by omega)
    rfl

/-! ## The machine's traceback -/

/-- The survivor memory holds the rows, latest first, in rows `1..rows.length` (43_viterbi_forward R167). -/
def StoredRows (sv : Memory 5) : List (Vector SvEntry 8) → Prop
  | [] => True
  | row :: rows => (∀ i, sv.read (svAddr (rows.length + 1) i) = some (packEntry (at8 row i))) ∧ StoredRows sv rows

theorem storedRows_congr {sv sv' : Memory 5} {rows : List (Vector SvEntry 8)} (h : StoredRows sv rows)
    (hold : ∀ t' i, t' ≤ rows.length → sv'.read (svAddr t' i) = sv.read (svAddr t' i)) : StoredRows sv' rows := by
  induction rows with
  | nil => trivial
  | cons row rows ih =>
    obtain ⟨hrow, hrows⟩ := h
    exact ⟨fun i => (hold _ i le_rfl).trans (hrow i), ih hrows fun t' i ht' => hold t' i (Nat.le_succ_of_le ht')⟩

/-- The traceback through the memory is the traceback through the rows it holds: bit `k` goes to `dbuf[k]`. -/
theorem traceback_of_traceRows {c : Config} {sv : Memory 5} {rows : List (Vector SvEntry 8)} {cur : Idx}
    {acc bits : List Bit} (hrows : StoredRows sv rows) (hcap : rows.length ≤ c.nMax)
    (h : traceRows rows cur acc = some bits) (db : Memory 1) :
    ∃ db', traceback c sv rows.length cur db = .ok db' ∧ ∀ k, k < rows.length → db'.read k = bits[k]? := by
  induction rows generalizing cur acc db with
  | nil => exact ⟨db, rfl, nofun⟩
  | cons row rows ih =>
    obtain ⟨hrow, hrows⟩ := hrows
    have hread := hrow cur
    simp only [traceRows] at h
    split at h
    · cases h
    · next pred bit hentry =>
      rw [hentry] at hread
      have hbp : backPointer c sv (rows.length + 1) cur = .ok (pred, bit) :=
        backPointer_ok.2 ⟨_, ⟨Nat.le_add_left 1 _, hcap⟩, hread, by simp⟩
      have hw : dbWrite c db rows.length bit = .ok (db.write rows.length bit) := dbWrite_ok.2 ⟨hcap, rfl⟩
      obtain ⟨db', htr, hbits⟩ := ih hrows (Nat.le_of_succ_le hcap) h (db.write rows.length bit)
      refine ⟨db', by simp only [List.length_cons, traceback, hbp, hw, htr], fun k hk => ?_⟩
      obtain rfl | hk := Nat.eq_or_lt_of_le (Nat.le_of_lt_succ hk)
      · obtain ⟨hkept, -, -⟩ := traceback_ok htr
        obtain ⟨us, rfl, hlen⟩ := traceRows_eq_append h
        rw [hkept _ le_rfl, read_write_same, ← hlen, List.getElem?_append_right le_rfl]
        simp
      · exact hbits k hk

end Sys2Proof.Proofs
end

section
/-! PROOFS. The run of `DECODE` (30_encoding R96, 44_viterbi_traceback R192, R194): the machine keeps the column and the
rows of the forward pass, `DTERM` traces them back, and `DRD` reads `decode(Y)` out. -/

namespace Sys2Proof.Proofs

open Sys2Proof.Machine Sys2Proof.Laws

/-! ## The forward pass of the machine -/

/-- A frame of `n` bits is running, the groups `gs` are complete and no sample is held: the registers and the survivor
memory hold the column and the rows of the forward pass (10_state R26, R27, R32). -/
structure PassAfter (n : Nat) (gs : List Group) (s : State) : Prop where
  cap : n ≤ s.cfg.nMax
  running : s.dst = .run
  bits : s.n.toNat = n
  time : s.t.toNat = gs.length
  phase : s.ph = 0
  column : s.pm = (framePass gs).1
  rows : StoredRows s.sv (framePass gs).2

section Pass

variable {n : Nat} {gs : List Group} {s : State}

theorem passAfter_dstart (h1 : 1 ≤ n) (hn : n ≤ s.cfg.nMax) (hmax : n ≤ 65535) :
    ∃ t, exec (.dstart (BitVec.ofNat 24 (4 * n))) s = .next t ∧ t.succeeded = true ∧ PassAfter n [] t := by
  have hlen : (BitVec.ofNat 24 (4 * n)).toNat = 4 * n := by
    rw [BitVec.toNat_ofNat]
    omega
  refine ⟨_, exec_dstart_ok (by omega) (by omega) (by omega), respond_succeeded _ _, hn, rfl, ?_, rfl, rfl, rfl,
    trivial⟩
  simp only [respond_n, hlen, BitVec.toNat_ofNat]
  omega

/-- The state a held sample leaves (43_viterbi_forward R158). -/
def heldState (y : Sample) (s : State) : State :=
  respond (dsampData false (s.ph + 1) s.t) { s with ybuf := s.ybuf.setIfInBounds s.ph.toNat y, ph := s.ph + 1 }

theorem exec_dsamp_heldState {y : Sample} (hd : s.dst = .run) (ht : s.t ≠ s.n) (hp : s.ph.toNat < 3) :
    exec (.dsamp y) s = .next (heldState y s) :=
  exec_dsamp_held hd ht hp

@[simp] theorem heldState_succeeded (y : Sample) (s : State) : (heldState y s).succeeded = true :=
  respond_succeeded _ _

/-- The state after the first three samples of a group. -/
def threeHeld (g : Group) (s : State) : State := heldState g.y2 (heldState g.y1 (heldState g.y0 s))

/-- The fourth sample of a group then completes it. -/
theorem heldGroup_threeHeld (g : Group) (hp : s.ph = 0) : heldGroup (threeHeld g s) g.y3 = g := by
  obtain ⟨y0, y1, y2, y3⟩ := g
  simp [heldGroup, threeHeld, heldState, hp]

/-- A completed group moves the pass one time step on (43_viterbi_forward R159, R167). -/
theorem passAfter_step (h : PassAfter n gs s) (hlt : gs.length < n) (g : Group) {sv' : Memory 5}
    (hw : svWriteRow s.cfg s.sv (s.t.toNat + 1) (stepRow s.pm g) = .ok sv') :
    PassAfter n (gs ++ [g]) (steppedState g.y3 (threeHeld g s) sv') := by
  obtain ⟨-, hnew, hold, -⟩ := svWriteRow_ok hw
  have hcol : s.pm = (framePass gs).1 := h.column
  have htime : s.t.toNat = (framePass gs).2.length := h.time.trans (length_framePass_rows gs).symm
  rw [htime, hcol] at hnew
  have hold' (t' : Nat) (i : Idx) (ht' : t' ≤ (framePass gs).2.length) :
      sv'.read (svAddr t' i) = s.sv.read (svAddr t' i) :=
    hold _ fun j hj => by have := (svAddr_inj hj).1; omega
  exact {
    cap := h.cap
    running := h.running
    bits := h.bits
    time := by
      rw [List.length_append, List.length_singleton, ← h.time]
      exact toNat_succ_of_lt (x := s.t) (y := s.n) (by rw [h.time, h.bits]; exact hlt)
    phase := rfl
    column := by
      rw [framePass_concat, ← hcol]
      exact congrArg (stepColumn s.pm) (heldGroup_threeHeld g h.phase)
    rows := by
      rw [framePass_concat]
      exact ⟨hnew, storedRows_congr h.rows hold'⟩ }

/-- The four samples of the next group. -/
theorem runWords_group (h : PassAfter n gs s) (hlt : gs.length < n) (g : Group) :
    ∃ rs t, runWords (((groupSamples g).map Instr.dsamp).map encode) s = some (rs, t) ∧ (∀ r ∈ rs, r.ok = true) ∧
      PassAfter n (gs ++ [g]) t := by
  have hne : s.t ≠ s.n := fun heq => by
    rw [← h.time, heq, h.bits] at hlt
    exact absurd hlt (Nat.lt_irrefl n)
  obtain ⟨sv', hw⟩ := svWriteRow_exists s.cfg s.sv (s.t.toNat + 1) (stepRow s.pm g) (Nat.le_add_left 1 _)
    (h.time.symm ▸ hlt.trans_le h.cap)
  have h0 := exec_dsamp_heldState (y := g.y0) h.running hne (by simp [h.phase])
  have h1 := exec_dsamp_heldState (s := heldState g.y0 s) (y := g.y1) h.running hne (by simp [heldState, h.phase])
  have h2 := exec_dsamp_heldState (s := heldState g.y1 (heldState g.y0 s)) (y := g.y2) h.running hne
    (by simp [heldState, h.phase])
  have h3 := exec_dsamp_stepped (s := threeHeld g s) (y := g.y3) (sv' := sv') h.running hne
    (by simp [threeHeld, heldState, h.phase]) (by rw [heldGroup_threeHeld g h.phase]; exact hw)
  refine ⟨_, _, runWords_cons h0 (runWords_cons h1 (runWords_cons h2 (runWords_cons h3 rfl))), ?_,
    passAfter_step h hlt g hw⟩
  simp [reply_ok]

/-- Any number of groups within the frame. -/
theorem runWords_groups (hs : List Group) (h : PassAfter n gs s) (hroom : gs.length + hs.length ≤ n) :
    ∃ rs t, runWords (((hs.flatMap groupSamples).map Instr.dsamp).map encode) s = some (rs, t) ∧
      (∀ r ∈ rs, r.ok = true) ∧ PassAfter n (gs ++ hs) t := by
  induction hs generalizing gs s with
  | nil => exact ⟨[], s, rfl, nofun, by rwa [List.append_nil]⟩
  | cons g hs ih =>
    rw [List.length_cons] at hroom
    obtain ⟨rs, t, hrun, hok, h1⟩ := runWords_group h (by omega) g
    obtain ⟨qs, u, hrun', hok', h2⟩ := ih h1 (by rw [List.length_append, List.length_singleton]; omega)
    refine ⟨rs ++ qs, u, ?_, List.forall_mem_append.2 ⟨hok, hok'⟩, by rwa [List.append_assoc] at h2⟩
    rw [List.flatMap_cons, List.map_append, List.map_append]
    exact runWords_append hrun hrun'

/-! ## Termination and reading out -/

/-- `DTERM` after the last group traces the whole frame back (44_viterbi_traceback R185). -/
theorem exec_dterm_of_pass (h : PassAfter n gs s) (hlen : gs.length = n) {bits : List Bit}
    (hbits : traceRows (framePass gs).2 (term (framePass gs).1) [] = some bits) :
    ∃ t, exec .dterm s = .next t ∧ t.succeeded = true ∧ t.dst = .done ∧ t.cfg = s.cfg ∧ t.n = s.n ∧
      ∀ k, k < n → t.dbuf.read k = bits[k]? := by
  have ht : s.t = s.n := BitVec.eq_of_toNat_eq (by rw [h.time, h.bits, hlen])
  have hrows : (framePass gs).2.length = n := (length_framePass_rows gs).trans hlen
  obtain ⟨db, htr, hdb⟩ := traceback_of_traceRows h.rows (hrows.symm ▸ h.cap) hbits s.dbuf
  rw [hrows, ← h.column, ← h.bits] at htr
  exact ⟨_, exec_dterm_ok h.running ht htr, respond_succeeded _ _, rfl, rfl, rfl, hrows ▸ hdb⟩

/-- `DRD` of bits of a finished frame, in any order (44_viterbi_traceback R191). -/
theorem runWords_drds {bits : List Bit} (hd : s.dst = .done) (hn : s.n.toNat = n) (hcap : n ≤ s.cfg.nMax)
    (hmax : n ≤ 65535) (hlen : bits.length = n) (hread : ∀ k, k < n → s.dbuf.read k = bits[k]?) (ks : List Nat)
    (hks : ∀ k ∈ ks, k < n) :
    ∃ rs t, runWords ((ks.map (fun k => Instr.drd (BitVec.ofNat 16 k))).map encode) s = some (rs, t) ∧
      (∀ r ∈ rs, r.ok = true) ∧ rs.map Reply.rsp = ks.map (fun k => bits[k]?.map (fun b => b.setWidth 64)) ∧
      t.dst = .done := by
  induction ks generalizing s with
  | nil => exact ⟨[], s, rfl, nofun, rfl, hd⟩
  | cons k ks ih =>
    obtain ⟨hk, hks⟩ := List.forall_mem_cons.1 hks
    have hk16 : (BitVec.ofNat 16 k).toNat = k := by
      rw [BitVec.toNat_ofNat]
      omega
    have hbit : bits[k]? = some bits[k] := List.getElem?_eq_getElem (hlen.symm ▸ hk)
    have hexec : exec (.drd (BitVec.ofNat 16 k)) s = answer (zext56 bits[k]) s :=
      exec_drd_ok hd (by rw [hk16, hn]; exact hk)
        (by rw [hk16]; exact dbRead_ok.2 ⟨hk.trans_le hcap, (hread k hk).trans hbit⟩)
    obtain ⟨rs, t, hrun, hok, hrsp, hdone⟩ := ih (s := respond (zext56 bits[k]) s) hd hn hcap hread hks
    refine ⟨_, t, runWords_cons hexec hrun, ?_, ?_, hdone⟩
    · exact List.forall_mem_cons.2 ⟨(reply_ok _).trans (respond_succeeded _ _), hok⟩
    · rw [List.map_cons, List.map_cons, hrsp, hbit, respond_rsp, okResponse_zext _ (by decide)]
      rfl

end Pass

/-! ## The run of `DECODE` -/

/-- The decoder's commands leave the encoder (10_state R36). -/
theorem runWords_decoder_enc {s t : State} {is : List Instr} {rs : List Reply}
    (his : ∀ i ∈ is, IsDecoderCommand i) (h : runWords (is.map encode) s = some (rs, t)) : t.enc = s.enc := by
  induction is generalizing s rs with
  | nil => cases h; rfl
  | cons i is ih =>
    obtain ⟨hi, his⟩ := List.forall_mem_cons.1 his
    obtain ⟨s1, rs1, hexec, hrun, -⟩ := runWords_cons_inv h
    rw [issue_encode] at hexec
    obtain ⟨henc, -⟩ := effect_decoder_enc_cw hi (exec_effect hexec)
    exact (ih his hrun).trans henc

/-- The commands of `DECODE Y` for a frame of `n` bits (30_encoding R96). -/
def decodeInstrs (ys : List Sample) (n : Nat) : List Instr :=
  .dstart (BitVec.ofNat 24 ys.length) :: ys.map Instr.dsamp ++
    .dterm :: (List.range n).map (fun k => Instr.drd (BitVec.ofNat 16 k))

theorem decodeInstrs_words (ys : List Sample) (n : Nat) :
    (decodeInstrs ys n).map encode =
      (encode (.dstart (BitVec.ofNat 24 ys.length)) :: (ys.map Instr.dsamp).map encode) ++
        encode .dterm :: ((List.range n).map (fun k => Instr.drd (BitVec.ofNat 16 k))).map encode := by
  rw [decodeInstrs, List.map_append, List.map_cons, List.map_cons]

theorem assembleAll_decodeInstrs {ys : List Sample} {n : Nat} (hlen : ys.length = 4 * n) (hmax : n ≤ 65535) :
    assembleAll (decodeCommands ys) = some ((decodeInstrs ys n).map encode) := by
  have hn : ys.length / 4 = n := by omega
  rw [assembleAll_decodeCommands ys (hn.symm ▸ hmax), hn, decodeInstrs]

theorem decodeInstrs_decoder (ys : List Sample) (n : Nat) : ∀ i ∈ decodeInstrs ys n, IsDecoderCommand i := by
  intro i hi
  simp only [decodeInstrs, List.cons_append, List.mem_cons, List.mem_append, List.mem_map] at hi
  obtain rfl | ⟨y, -, rfl⟩ | rfl | ⟨k, -, rfl⟩ := hi
  · exact .inl ⟨_, rfl⟩
  · exact .inr (.inl ⟨y, rfl⟩)
  · exact .inr (.inr (.inl rfl))
  · exact .inr (.inr (.inr (.inl ⟨_, rfl⟩)))

/-- A legal frame decodes, from every state (44_viterbi_traceback R192, R194). -/
theorem runWords_decode {ys : List Sample} {n : Nat} (s : State) (hlegal : s.cfg.Legal) (hlen : ys.length = 4 * n)
    (h1 : 1 ≤ n) (hn : n ≤ s.cfg.nMax) :
    ∃ bits rs t, decodeSamples ys = some bits ∧ bits.length = n ∧
      runWords ((decodeInstrs ys n).map encode) s = some (rs, t) ∧ (∀ r ∈ rs, r.ok = true) ∧
      (rs.drop (ys.length + 2)).map Reply.rsp = bits.map (fun b => some (b.setWidth 64)) ∧ t.dst = .done := by
  have hmax : n ≤ 65535 := hn.trans hlegal.2
  obtain ⟨gs, rfl, hgs⟩ := exists_groups hlen
  obtain ⟨bits, hbits⟩ := traceRows_exists (term_framePass_finite gs) []
  have hdecode : decodeSamples (gs.flatMap groupSamples) = some bits :=
    (decodeSamples_groups (List.ne_nil_of_length_pos (by omega))).trans hbits
  have hblen : bits.length = n := by
    obtain ⟨us, rfl, hus⟩ := traceRows_eq_append hbits
    rw [List.append_nil, hus, length_framePass_rows, hgs]
  obtain ⟨t0, hstart, hok0, hp0⟩ := passAfter_dstart h1 hn hmax
  obtain ⟨rs1, t1, hrun1, hok1, hp1⟩ := runWords_groups gs hp0 (by simp [hgs])
  obtain ⟨t2, hterm, hok2, hdone, hcfg, hn2, hdb⟩ := exec_dterm_of_pass hp1 hgs hbits
  obtain ⟨rs3, t3, hrun3, hok3, hrsp, hdone3⟩ := runWords_drds hdone (hn2 ▸ hp1.bits) (hcfg ▸ hp1.cap) hmax hblen hdb
    (List.range n) (fun k => List.mem_range.1)
  rw [← hlen] at hstart
  have hrun := runWords_append (runWords_cons hstart hrun1) (runWords_cons hterm hrun3)
  rw [← decodeInstrs_words] at hrun
  refine ⟨bits, _, t3, hdecode, hblen, hrun, ?_, ?_, hdone3⟩
  · exact List.forall_mem_append.2 ⟨List.forall_mem_cons.2 ⟨(reply_ok t0).trans hok0, hok1⟩,
      List.forall_mem_cons.2 ⟨(reply_ok t2).trans hok2, hok3⟩⟩
  · have hlen1 : rs1.length = (gs.flatMap groupSamples).length := by simpa using length_of_runWords hrun1
    rw [← hlen1, List.cons_append, List.drop_succ_cons, List.drop_length_add_append, List.drop_one, List.tail_cons,
      hrsp]
    refine List.ext_getElem (by simp [hblen]) fun k hk _ => ?_
    simp only [List.length_map, List.length_range] at hk
    simp [List.getElem?_eq_getElem (hblen.symm ▸ hk)]

/-- Settles O41: the run above, whose commands are the decoder's, and the `DSTART` of too long a frame. -/
theorem decodeRunGivesBits : Obligations.DecodeRunGivesBits := by
  refine ⟨fun s ys n hlegal hlen h1 hn => ?_, fun ys h => assembleAll_decodeCommands_refused ys (by omega)⟩
  obtain ⟨bits, rs, t, hdecode, hblen, hrun, hok, hrsp, hdone⟩ := runWords_decode s hlegal hlen h1 hn
  exact ⟨_, bits, rs, t, hdecode, hblen, assembleAll_decodeInstrs hlen (hn.trans hlegal.2), hrun, hok, hrsp,
    runWords_decoder_enc (decodeInstrs_decoder ys n) hrun, hdone⟩

end Sys2Proof.Proofs
end

section
/-! PROOFS. A run of `DECODE` with other words between (44_viterbi_traceback R192): they leave the decoder's state, so
the decode words alone run the same. Frames `DSTART` refuses, and the `ERR_SEQ` of what follows (30_encoding R96). -/

namespace Sys2Proof.Proofs

open Sys2Proof.Machine Sys2Proof.Laws

/-! ## Words of a decode and other words -/

section Frame

variable {s s' t : State} {i : Instr} {w : Word}

theorem usesFrame_cases (h : usesFrame i = true) : i = .reset ∨ IsDecoderCommand i := by
  cases i with
  | reset => exact .inl rfl
  | dstart len => exact .inr (.inl ⟨len, rfl⟩)
  | dsamp y => exact .inr (.inr (.inl ⟨y, rfl⟩))
  | dterm => exact .inr (.inr (.inr (.inl rfl)))
  | drd k => exact .inr (.inr (.inr (.inr (.inl ⟨k, rfl⟩))))
  | _ => cases h

/-- A word of a decode answers the same from every state with the same decoder part. -/
theorem issue_frame_congr (hw : wordIs usesFrame w = true) (he : s.dec = s'.dec) (h : issue s w = .next t) :
    ∃ t', issue s' w = .next t' ∧ t.dec = t'.dec ∧ t.rsp = t'.rsp := by
  cases hd : decode w with
  | error e => simp [wordIs, hd] at hw
  | ok i =>
    simp only [wordIs, hd] at hw
    rw [issue_legal hd] at h ⊢
    obtain rfl | hi := usesFrame_cases hw
    · obtain rfl := answer_next h
      rw [eq_of_dec_eq he.symm]
      exact ⟨_, rfl, rfl, rfl⟩
    · exact exec_decoder_congr hi he h

theorem effect_otherFrame_dec (hi : usesFrame i = false) (h : Effect s i t) : t.dec = s.dec := by
  cases h with
  | read _ _ | readRefused _ _ | clrerr | estart | ebitFailed _ | ebitBadBit _ _ | ebit _ _ _ => rfl
  | _ => cases hi

/-- Any other word, an illegal one too, leaves the decoder's state. -/
theorem issue_otherFrame_dec (hw : wordIs usesFrame w = false) (h : issue s w = .next t) : t.dec = s.dec := by
  cases hd : decode w with
  | error e =>
    rw [issue_illegal hd] at h
    obtain rfl := fail_next h
    rfl
  | ok i =>
    simp only [wordIs, hd] at hw
    rw [issue_legal hd] at h
    exact effect_otherFrame_dec hw (exec_effect h)

end Frame

/-! ## The responses of `DRD` -/

section Drd

variable {w : Word} {ws vs : List Word} {r : Reply} {rs : List Reply}

/-- The word is a `DRD`, as `drdReplies` picks them out. -/
def isDrd (w : Word) : Bool := wordIs (fun i => i.op == 0x33#8) w

theorem drdReplies_eq (ws : List Word) (rs : List Reply) :
    drdReplies ws rs = ((ws.zip rs).filter (fun x => isDrd x.1)).map (fun x => x.2.rsp) := rfl

theorem drdReplies_cons (w : Word) (ws : List Word) (r : Reply) (rs : List Reply) :
    drdReplies (w :: ws) (r :: rs) = if isDrd w = true then r.rsp :: drdReplies ws rs else drdReplies ws rs := by
  by_cases hw : isDrd w = true <;> simp [drdReplies_eq, hw]

theorem usesFrame_of_isDrd (h : isDrd w = true) : wordIs usesFrame w = true := by
  rw [isDrd, wordIs] at h
  rw [wordIs]
  cases hd : decode w with
  | error e => simp [hd] at h
  | ok i =>
    simp only [hd] at h ⊢
    cases i with
    | drd k => rfl
    | _ => cases h

theorem isDrd_encode (i : Instr) : isDrd (encode i) = (i.op == 0x33#8) := by
  simp only [isDrd, wordIs, decode_encode]

theorem isDrd_of_mem_map {α : Type} {f : α → Instr} {b : Bool} (h : ∀ a, ((f a).op == 0x33#8) = b) (as : List α) :
    ∀ w ∈ (as.map f).map encode, isDrd w = b := by
  simp only [List.map_map, List.forall_mem_map]
  exact fun a _ => (isDrd_encode _).trans (h a)

/-- Words that are no `DRD` and then words that are: the responses are those of the latter. -/
theorem drdReplies_append (hws : ∀ w ∈ ws, isDrd w = false) (hvs : ∀ w ∈ vs, isDrd w = true)
    (hlen : rs.length = (ws ++ vs).length) : drdReplies (ws ++ vs) rs = (rs.drop ws.length).map Reply.rsp := by
  induction ws generalizing rs with
  | nil =>
    induction vs generalizing rs with
    | nil => rw [List.length_eq_zero_iff.1 hlen]; rfl
    | cons v vs ih =>
      obtain ⟨hv, hvs⟩ := List.forall_mem_cons.1 hvs
      obtain ⟨r, rs, rfl⟩ := List.exists_cons_of_length_eq_add_one hlen
      have htail := ih hvs (Nat.succ.inj hlen)
      simp only [List.nil_append, List.length_nil, List.drop_zero] at htail ⊢
      rw [drdReplies_cons, if_pos hv, htail, List.map_cons]
  | cons w ws ih =>
    obtain ⟨hw, hws⟩ := List.forall_mem_cons.1 hws
    obtain ⟨r, rs, rfl⟩ := List.exists_cons_of_length_eq_add_one hlen
    rw [List.cons_append, drdReplies_cons, if_neg (by simp [hw]), ih hws (Nat.succ.inj hlen), List.length_cons,
      List.drop_succ_cons]

end Drd

/-- The decode words of a run, alone and from any state with the same decoder part, give the same `DRD` responses. -/
theorem runWords_filter_frame {s s' t : State} {ws : List Word} {rs : List Reply} (h : runWords ws s = some (rs, t))
    (he : s.dec = s'.dec) :
    ∃ qs t', runWords (ws.filter (wordIs usesFrame)) s' = some (qs, t') ∧
      drdReplies ws rs = drdReplies (ws.filter (wordIs usesFrame)) qs := by
  induction ws generalizing s s' rs with
  | nil => exact ⟨[], s', rfl, rfl⟩
  | cons w ws ih =>
    obtain ⟨s1, rs1, hissue, hrun, rfl⟩ := runWords_cons_inv h
    cases hw : wordIs usesFrame w with
    | true =>
      obtain ⟨s1', hissue', he1, hrsp⟩ := issue_frame_congr hw he hissue
      obtain ⟨qs, t', hrun', hdrd⟩ := ih hrun he1
      refine ⟨{ rsp := s1'.rsp, cw := s1'.cw } :: qs, t', ?_, ?_⟩
      · simp only [List.filter_cons_of_pos hw, runWords, hissue', hrun', Option.map_some]
      · rw [List.filter_cons_of_pos hw, drdReplies_cons, drdReplies_cons, hdrd, hrsp]
    | false =>
      have hdrd : ¬ isDrd w = true := fun hd => nomatch hw.symm.trans (usesFrame_of_isDrd hd)
      obtain ⟨qs, t', hrun', heq⟩ := ih hrun ((issue_otherFrame_dec hw hissue).trans he)
      have hfilter : (w :: ws).filter (wordIs usesFrame) = ws.filter (wordIs usesFrame) :=
        List.filter_cons_of_neg (by simp [hw])
      rw [hfilter]
      exact ⟨qs, t', hrun', by rw [drdReplies_cons, if_neg hdrd, heq]⟩

/-- The `DRD` responses of the words of `DECODE Y` are all but the first `L + 2`. -/
theorem drdReplies_decodeInstrs {ys : List Sample} {n : Nat} {s t : State} {rs : List Reply}
    (h : runWords ((decodeInstrs ys n).map encode) s = some (rs, t)) :
    drdReplies ((decodeInstrs ys n).map encode) rs = (rs.drop (ys.length + 2)).map Reply.rsp := by
  have hlen := length_of_runWords h
  rw [decodeInstrs_words, List.append_cons] at hlen ⊢
  rw [drdReplies_append ?other ?drds hlen]
  · simp
  case other =>
    have hdsamps := isDrd_of_mem_map (f := .dsamp) (fun _ => rfl) ys
    exact List.forall_mem_append.2
      ⟨List.forall_mem_cons.2 ⟨isDrd_encode _, hdsamps⟩, List.forall_mem_singleton.2 (isDrd_encode _)⟩
  case drds => exact isDrd_of_mem_map (f := fun k => .drd (BitVec.ofNat 16 k)) (fun _ => rfl) _

/-! ## Frames that are refused (30_encoding R96, 60_exceptions R230) -/

theorem assemble_eq_cut {x : Written} {i : Instr} (h : x.assemble = some i) : i = x.cut := by
  rw [Written.assemble] at h
  split at h
  · exact (Option.some.inj h).symm
  · cases h

/-- In `IDLE` every command of a decode but `DSTART` answers `ERR_SEQ` (60_exceptions R228). -/
theorem exec_decodeTail_idle {s : State} (hd : s.dst = .idle) {ys : List Sample} {x : Written}
    (hx : x ∈ (decodeCommands ys).tail) : exec x.cut s = fail .seq s := by
  simp only [decodeCommands, List.cons_append, List.tail_cons, List.mem_append, List.mem_map, List.mem_cons] at hx
  obtain ⟨y, -, rfl⟩ | rfl | ⟨k, -, rfl⟩ := hx
  · exact exec_dsamp_refused (.inl (by simp [hd]))
  · exact exec_dterm_refused (.inl (by simp [hd]))
  · exact exec_drd_refused (by simp [hd])

/-- The `DSTART` of a `DECODE` whose length it can carry answers `ERR_LEN` or `ERR_CAP` when the frame is not legal. -/
theorem issue_dstart_refused (s : State) {len : Nat} (hlen : len < 2 ^ 24) :
    ∃ t, issue s (encode (.dstart (BitVec.ofNat 24 len))) = .next t ∧
      ((len = 0 ∨ len % 4 ≠ 0) → t.rsp = some (errResponse .len) ∧ t.dst = .idle) ∧
      (len ≠ 0 → len % 4 = 0 → s.cfg.nMax < len / 4 → t.rsp = some (errResponse .cap) ∧ t.dst = .idle) := by
  have h24 : (BitVec.ofNat 24 len).toNat = len := Nat.mod_eq_of_lt hlen
  obtain ⟨t, ht⟩ := safe_dstart (BitVec.ofNat 24 len) s
  refine ⟨t, (issue_encode s _).trans ht, fun h => ?_, fun h0 hm hn => ?_⟩
  · rw [exec_dstart_len (by rwa [h24])] at ht
    obtain rfl := fail_next ht
    exact ⟨rfl, rfl⟩
  · rw [exec_dstart_cap (by rwa [h24]) (by rwa [h24]) (by rwa [h24])] at ht
    obtain rfl := fail_next ht
    exact ⟨rfl, rfl⟩

/-- Settles O42: the decode words alone are a run of `DECODE`; other frames have no decode and are refused. -/
theorem interleavedDecode : Obligations.InterleavedDecode := by
  refine ⟨?interleaved, fun ys => decodeSamples_none, ?refused, ?later⟩
  case interleaved =>
    intro s t ws ys n rs hlegal hlen h1 hn hrun hwords
    rw [assembleAll_decodeInstrs hlen (hn.trans hlegal.2), Option.some.injEq] at hwords
    obtain ⟨bits, qs, t', hdecode, hblen, hrun', -, hrsp, -⟩ := runWords_decode s hlegal hlen h1 hn
    obtain ⟨qs', t'', hrun'', hdrd⟩ := runWords_filter_frame hrun rfl
    rw [← hwords] at hrun'' hdrd
    obtain rfl : qs = qs' := congrArg Prod.fst (Option.some.inj (hrun'.symm.trans hrun''))
    exact ⟨bits, hdecode, hblen, by rw [hdrd, drdReplies_decodeInstrs hrun', hrsp]⟩
  case refused =>
    intro s ys hlen
    obtain ⟨t, hissue, hbad, hcap⟩ := issue_dstart_refused s hlen
    exact ⟨_, t, assemble_dstart (Nat.le_of_lt_succ hlen), hissue, hbad, hcap⟩
  case later =>
    intro s ys x i hd hx hi
    obtain rfl := assemble_eq_cut hi
    exact ⟨_, (issue_encode s _).trans (exec_decodeTail_idle hd hx), rfl, hd⟩

end Sys2Proof.Proofs
end


section
/-! PROOFS. The symbol mapper's commands (40_symbol_mapper R113, R114): their words, their answers, and the reserved bits
of the formats S and K (30_encoding R81). -/

namespace Sys2Proof.Proofs

open Sys2Proof.Machine Sys2Proof.Laws

/-! ## Words -/

/-- An operand under zero bits is the operand widened. -/
theorem zero_append_eq_setWidth {n : Nat} (m : Nat) (x : BitVec n) : 0#m ++ x = x.setWidth (m + n) := by
  apply BitVec.eq_of_toNat_eq
  have hx : x.toNat < 2 ^ (m + n) := x.isLt.trans_le (Nat.pow_le_pow_right Nat.two_pos (Nat.le_add_left n m))
  simp [Nat.mod_eq_of_lt hx]

/-- A word is its opcode's match with the operand field in the bits below. -/
theorem op_append_eq_or (o : BitVec 8) (imm : BitVec 24) : o ++ imm = (o ++ 0#24) ||| imm.setWidth 32 := by
  rw [← zero_append_eq_setWidth 8, BitVec.or_append, BitVec.or_zero, BitVec.zero_or]

/-- The word of a 16-bit operand under eight reserved bits. -/
theorem op_append_operand16_eq_or (o : BitVec 8) (v : BitVec 16) :
    o ++ (0#8 ++ v) = (o ++ 0#24) ||| v.setWidth 32 := by
  rw [op_append_eq_or, zero_append_eq_setWidth 8, BitVec.setWidth_setWidth (by decide)]

/-! ## Reserved bits -/

/-- An illegal word raises `ERR_OP` (30_encoding R88). -/
theorem raisesErrOp_of_decode {w : Word} {e : IllegalWord} (h : decode w = .error e) : RaisesErrOp w :=
  fun s => issue_illegal h s

/-- An operand field with a bit above the low 16 is not one of format S or K. -/
theorem formatS_reserved {op : BitVec 8} {imm : BitVec 24} {f : BitVec 16 → Instr} (h : 2 ^ 16 ≤ imm.toNat) :
    ∃ e, formatS op imm f = .error e := by
  cases hf : formatS op imm f with
  | error e => exact ⟨e, rfl⟩
  | ok i =>
    obtain ⟨v, -, rfl⟩ := formatS_ok hf
    have hv := v.isLt
    rw [zero_append_eq_setWidth, BitVec.toNat_setWidth] at h
    omega

/-! ## The commands -/

theorem exec_b2s_bit {b : BitVec 24} {u : Bit} (hu : asBit b = some u) (s : State) :
    exec (.b2s b) s = answer (zext56 (sym2sample (b2s u))) s := by
  rw [exec, execB2s, hu]

theorem exec_b2s_badBit {b : BitVec 24} (hb : 1 < b.toNat) (s : State) : exec (.b2s b) s = fail .bit s := by
  rw [exec, execB2s, asBit_of_gt hb]

/-- Settles O17: the operand is a Bit and maps to its sample, or it is greater than 1. -/
theorem b2sConverts : Obligations.B2sConverts :=
  ⟨op_append_eq_or 0x10#8, exec_b2s_bit (asBit_setWidth 0#1), exec_b2s_bit (asBit_setWidth 1#1),
    fun s _ hb => exec_b2s_badBit hb s⟩

theorem s2b_of_nonneg {y : Sample} (h : 0 ≤ y.toInt) : s2b y = 1#1 := if_pos h

theorem s2b_of_neg {y : Sample} (h : y.toInt < 0) : s2b y = 0#1 := if_neg (not_le.2 h)

theorem exec_s2b (y : Sample) (s : State) : exec (.s2b y) s = answer (zext56 (s2b y)) s := rfl

/-- Settles O18: the sign test has two outcomes, and a word with a reserved bit decodes to nothing. -/
theorem s2bThresholds : Obligations.S2bThresholds := by
  refine ⟨op_append_operand16_eq_or 0x11#8, fun s y hy => ?nonneg, fun s y hy => ?neg, fun imm himm => ?reserved⟩
  case nonneg =>
    rw [exec_s2b, s2b_of_nonneg hy]
    rfl
  case neg =>
    rw [exec_s2b, s2b_of_neg hy]
    rfl
  case reserved =>
    obtain ⟨e, he⟩ := formatS_reserved himm
    exact raisesErrOp_of_decode ((decode_append _ _).trans he)

end Sys2Proof.Proofs
end

section
/-! PROOFS. The trellis (41_trellis_model): the gate form of the transition function (R125), `TRANS` (R130), and the
state after a bit list, which is its last three bits (R126, R129). -/

namespace Sys2Proof.Proofs

open Sys2Proof.Machine Sys2Proof.Laws

/-! ## The gate form of a transition (41_trellis_model R125) -/

@[simp] theorem code_b2s (u : Bit) : (b2s u).code = u := by revert u; decide

/-- On symbol codes the product of two symbols is exclusive-nor. -/
theorem code_mul (x y : Symbol) : (x.mul y).code = ~~~(x.code ^^^ y.code) := by cases x <;> cases y <;> rfl

/-- The two inversions of a product of three symbols cancel. -/
theorem code_mul_mul (x y z : Symbol) : ((x.mul y).mul z).code = x.code ^^^ y.code ^^^ z.code := by
  rw [code_mul, code_mul, ← BitVec.not_xor_left, BitVec.not_not]

theorem ofIdx_bits (A B C : Bit) : Trellis.ofIdx (A ++ B ++ C) = { a := b2s A, b := b2s B, c := b2s C } := by
  simpa only [Trellis.idx, code_b2s] using ofIdx_idx { a := b2s A, b := b2s B, c := b2s C }

theorem exists_bits (i : Idx) : ∃ A B C : Bit, i = A ++ B ++ C := ⟨_, _, _, (idx_ofIdx i).symm⟩

@[simp] theorem transition_bits_next (A B C S : Bit) : (transition (A ++ B ++ C) S).next = B ++ C ++ S := by
  simp only [transition, ofIdx_bits, Trellis.idx, code_b2s]

theorem transition_bits_codes (A B C S : Bit) :
    (transition (A ++ B ++ C) S).codes = (A ^^^ B ^^^ S) ++ (B ^^^ C ^^^ S) ++ (A ^^^ C ^^^ S) ++ ~~~(A ^^^ S) := by
  simp only [Transition.codes, transition, ofIdx_bits, code_mul_mul, code_b2s]
  rw [code_mul, code_b2s, code_b2s]

/-! ## `TRANS` (41_trellis_model R130) -/

theorem encode_trans_toNat (q b : BitVec 8) :
    (encode (.trans q b)).toNat = 0x18000000 + (256 * q.toNat + b.toNat) := by
  show (0x18#8 ++ (0#8 ++ q ++ b)).toNat = _
  simp only [toNat_append_add, BitVec.toNat_ofNat]
  omega

theorem exec_trans_badState {q : BitVec 8} (hq : 7 < q.toNat) (b : BitVec 8) (s : State) :
    exec (.trans q b) s = fail .idx s := by
  rw [exec, execTrans, asIdx_of_gt hq]

theorem exec_trans_badBit {q b : BitVec 8} (hq : q.toNat ≤ 7) (hb : 1 < b.toNat) (s : State) :
    exec (.trans q b) s = fail .bit s := by
  rw [exec, execTrans, asIdx_of_le hq, asBit_of_gt hb]

theorem exec_trans_ok {q b : BitVec 8} {i : Idx} {u : Bit} (hq : asIdx q = some i) (hb : asBit b = some u) (s : State) :
    exec (.trans q b) s = answer (transition i u).data s := by
  rw [exec, execTrans, hq, hb]

theorem asIdx_bits (A B C : Bit) : asIdx (0#5 ++ A ++ B ++ C) = some (A ++ B ++ C) := by
  revert A B C
  decide

theorem asBit_append (S : Bit) : asBit (0#7 ++ S) = some S := by
  revert S
  decide

/-- The response of `TRANS` and `EBIT`, bit by bit (30_encoding R86, R91). -/
theorem okResponse_transition_bits (A B C S : Bit) :
    okResponse (transition (A ++ B ++ C) S).data =
      0#57 ++ B ++ C ++ S ++ (A ^^^ B ^^^ S) ++ (B ^^^ C ^^^ S) ++ (A ^^^ C ^^^ S) ++ ~~~(A ^^^ S) := by
  rw [Transition.data, transition_bits_next, transition_bits_codes]
  generalize A ^^^ B ^^^ S = o0, B ^^^ C ^^^ S = o1, A ^^^ C ^^^ S = o2, ~~~(A ^^^ S) = o3
  apply BitVec.eq_of_toNat_eq
  have h := (B ++ C ++ S ++ (o0 ++ o1 ++ o2 ++ o3)).isLt
  rw [okResponse_toNat, zext56, BitVec.toNat_setWidth]
  simp only [toNat_append_add, BitVec.toNat_ofNat] at h ⊢
  omega

/-- An operand field with a bit above the low 16 is not one of format T. -/
theorem formatT_reserved {op : BitVec 8} {imm : BitVec 24} {f : BitVec 8 → BitVec 8 → Instr}
    (h : 2 ^ 16 ≤ imm.toNat) : ∃ e, formatT op imm f = .error e := by
  cases hf : formatT op imm f with
  | error e => exact ⟨e, rfl⟩
  | ok i =>
    obtain ⟨u, v, -, rfl⟩ := formatT_ok hf
    have hu := u.isLt
    have hv := v.isLt
    simp only [toNat_append_add, BitVec.toNat_ofNat] at h
    omega

/-- Settles O19: the gate form of the transition, and one refusal per illegal operand and for the reserved bits. -/
theorem transEvaluates : Obligations.TransEvaluates := by
  refine ⟨encode_trans_toNat, fun s A B C S => ?legal, fun s q b hq => exec_trans_badState hq b s,
    fun s q b hq hb => exec_trans_badBit hq hb s, fun imm himm => ?reserved⟩
  case legal =>
    rw [exec_trans_ok (asIdx_bits A B C) (asBit_append S), ← okResponse_transition_bits]
    rfl
  case reserved =>
    obtain ⟨e, he⟩ := formatT_reserved himm
    exact raisesErrOp_of_decode ((decode_append _ _).trans he)

/-! ## The last three bits (41_trellis_model R126) -/

/-- Each bit shifts the state by one, so three of them replace it. -/
theorem walkEnd_lastThree (q : Idx) (us : List Bit) (a b c : Bit) : walkEnd q (us ++ [a, b, c]) = a ++ b ++ c := by
  obtain ⟨A, B, C, hq⟩ := exists_bits (walkEnd q us)
  simp only [walkEnd_append, hq, walkEnd, transition_bits_next]

/-- The initial state 7 is the one that three 1 bits lead to. -/
theorem walkEnd_seven (us : List Bit) : walkEnd 7#3 us = walkEnd 7#3 ([1#1, 1#1, 1#1] ++ us) := by
  rw [walkEnd_append]
  exact congrArg (walkEnd · us) (walkEnd_lastThree 7#3 [] 1#1 1#1 1#1).symm

/-- Settles O20: the message with three 1 bits before it ends in the state of its last three bits. -/
theorem outputsFromLastThreeBits : Obligations.OutputsFromLastThreeBits := by
  intro us start a b c u h
  have hend : walkEnd 7#3 us = a ++ b ++ c := by rw [walkEnd_seven, h, walkEnd_lastThree]
  refine ⟨hend, ?_⟩
  rw [hend, transition_bits_codes]
  ac_rfl

/-! ## The reachable states (41_trellis_model R129) -/

theorem reachableAt_iff (j : Nat) (i : Idx) :
    reachableAt j i = true ↔ (j = 0 ∧ i.toNat = 7) ∨ (j = 1 ∧ 6 ≤ i.toNat) ∨ (j = 2 ∧ 4 ≤ i.toNat) ∨ 3 ≤ j := by
  match j with
  | 0 | 1 | 2 | _ + 3 => simp [reachableAt]

/-- The bit lists of one more bit that lead to `i` are those that lead to a predecessor of `i`, with its input bit. -/
theorem exists_walkEnd_succ (j : Nat) (i : Idx) :
    (∃ us : List Bit, us.length = j + 1 ∧ walkEnd 7#3 us = i) ↔
      ∃ us : List Bit, us.length = j ∧ (walkEnd 7#3 us = pred0 i ∨ walkEnd 7#3 us = pred1 i) := by
  constructor
  · rintro ⟨us, hlen, hend⟩
    obtain ⟨vs, u, rfl, hvs⟩ := exists_concat_of_length hlen
    rw [walkEnd_concat, transition_next_iff] at hend
    exact ⟨vs, hvs, hend.1⟩
  · rintro ⟨us, hlen, hend⟩
    exact ⟨us ++ [inputBit i], by simp [hlen], by rw [walkEnd_concat, transition_next_iff]; exact ⟨hend, rfl⟩⟩

theorem exists_walkEnd_iff (j : Nat) (i : Idx) :
    (∃ us : List Bit, us.length = j ∧ walkEnd 7#3 us = i) ↔ reachableAt j i = true := by
  induction j generalizing i with
  | zero =>
    simp only [List.length_eq_zero_iff, exists_eq_left, walkEnd, reachableAt, decide_eq_true_eq]
    rw [eq_comm, BitVec.toNat_eq]
    rfl
  | succ j ih =>
    rw [exists_walkEnd_succ, reachableAt_succ, Bool.or_eq_true, ← ih, ← ih, ← exists_or]
    simp only [and_or_left]

/-- Settles O21: the invariant's reachable states are those some bit list leads to. -/
theorem reachableStates : Obligations.ReachableStates :=
  ⟨fun j i => (exists_walkEnd_iff j i).trans (reachableAt_iff j i), walkEnd_lastThree⟩

end Sys2Proof.Proofs
end

section
/-! PROOFS. The encoder (42_convolutional_encoder): `ESTART` (R141), `EBIT` (R142, R146), an encode that has failed
(R145), the codeword's laws (R144), and an encode with other words between its commands (R143). -/

namespace Sys2Proof.Proofs

open Sys2Proof.Machine Sys2Proof.Laws

/-! ## `ESTART` (42_convolutional_encoder R141) -/

theorem exec_estart (s : State) : exec .estart s = answer 0 { s with encState := 7, eflt := false } := rfl

/-- A format Z word with an operand bit set is no command (30_encoding R81). -/
theorem formatZ_reserved {op : BitVec 8} {imm : BitVec 24} {i : Instr} (h : imm ≠ 0#24) :
    formatZ op imm i = .error (.reservedBit op) :=
  if_neg h

/-- Settles O22: the command's two writes, and the reserved bits of its format. -/
theorem estartBegins : Obligations.EstartBegins :=
  ⟨by decide, exec_estart, fun _ himm => raisesErrOp_of_decode ((decode_append _ _).trans (formatZ_reserved himm))⟩

/-! ## `EBIT` (42_convolutional_encoder R142, R146) -/

theorem sym2sample_eq_ite (o : Symbol) : sym2sample o = if o.code = 1#1 then 0x0100#16 else 0xFF00#16 := by
  cases o <;> decide

/-- The samples of a transition, each from the gate form of its symbol code (41_trellis_model R125). -/
theorem transition_bits_samples (A B C S : Bit) :
    (transition (A ++ B ++ C) S).samples =
      (if A ^^^ B ^^^ S = 1#1 then 0x0100#16 else 0xFF00#16) ++
        (if B ^^^ C ^^^ S = 1#1 then 0x0100#16 else 0xFF00#16) ++
        (if A ^^^ C ^^^ S = 1#1 then 0x0100#16 else 0xFF00#16) ++
        (if ~~~(A ^^^ S) = 1#1 then 0x0100#16 else 0xFF00#16) := by
  simp only [Transition.samples, sym2sample_eq_ite, transition, ofIdx_bits, code_mul_mul, code_b2s]
  rw [code_mul, code_b2s, code_b2s]

/-- Settles O23: the gate form of the transition, and one refusal for each of the two errors. -/
theorem ebitEncodes : Obligations.EbitEncodes := by
  refine ⟨op_append_eq_or 0x21#8, fun s A B C S hf hq => ?legal, fun s b hf => exec_ebit_failed hf,
    fun s b hf hb => exec_ebit_badBit hf hb⟩
  have hbit : asBit (0#23 ++ S) = some S := by rw [zero_append_eq_setWidth]; exact asBit_setWidth S
  rw [exec_ebit_ok hf hbit, hq, ← okResponse_transition_bits, ← transition_bits_samples, ← transition_bits_next A B C S]
  rfl

/-! ## Codewords (42_convolutional_encoder R144) -/

/-- Every sample of a codeword is that of a symbol. -/
theorem exists_symbol_of_mem_walk {q : Idx} {us : List Bit} {y : Sample} (h : y ∈ walk q us) :
    ∃ o, y = sym2sample o := by
  induction us generalizing q with
  | nil => cases h
  | cons u us ih =>
    rw [walk, List.mem_append] at h
    obtain h | h := h
    · simp only [Transition.sampleList, List.mem_cons, List.not_mem_nil, or_false] at h
      obtain rfl | rfl | rfl | rfl := h <;> exact ⟨_, rfl⟩
    · exact ih h

/-- Settles O28: a codeword is a walk, and a walk goes on from where its start ends. -/
theorem codewordLaws : Obligations.CodewordLaws := by
  refine ⟨length_encodeBits, fun us y hy => ?samples, fun us vs => ?grows⟩
  case samples =>
    obtain ⟨o, rfl⟩ := exists_symbol_of_mem_walk hy
    cases o with
    | neg => exact .inr rfl
    | pos => exact .inl rfl
  case grows => exact ⟨walk (walkEnd 7#3 us) vs, (walk_append 7#3 us vs).symm⟩

/-! ## Single words of a run -/

section Words

variable {s s' t : State} {i : Instr} {w : Word}

/-- Samples appear on `cw` only by an `EBIT` of an encode that has not failed (30_encoding R87). -/
theorem effect_cw_none (h : Effect s i t) (hi : ∀ b, i = .ebit b → s.eflt = true) : t.cw = none := by
  cases h with
  | ebit hf _ _ => exact nomatch hf.symm.trans (hi _ rfl)
  | _ => rfl

/-- A word other than `ESTART` and `RESET` in an encode that has failed (42_convolutional_encoder R145). -/
theorem issue_failed (hf : s.eflt = true) (hw : w ≠ encode .estart ∧ w ≠ encode .reset) (h : issue s w = .next t) :
    t.eflt = true ∧ t.cw = none ∧ ∀ b, decode w = .ok (.ebit b) → t.rsp = some (errResponse .seq) := by
  cases hd : decode w with
  | error e =>
    rw [issue_illegal hd] at h
    obtain rfl := fail_next h
    exact ⟨hf, rfl, nofun⟩
  | ok i =>
    rw [issue_legal hd] at h
    have heff := exec_effect h
    obtain rfl := encode_of_decode hd
    refine ⟨?eflt, effect_cw_none heff fun _ _ => hf, fun b hb => ?rsp⟩
    case eflt =>
      obtain ⟨rfl | rfl, -⟩ | ⟨-, -, -, hf', -⟩ | ⟨-, -, hkept⟩ := effect_eflt heff
      · exact absurd rfl hw.1
      · exact absurd rfl hw.2
      · exact nomatch hf.symm.trans hf'
      · exact hkept.trans hf
    case rsp =>
      obtain rfl := Except.ok.inj hb
      exact (effect_ebit_failed heff hf).1

theorem usesEncoder_cases (h : usesEncoder i = true) : i = .reset ∨ IsEncoderCommand i := by
  cases i with
  | reset => exact .inl rfl
  | estart => exact .inr (.inl rfl)
  | ebit b => exact .inr (.inr ⟨b, rfl⟩)
  | _ => cases h

/-- An encoder word answers the same from every state with the same encoder part. -/
theorem issue_encoder_congr (hw : wordIs usesEncoder w = true) (he : s.enc = s'.enc) (h : issue s w = .next t) :
    ∃ t', issue s' w = .next t' ∧ t.enc = t'.enc ∧ t.cw = t'.cw := by
  cases hd : decode w with
  | error e => simp [wordIs, hd] at hw
  | ok i =>
    simp only [wordIs, hd] at hw
    rw [issue_legal hd] at h ⊢
    obtain rfl | hi := usesEncoder_cases hw
    · obtain rfl := answer_next h
      exact ⟨_, rfl, rfl, rfl⟩
    · obtain ⟨t', h', henc, -, hcw⟩ := exec_encoder_congr hi he h
      exact ⟨t', h', henc, hcw⟩

theorem effect_otherEncoder_enc (hi : usesEncoder i = false) (h : Effect s i t) : t.enc = s.enc := by
  cases h with
  | reset | estart | ebitFailed _ | ebitBadBit _ _ | ebit _ _ _ => cases hi
  | _ => rfl

/-- Any other word, an illegal one too, leaves the encoder's state and puts nothing on `cw`. -/
theorem issue_otherEncoder (hw : wordIs usesEncoder w = false) (h : issue s w = .next t) :
    t.enc = s.enc ∧ t.cw = none := by
  cases hd : decode w with
  | error e =>
    rw [issue_illegal hd] at h
    obtain rfl := fail_next h
    exact ⟨rfl, rfl⟩
  | ok i =>
    simp only [wordIs, hd] at hw
    rw [issue_legal hd] at h
    have heff := exec_effect h
    refine ⟨effect_otherEncoder_enc hw heff, effect_cw_none heff ?_⟩
    rintro b rfl
    cases hw

end Words

/-! ## Runs (42_convolutional_encoder R143, R145) -/

/-- Settles O25: each word keeps `eflt` and shows nothing on `cw`, and an `EBIT` among them is refused. -/
theorem failedEncodeStaysFailed : Obligations.FailedEncodeStaysFailed := by
  intro ws
  induction ws with
  | nil =>
    intro s t rs hf _ hrun
    cases hrun
    exact ⟨hf, nofun, nofun⟩
  | cons w ws ih =>
    intro s t rs hf hws hrun
    obtain ⟨hw, hws⟩ := List.forall_mem_cons.1 hws
    obtain ⟨s1, rs1, hissue, htail, rfl⟩ := runWords_cons_inv hrun
    obtain ⟨hf1, hcw, hrsp⟩ := issue_failed hf hw hissue
    obtain ⟨hft, hcws, hrsps⟩ := ih s1 t rs1 hf1 hws htail
    exact ⟨hft, List.forall_mem_cons.2 ⟨hcw, hcws⟩, List.forall_mem_cons.2 ⟨hrsp, hrsps⟩⟩

/-- The encoder words of a run, alone and from any state with the same encoder part, give the same codeword and leave
the same encoder part. -/
theorem runWords_filter_encoder {s s' t : State} {ws : List Word} {rs : List Reply}
    (h : runWords ws s = some (rs, t)) (he : s.enc = s'.enc) :
    ∃ qs t', runWords (ws.filter (wordIs usesEncoder)) s' = some (qs, t') ∧ codewordOf rs = codewordOf qs ∧
      t.enc = t'.enc := by
  induction ws generalizing s s' rs with
  | nil =>
    cases h
    exact ⟨[], s', rfl, rfl, he⟩
  | cons w ws ih =>
    obtain ⟨s1, rs1, hissue, hrun, rfl⟩ := runWords_cons_inv h
    cases hw : wordIs usesEncoder w with
    | true =>
      obtain ⟨s1', hissue', he1, hcw⟩ := issue_encoder_congr hw he hissue
      obtain ⟨qs, t', hrun', hcode, het⟩ := ih hrun he1
      refine ⟨{ rsp := s1'.rsp, cw := s1'.cw } :: qs, t', ?_, ?_, het⟩
      · simp only [List.filter_cons_of_pos hw, runWords, hissue', hrun', Option.map_some]
      · simp only [codewordOf, List.flatMap_cons, hcw] at hcode ⊢
        rw [hcode]
    | false =>
      obtain ⟨he1, hcw⟩ := issue_otherEncoder hw hissue
      obtain ⟨qs, t', hrun', hcode, het⟩ := ih hrun (he1.trans he)
      rw [List.filter_cons_of_neg (by simp [hw])]
      refine ⟨qs, t', hrun', ?_, het⟩
      rw [← hcode, codewordOf_cons, hcw]
      rfl

/-- `EBIT` of Bits does not fail an encode. -/
theorem eflt_of_runWords_ebits {s t : State} {us : List Bit} {rs : List Reply} (hf : s.eflt = false)
    (h : runWords ((us.map (fun u => Instr.ebit (u.setWidth 24))).map encode) s = some (rs, t)) : t.eflt = false := by
  induction us generalizing s rs with
  | nil =>
    cases h
    exact hf
  | cons u us ih =>
    obtain ⟨s1, rs1, hissue, htail, -⟩ := runWords_cons_inv h
    rw [issue_encode, exec_ebit_ok hf (asBit_setWidth u), Host.Outcome.next.injEq] at hissue
    exact ih ((congrArg State.eflt hissue).symm.trans hf) htail

/-- Settles O27: the encoder words alone are a run of `ENCODE`, whose codeword and last state are known. -/
theorem interleavedEncode : Obligations.InterleavedEncode := by
  intro s t ws us rs hrun hwords
  obtain ⟨qs, t', hrun', hcode, henc⟩ := runWords_filter_encoder hrun rfl
  obtain ⟨vs, qs', t'', hvs, hencode, hcode', hend, -, -⟩ := encodeRunGivesCodeword s us
  obtain rfl := Option.some.inj (hvs.symm.trans hwords)
  cases hencode.symm.trans hrun'
  rw [assembleAll_encodeCommands, Option.some.injEq] at hwords
  rw [← hwords] at hrun'
  obtain ⟨s1, qs1, hissue, hbits, -⟩ := runWords_cons_inv hrun'
  rw [issue_encode, exec_estart] at hissue
  have hf : t'.eflt = false := eflt_of_runWords_ebits (congrArg State.eflt (answer_next hissue)) hbits
  exact ⟨hcode.trans hcode', (congrArg EncView.encState henc).trans hend, (congrArg EncView.eflt henc).trans hf⟩

end Sys2Proof.Proofs
end

section
/-! PROOFS. The branch metric (43_viterbi_forward R161, R163), one time step in both of its forms (R159, R165, R166,
R168), the least path cost (R169), and the commands `DSTART` and `DSAMP` (R156 to R158, R167). -/

namespace Sys2Proof.Proofs

open Sys2Proof.Machine Sys2Proof.Laws

/-! ## The branch metric over the integers (43_viterbi_forward R161, R163) -/

/-- The products of 41_trellis_model R122 are those of the numbers −1 and +1. -/
@[simp] theorem val_mul (x y : Symbol) : (x.mul y).val = x.val * y.val := by cases x <;> cases y <;> rfl

theorem coe_sqDiff (y : Sample) (o : Symbol) : (sqDiff y o : Int) = (y.toInt - o.val * 256) ^ 2 := by
  rw [sqDiff, sampleValue, one, Int.toNat_of_nonneg (mul_self_nonneg _), sq]

theorem coe_branchMetric (p : Idx) (u : Bit) (g : Group) :
    (branchMetric p u g : Int) =
      (g.y0.toInt - (transition p u).o0.val * 256) ^ 2 + (g.y1.toInt - (transition p u).o1.val * 256) ^ 2 +
        (g.y2.toInt - (transition p u).o2.val * 256) ^ 2 + (g.y3.toInt - (transition p u).o3.val * 256) ^ 2 := by
  simp only [branchMetric, Nat.cast_add, coe_sqDiff]

/-- Settles O29: the outputs of the transition from `(a, b, c)` are the four products. -/
theorem branchMetricValue : Obligations.BranchMetricValue := by
  intro q u g
  simp only [coe_branchMetric, transition, ofIdx_idx, val_mul]

theorem diff_bounds (y : Sample) (o : Symbol) :
    -33024 ≤ y.toInt - o.val * 256 ∧ y.toInt - o.val * 256 ≤ 33023 := by
  have hlo : -32768 ≤ y.toInt := BitVec.le_toInt y
  have hhi : y.toInt < 32768 := BitVec.toInt_lt
  cases o <;> simp only [Symbol.val] <;> omega

theorem sqDiff_eq_zero_iff (y : Sample) (o : Symbol) : sqDiff y o = 0 ↔ y.toInt = o.val * 256 := by
  rw [← Int.natCast_eq_zero, coe_sqDiff, sq_eq_zero_iff, sub_eq_zero]

/-- A sum of four squares is 0 exactly when each of them is. -/
theorem branchMetric_eq_zero_iff (p : Idx) (u : Bit) (g : Group) :
    branchMetric p u g = 0 ↔
      g.y0.toInt = (transition p u).o0.val * 256 ∧ g.y1.toInt = (transition p u).o1.val * 256 ∧
        g.y2.toInt = (transition p u).o2.val * 256 ∧ g.y3.toInt = (transition p u).o3.val * 256 := by
  simp only [branchMetric, Nat.add_eq_zero_iff, sqDiff_eq_zero_iff, and_assoc]

/-- Settles O30: one square is at most `33024²`, four of them at most `BM_MAX`. -/
theorem branchMetricBounds : Obligations.BranchMetricBounds := by
  refine ⟨fun y o => ⟨(diff_bounds y o).1, (diff_bounds y o).2, ?square⟩, fun p u g =>
    ⟨branchMetric_le p u g, (branchMetric_le p u g).trans_lt (by decide), branchMetric_eq_zero_iff p u g⟩⟩
  case square =>
    rw [← coe_sqDiff]
    exact Int.ofNat_le.2 (sqDiff_le y o)

/-! ## One time step takes the minimum (43_viterbi_forward R165, R166) -/

/-- Settles O31: a lane has the least candidate of its transitions, which come from two predecessors. -/
theorem stepTakesMinimum : Obligations.StepTakesMinimum := by
  intro old g ns
  rw [at8_stepColumn, at8_stepRow]
  refine ⟨?finite, ?inf, pred0 ns, pred1 ns, inputBit ns, fun p u => (transition_next_iff p u ns).1⟩
  case finite =>
    intro m hm
    obtain ⟨hacs, -⟩ | ⟨p, u, x, hnext, hp, hacs, hmin⟩ := acs_least old g ns
    · rw [hacs] at hm
      cases hm
    · rw [hacs] at hm ⊢
      obtain rfl := Metric.fin.inj hm
      exact ⟨⟨p, u, x, hnext, hp, rfl, rfl⟩, hmin⟩
  case inf =>
    intro hm
    obtain ⟨hacs, hinf⟩ | ⟨p, u, x, -, -, hacs, -⟩ := acs_least old g ns
    · exact ⟨congrArg Prod.snd hacs, hinf⟩
    · rw [hacs] at hm
      cases hm

/-- Of two transitions into one state, that with the lower predecessor index comes from `pred0`. -/
theorem preds_of_lt {p p' ns : Idx} {u u' : Bit} (h : (transition p u).next = ns) (h' : (transition p' u').next = ns)
    (hlt : p.toNat < p'.toNat) : (p = pred0 ns ∧ u = inputBit ns) ∧ (p' = pred1 ns ∧ u' = inputBit ns) := by
  obtain ⟨hp, hu⟩ := (transition_next_iff p u ns).1 h
  obtain ⟨hp', hu'⟩ := (transition_next_iff p' u' ns).1 h'
  have hpreds := pred0_lt_pred1 ns
  obtain rfl | rfl := hp <;> obtain rfl | rfl := hp'
  · exact absurd hlt (lt_irrefl _)
  · exact ⟨⟨rfl, hu⟩, rfl, hu'⟩
  · exact absurd hlt hpreds.asymm
  · exact absurd hlt (lt_irrefl _)

/-- Settles O32: the lane takes the upper predecessor only when its candidate is strictly smaller. -/
theorem stepTieBreak : Obligations.StepTieBreak := by
  intro old g p p' ns u u' x x' hnext hnext' hlt hx hx' heq
  obtain ⟨⟨rfl, rfl⟩, rfl, rfl⟩ := preds_of_lt hnext hnext' hlt
  rw [at8_stepRow, at8_stepColumn]
  obtain ⟨-, h0, -⟩ | ⟨z, h1, -, hless⟩ | ⟨z, h0, hacs, -⟩ := acs_cases old g ns
  · rw [hx] at h0
    cases h0
  · rw [hx'] at h1
    cases h1
    exact absurd (hless x hx) heq.not_gt
  · rw [hx] at h0
    cases h0
    rw [hacs]
    exact ⟨rfl, rfl⟩

/-! ## The three cases of a lane (43_viterbi_forward R159) -/

/-- A lane with two infinite candidates stays infinite and has no back-pointer. -/
theorem acs_of_inf {old : Vector Metric 8} {g : Group} {ns : Idx}
    (h0 : candidate old g (pred0 ns) (inputBit ns) = .inf) (h1 : candidate old g (pred1 ns) (inputBit ns) = .inf) :
    acs old g ns = (.inf, none) :=
  if_pos ⟨h0, h1⟩

/-- A lane takes the upper predecessor when its candidate is strictly smaller. -/
theorem acs_of_lt {old : Vector Metric 8} {g : Group} {ns : Idx}
    (h : (candidate old g (pred1 ns) (inputBit ns)).lt (candidate old g (pred0 ns) (inputBit ns)) = true) :
    acs old g ns = (candidate old g (pred1 ns) (inputBit ns), some (pred1 ns, inputBit ns)) := by
  have hfin : candidate old g (pred1 ns) (inputBit ns) ≠ .inf := fun hinf => by simp [hinf] at h
  exact (if_neg fun hinf => hfin hinf.2).trans (if_pos h)

/-- A lane with a finite candidate keeps the lower predecessor otherwise. -/
theorem acs_of_not_lt {old : Vector Metric 8} {g : Group} {ns : Idx}
    (hfin : ¬ (candidate old g (pred0 ns) (inputBit ns) = .inf ∧ candidate old g (pred1 ns) (inputBit ns) = .inf))
    (h : (candidate old g (pred1 ns) (inputBit ns)).lt (candidate old g (pred0 ns) (inputBit ns)) = false) :
    acs old g ns = (candidate old g (pred0 ns) (inputBit ns), some (pred0 ns, inputBit ns)) :=
  (if_neg hfin).trans (if_neg (by simp [h]))

/-! ## The source's loop (43_viterbi_forward R168) -/

/-- What one pair does to the entry of its own next state: a strictly smaller candidate replaces it. -/
def keepSmaller (old : Vector Metric 8) (g : Group) (x : Metric × SvEntry) (pu : Idx × Bit) : Metric × SvEntry :=
  if (candidate old g pu.1 pu.2).lt x.1 then (candidate old g pu.1 pu.2, some pu) else x

/-- The entry of one state sees only the pairs that lead to that state. -/
theorem foldl_propose (old : Vector Metric 8) (g : Group) (ns : Idx) (pus : List (Idx × Bit))
    (acc : Idx → Metric × SvEntry) :
    pus.foldl (propose old g) acc ns =
      (pus.filter (fun pu => (transition pu.1 pu.2).next = ns)).foldl (keepSmaller old g) (acc ns) := by
  induction pus generalizing acc with
  | nil => rfl
  | cons pu pus ih =>
    rw [List.foldl_cons, ih]
    by_cases hnext : (transition pu.1 pu.2).next = ns
    · simp [propose, keepSmaller, hnext]
    · simp [propose, hnext]

/-- In the order of the loop, `pred0` comes before `pred1`. -/
theorem filter_loopPairs (ns : Idx) :
    (allStates.flatMap (fun p => [(p, 0#1), (p, 1#1)])).filter (fun pu => (transition pu.1 pu.2).next = ns) =
      [(pred0 ns, inputBit ns), (pred1 ns, inputBit ns)] := by
  revert ns
  decide

/-- Add, compare, select is the loop's turn for `pred0` and then for `pred1`. -/
theorem acs_eq_keepSmaller (old : Vector Metric 8) (g : Group) (ns : Idx) :
    acs old g ns =
      keepSmaller old g (keepSmaller old g (.inf, none) (pred0 ns, inputBit ns)) (pred1 ns, inputBit ns) := by
  cases h0 : candidate old g (pred0 ns) (inputBit ns) with
  | inf => cases h1 : candidate old g (pred1 ns) (inputBit ns) <;> simp [acs, keepSmaller, h0, h1]
  | fin x => simp [acs, keepSmaller, h0]

/-- Settles O33: the loop's pairs that lead to a state are those of its lane, in the same order. -/
theorem stepAgreesWithLoop : Obligations.StepAgreesWithLoop := by
  intro old g ns
  rw [loopStep, foldl_propose, filter_loopPairs, at8_stepColumn, at8_stepRow, acs_eq_keepSmaller]
  rfl

/-! ## The least path cost (43_viterbi_forward R169) -/

/-- The cost of a path is the squared distance between the samples and its codeword. -/
theorem pathCost_eq_dist {us : List Bit} {gs : List Group} (q : Idx) (h : us.length = gs.length) :
    pathCost q us gs = Machine.dist (gs.flatMap groupSamples) (walk q us) := by
  induction us generalizing q gs with
  | nil =>
    obtain rfl : gs = [] := List.length_eq_zero_iff.1 h.symm
    rfl
  | cons u us ih =>
    match gs, h with
    | g :: gs, h =>
      rw [pathCost, ih _ (Nat.succ.inj h), List.flatMap_cons, walk,
        dist_append (xs := groupSamples g) (as := (transition q u).sampleList) _ _ rfl, dist_group]

/-- The columns of the forward pass are those of a machine that stores its rows, so they hold the least distances. -/
theorem exists_leastDistance_framePass (gs : List Group) :
    ∃ sv, ∀ i, LeastDistance (gs.flatMap groupSamples) gs.length sv i (at8 (framePass gs).1 i) := by
  induction gs using List.reverseRecOn with
  | nil => exact ⟨[], leastDistance_column0 []⟩
  | append_singleton gs g ih =>
    obtain ⟨sv, hsv⟩ := ih
    obtain ⟨sv', hw⟩ := svWriteRow_exists ⟨gs.length + 1⟩ sv (gs.length + 1) (stepRow (framePass gs).1 g)
      (Nat.le_add_left 1 _) le_rfl
    obtain ⟨-, hnew, hold, -⟩ := svWriteRow_ok hw
    refine ⟨sv', fun i => ?_⟩
    rw [framePass_concat, List.flatMap_append, List.flatMap_singleton, List.length_append, List.length_singleton]
    exact leastDistance_step (length_flatMap_groupSamples gs) hsv hnew hold i

/-- Settles O34: the columns hold the least distances, and a path's cost is its distance. -/
theorem columnIsLeastCost : Obligations.ColumnIsLeastCost := by
  refine ⟨fun gs i => ?least, fun ys gs us hgs hlen => ?distance⟩
  case least =>
    obtain ⟨sv, hsv⟩ := exists_leastDistance_framePass gs
    obtain ⟨hfin, hinf⟩ := hsv i
    refine ⟨fun m hm => ?_, hinf⟩
    obtain ⟨⟨us, hlen, hend, hdist, -⟩, hmin⟩ := hfin m hm
    refine ⟨⟨us, hlen, hend, (pathCost_eq_dist _ hlen).trans hdist⟩, fun vs hvs hvend => ?_⟩
    rw [pathCost_eq_dist _ hvs]
    exact hmin vs hvs hvend
  case distance =>
    rw [groupsOf_eq_some_iff.1 hgs]
    exact pathCost_eq_dist _ hlen

/-! ## `DSTART` (43_viterbi_forward R156, R157) -/

/-- Settles O36: a legal length begins a frame at column 0, and the two errors abandon the frame. -/
theorem dstartBegins : Obligations.DstartBegins := by
  refine ⟨op_append_eq_or 0x30#8, fun s len hlegal hl hm hn => ?legal, fun s len hl => exec_dstart_len hl,
    fun s len hl hm hn => exec_dstart_cap hl hm hn⟩
  refine ⟨column0, BitVec.ofNat 16 (len.toNat / 4), ?next, ?count, at8_column0 7#3, fun i hi => ?infinite⟩
  case next =>
    rw [exec_dstart_ok hl hm hn, ← okResponse_zext _ (by decide)]
    rfl
  case count =>
    have hmax : len.toNat / 4 ≤ 65535 := hn.trans hlegal.2
    rw [BitVec.toNat_ofNat]
    omega
  case infinite => rw [at8_column0, if_neg hi]

/-! ## `DSAMP` (43_viterbi_forward R158, R167) -/

/-- The response of `DSAMP`: the step flag, `ph` and `t` under 45 zero bits (30_encoding R86, R91). -/
theorem okResponse_dsampData (b : Bool) (p : BitVec 2) (t : BitVec 16) :
    okResponse (dsampData b p t) = 0#45 ++ BitVec.ofBool b ++ p ++ t := by
  have hlt := (BitVec.ofBool b ++ p ++ t).isLt
  apply BitVec.eq_of_toNat_eq
  rw [dsampData, okResponse_zext _ (by decide), BitVec.toNat_setWidth]
  simp only [toNat_append_add, BitVec.toNat_ofNat] at hlt ⊢
  omega

/-- Settles O37: a sample is held, or it completes a group and each lane of the time step has its three cases. -/
theorem dsampDelivers : Obligations.DsampDelivers := by
  refine ⟨op_append_operand16_eq_or 0x31#8, fun s y hd ht hp => ?held, fun s y hd ht hp hroom => ?stepped,
    fun s y h => exec_dsamp_refused h, fun imm himm => ?reserved⟩
  case held =>
    refine ⟨s.ybuf.setIfInBounds s.ph.toNat y, ?_, fun j => ?_⟩
    · have hrsp := okResponse_dsampData false (s.ph + 1) s.t
      rw [exec_dsamp_held hd ht hp, holdSample, answer, respond, hrsp]
      rfl
    · simp [Vector.getElem_setIfInBounds, eq_comm]
  case stepped =>
    obtain ⟨sv', hw⟩ := svWriteRow_exists s.cfg s.sv (s.t.toNat + 1) (stepRow s.pm (heldGroup s y))
      (Nat.le_add_left 1 _) hroom
    obtain ⟨-, hnew, hold, -⟩ := svWriteRow_ok hw
    refine ⟨stepColumn s.pm (heldGroup s y), sv', ?_, fun ns c0 c1 hc0 hc1 => ?lane, hold⟩
    · have hrsp := okResponse_dsampData true 0 (s.t + 1)
      rw [exec_dsamp_stepped hd ht hp hw, steppedState, respond, hrsp]
      rfl
    case lane =>
      have hrow := hnew ns
      rw [at8_stepRow, svAddr] at hrow
      rw [at8_stepColumn, hrow, hc0, hc1]
      refine ⟨fun h0 h1 => ?_, fun hlt => ?_, fun hfin hle => ?_⟩
      · rw [acs_of_inf h0 h1]
        exact ⟨rfl, rfl⟩
      · rw [acs_of_lt hlt]
        exact ⟨rfl, rfl⟩
      · rw [acs_of_not_lt hfin hle]
        exact ⟨rfl, rfl⟩
  case reserved =>
    obtain ⟨e, he⟩ := formatS_reserved himm
    exact raisesErrOp_of_decode ((decode_append _ _).trans he)

end Sys2Proof.Proofs
end

section
/-! PROOFS. Termination and traceback (44_viterbi_traceback): the terminal state (R186), `DTERM` (R185, R188, R189) and
`DRD` (R191). -/

namespace Sys2Proof.Proofs

open Sys2Proof.Machine Sys2Proof.Laws

/-! ## The terminal state (44_viterbi_traceback R186) -/

/-- The order of 43_viterbi_forward R160 is that of the natural numbers with infinity above them. -/
def metricRank : Metric → WithTop Nat
  | .inf => ⊤
  | .fin m => (m : WithTop Nat)

theorem lt_iff_metricRank {x y : Metric} : x.lt y = true ↔ metricRank x < metricRank y := by
  cases x <;> cases y <;> simp [metricRank]

theorem foldl_argAux_metricRank (pm : Vector Metric 8) (is : List Idx) (best : Idx) :
    is.foldl (List.argAux fun i j => metricRank (at8 pm i) < metricRank (at8 pm j)) (some best) =
      some (is.foldl (fun best i => if (at8 pm i).lt (at8 pm best) then i else best) best) := by
  induction is generalizing best with
  | nil => rfl
  | cons i is ih =>
    rw [List.foldl_cons, List.foldl_cons, ← ih, List.argAux]
    simp only [lt_iff_metricRank, apply_ite some]

/-- The scan of R186 is the library's: it finds the first state in index order that attains the least metric. -/
theorem term_mem_argmin (pm : Vector Metric 8) :
    term pm ∈ List.argmin (fun i => metricRank (at8 pm i)) allStates := by
  rw [term, allStates, List.foldl_cons, ite_self]
  exact foldl_argAux_metricRank pm _ 0

theorem idxOf_allStates (i : Idx) : allStates.idxOf i = i.toNat := by revert i; decide

/-- Settles O38: the terminal state is the first in `allStates` of least metric. -/
theorem termIsLeast : Obligations.TermIsLeast := by
  intro pm i
  have hmin := term_mem_argmin pm
  have hleast := List.not_lt_of_mem_argmin (mem_allStates i) hmin
  constructor
  · rwa [Bool.eq_false_iff, Ne, lt_iff_metricRank]
  · intro hlt
    rw [lt_iff_metricRank]
    by_contra hle
    have hidx := List.index_of_argmin hmin (mem_allStates i) (not_lt.1 hle)
    rw [idxOf_allStates, idxOf_allStates] at hidx
    exact absurd hlt hidx.not_gt

/-! ## `DTERM` (44_viterbi_traceback R185, R188, R189) -/

section Traceback

variable {c : Config} {sv : Memory 5} {k : Nat} {cur : Idx} {db db' : Memory 1} {path : Nat → Idx}

/-- One step of a traceback that answers: a valid entry is read, its bit written, its predecessor taken. -/
theorem traceback_succ_ok (h : traceback c sv (k + 1) cur db = .ok db') :
    ∃ e, sv.read (svAddr (k + 1) cur) = some e ∧ entryValid e = true ∧
      traceback c sv k (entryPred e) (db.write k (entryBit e)) = .ok db' := by
  simp only [traceback] at h
  split at h
  · cases h
  · next hbp =>
    obtain ⟨e, -, he, hv, rfl, rfl⟩ := backPointer_ok.1 hbp
    split at h
    · cases h
    · next hw =>
      obtain ⟨-, rfl⟩ := dbWrite_ok.1 hw
      exact ⟨e, he, hv, h⟩

/-- The states of `path` follow the back-pointers of time steps `1..k`, and `db` holds the bits recorded on the way. -/
def TracedPath (sv : Memory 5) (db : Memory 1) (k : Nat) (path : Nat → Idx) : Prop :=
  ∀ j, j < k → ∃ e, sv.read (svAddr (j + 1) (path (j + 1))) = some e ∧ entryValid e = true ∧ path j = entryPred e ∧
    db.read j = some (entryBit e)

/-- A traceback that answers has followed a path from its start (44_viterbi_traceback R188). -/
theorem exists_tracedPath (h : traceback c sv k cur db = .ok db') : ∃ path, path k = cur ∧ TracedPath sv db' k path := by
  induction k generalizing cur db with
  | zero => exact ⟨fun _ => cur, rfl, nofun⟩
  | succ k ih =>
    obtain ⟨e, he, hv, htr⟩ := traceback_succ_ok h
    obtain ⟨path, hlast, hpath⟩ := ih htr
    obtain ⟨hkept, -, -⟩ := traceback_ok htr
    have hbelow (j : Nat) (hj : j ≤ k) : Function.update path (k + 1) cur j = path j :=
      Function.update_of_ne (Nat.lt_succ_of_le hj).ne _ _
    refine ⟨Function.update path (k + 1) cur, Function.update_self _ _ _, fun j hj => ?_⟩
    obtain rfl | hj := Nat.eq_or_lt_of_le (Nat.le_of_lt_succ hj)
    · rw [Function.update_self, hbelow j le_rfl]
      exact ⟨e, he, hv, hlast, by rw [hkept j le_rfl, read_write_same]⟩
    · rw [hbelow (j + 1) hj, hbelow j hj.le]
      exact hpath j hj

/-- Through the rows of the invariant a path meets reachable states only, and records their parities
(44_viterbi_traceback R189). -/
theorem TracedPath.entryOk (h : TracedPath sv db k path)
    (hrows : ∀ t' i, 1 ≤ t' → t' ≤ k → ∃ e, sv.read (svAddr t' i) = some e ∧ EntryOk t' i e) {j : Nat} (hj : j < k) :
    reachableAt j (path j) = true ∧
      ∃ e, sv.read (svAddr (j + 1) (path (j + 1))) = some e ∧ entryValid e = true ∧ path j = entryPred e ∧
        entryBit e = inputBit (path (j + 1)) ∧ db.read j = some (entryBit e) := by
  obtain ⟨e, he, hv, hpred, hbit⟩ := h j hj
  obtain ⟨e', he', -, hsome, -⟩ := hrows (j + 1) (path (j + 1)) (Nat.le_add_left 1 j) hj
  obtain rfl := Option.some.inj (he.symm.trans he')
  obtain ⟨hparity, -, hreach⟩ := hsome hv
  exact ⟨hpred ▸ hreach, e, he, hv, hpred, hparity, hbit⟩

end Traceback

theorem eq_seven_of_reachableAt_zero {i : Idx} (h : reachableAt 0 i = true) : i = 7#3 := by
  revert i; decide

/-- The response of `DTERM`: the terminal metric, a zero bit and the terminal state (30_encoding R91). -/
theorem okResponse_dtermData (m : Nat) (ts : Idx) :
    okResponse (dtermData (.fin m) ts) = 0#11 ++ BitVec.ofNat 49 m ++ 0#1 ++ ts := by
  have hlt := (BitVec.ofNat 49 m ++ 0#1 ++ ts).isLt
  apply BitVec.eq_of_toNat_eq
  rw [dtermData, Metric.val, okResponse_zext _ (by decide), BitVec.toNat_setWidth]
  simp only [toNat_append_add, BitVec.toNat_ofNat] at hlt ⊢
  omega

/-- In a running frame the terminal state has a finite metric (44_viterbi_traceback R186). -/
theorem term_finite_of_inv {s : State} (h : s.Inv) (hd : s.dst ≠ .idle) : ∃ m, at8 s.pm (term s.pm) = .fin m := by
  have hfin : (at8 s.pm (term s.pm)).isInf = false :=
    term_finite (i := 7#3) (by rw [h.finiteSet hd, reachableAt_seven]; rfl)
  cases hm : at8 s.pm (term s.pm) with
  | inf => rw [hm] at hfin; cases hfin
  | fin m => exact ⟨m, rfl⟩

/-- Settles O39: the traceback follows a path from the terminal state, through reachable states down to state 7. -/
theorem dtermTracesBack : Obligations.DtermTracesBack := by
  refine ⟨by decide, fun s hinv hd ht => ?traces, fun s h => exec_dterm_refused h, fun imm himm => ?reserved⟩
  case traces =>
    have hne : s.dst ≠ .idle := by simp [hd]
    obtain ⟨m, hm⟩ := term_finite_of_inv hinv hne
    obtain ⟨h1, hn, -⟩ := hinv.frameBounds hne
    have hcur : reachableAt s.n.toNat (term s.pm) = true := ht ▸ reachableAt_of_fin (hinv.finiteSet hne) hm
    have hrows := ht ▸ hinv.rowsWritten hne
    obtain ⟨db, htr⟩ := traceback_exists hn hrows hcur s.dbuf
    obtain ⟨hkept, -, -⟩ := traceback_ok htr
    obtain ⟨path, hlast, hpath⟩ := exists_tracedPath htr
    obtain ⟨hfirst, -⟩ := hpath.entryOk hrows h1
    refine ⟨db, m, path, ?next, hm, metric_lt_of_inv hinv hne hm, hlast, eq_seven_of_reachableAt_zero hfirst,
      fun k hk => (hpath.entryOk hrows hk).2, hkept⟩
    case next =>
      rw [exec_dterm_ok hd ht htr, hm, answer, respond, okResponse_dtermData]
  case reserved => exact raisesErrOp_of_decode ((decode_append _ _).trans (formatZ_reserved himm))

/-! ## `DRD` (44_viterbi_traceback R191) -/

/-- Settles O40: the two refusals, a bit that is there, and the reserved bits of format K. -/
theorem drdReadsBit : Obligations.DrdReadsBit := by
  refine ⟨op_append_operand16_eq_or 0x33#8, fun s k b hd hk hcap hb => ?bit, fun s k hd => exec_drd_refused hd,
    fun s k hd hk => exec_drd_range hd hk, fun imm himm => ?reserved⟩
  case bit =>
    rw [exec_drd_ok hd hk (dbRead_ok.2 ⟨hcap, hb⟩), answer, respond, okResponse_zext _ (by decide)]
  case reserved =>
    obtain ⟨e, he⟩ := formatS_reserved himm
    exact raisesErrOp_of_decode ((decode_append _ _).trans he)

end Sys2Proof.Proofs
end

section
/-! PROOFS. The guarantee of `decode` (44_viterbi_traceback R190), and the round trip through a channel without noise
(R193). -/

namespace Sys2Proof.Proofs

open Sys2Proof.Machine Sys2Proof.Laws

/-! ## The decoded bits are the closest (44_viterbi_traceback R190) -/

/-- From a state with a finite metric the traceback gives the bits of a walk that ends there and attains the metric. -/
theorem traceRows_attains {gs : List Group} {cur : Idx} {m : Nat} (h : at8 (framePass gs).1 cur = .fin m)
    (acc : List Bit) :
    ∃ us, traceRows (framePass gs).2 cur acc = some (us ++ acc) ∧ us.length = gs.length ∧ walkEnd 7#3 us = cur ∧
      Machine.dist (gs.flatMap groupSamples) (encodeBits us) = m := by
  induction gs using List.reverseRecOn generalizing cur m acc with
  | nil =>
    rw [framePass, forwardPass, at8_column0] at h
    split at h
    · next hcur => exact ⟨[], rfl, rfl, hcur.symm, Metric.fin.inj h⟩
    · cases h
  | append_singleton gs g ih =>
    rw [framePass_concat] at h ⊢
    rw [at8_stepColumn] at h
    obtain ⟨hacs, -⟩ | ⟨p, u, x, hnext, hp, hacs, -⟩ := acs_least (framePass gs).1 g cur
    · rw [hacs] at h
      cases h
    · rw [hacs] at h
      obtain rfl := Metric.fin.inj h
      obtain ⟨us, htrace, hlen, hend, hdist⟩ := ih hp (u :: acc)
      have hsamples : (gs.flatMap groupSamples).length = 4 * us.length := by rw [length_flatMap_groupSamples, hlen]
      refine ⟨us ++ [u], ?_, by simp [hlen], by rw [walkEnd_concat, hend, hnext], ?_⟩
      · simp only [traceRows, at8_stepRow, hacs, htrace, List.append_assoc, List.singleton_append]
      · rw [List.flatMap_append, List.flatMap_singleton, dist_concat hsamples, hdist, hend]

/-- No codeword of a frame's length is closer to the samples than the terminal metric (43_viterbi_forward R169,
44_viterbi_traceback R186). -/
theorem term_framePass_le {gs : List Group} {m : Nat} (hm : at8 (framePass gs).1 (term (framePass gs).1) = .fin m)
    {us : List Bit} (hus : us.length = gs.length) :
    m ≤ Machine.dist (gs.flatMap groupSamples) (encodeBits us) := by
  obtain ⟨sv, hsv⟩ := exists_leastDistance_framePass gs
  obtain ⟨hfin, hinf⟩ := hsv (walkEnd 7#3 us)
  obtain ⟨hleast, -⟩ := termIsLeast (framePass gs).1 (walkEnd 7#3 us)
  cases hx : at8 (framePass gs).1 (walkEnd 7#3 us) with
  | inf => exact absurd rfl (hinf hx us hus)
  | fin x =>
    have hle : m ≤ x := by simpa [hx, hm] using hleast
    exact hle.trans ((hfin x hx).2 us hus rfl)

/-- Settles O43: the decoded bits attain the terminal metric, and no codeword is closer than that. -/
theorem decodeIsOptimal : Obligations.DecodeIsOptimal := by
  intro ys n hlen h1
  obtain ⟨gs, rfl, rfl⟩ := exists_groups hlen
  have hne : gs ≠ [] := List.ne_nil_of_length_pos h1
  cases hm : at8 (framePass gs).1 (term (framePass gs).1) with
  | inf =>
    have hfin := term_framePass_finite gs
    rw [hm] at hfin
    cases hfin
  | fin m =>
    obtain ⟨bits, htrace, hbits, -, hdist⟩ := traceRows_attains hm []
    rw [List.append_nil] at htrace
    refine ⟨bits, (decodeSamples_groups hne).trans htrace, hbits, fun us hus => ?_⟩
    rw [hdist]
    exact term_framePass_le hm hus

/-! ## Distance 0 (44_viterbi_traceback R193) -/

/-- Sample lists of one length are at distance 0 exactly when they are equal. -/
theorem dist_eq_zero_iff {ys zs : List Sample} (h : ys.length = zs.length) : Machine.dist ys zs = 0 ↔ ys = zs := by
  induction ys generalizing zs with
  | nil =>
    obtain rfl : zs = [] := List.length_eq_zero_iff.1 h.symm
    exact iff_of_true rfl rfl
  | cons y ys ih =>
    cases zs with
    | nil => cases h
    | cons z zs =>
      have hsquare : ((y.toInt - z.toInt) * (y.toInt - z.toInt)).toNat = 0 ↔ y = z := by
        rw [Int.toNat_eq_zero, (mul_self_nonneg _).ge_iff_eq', mul_self_eq_zero, sub_eq_zero, BitVec.toInt_inj]
      rw [Machine.dist, Nat.add_eq_zero_iff, hsquare, ih (Nat.succ.inj h), List.cons.injEq]

/-- From one state the outputs of a transition tell its input bit (41_trellis_model R122). -/
theorem sampleList_inj {q : Idx} {u v : Bit} (h : (transition q u).sampleList = (transition q v).sampleList) :
    u = v := by
  revert q u v; decide

theorem walk_inj {q : Idx} {us vs : List Bit} (hlen : us.length = vs.length) (h : walk q us = walk q vs) : us = vs := by
  induction us generalizing q vs with
  | nil => exact (List.length_eq_zero_iff.1 hlen.symm).symm
  | cons u us ih =>
    cases vs with
    | nil => cases hlen
    | cons v vs =>
      obtain ⟨hsamples, hrest⟩ := List.append_inj h rfl
      obtain rfl := sampleList_inj hsamples
      rw [ih (Nat.succ.inj hlen) hrest]

/-- Settles O44: the decoded bits are at distance 0 as the message is, so their codewords are equal. -/
theorem noiselessRoundTrip : Obligations.NoiselessRoundTrip := by
  refine ⟨fun bits hne => ?roundTrip, fun us vs => walk_inj, rfl, rfl⟩
  case roundTrip =>
    obtain ⟨us, hdecode, hlen, hmin⟩ := decodeIsOptimal (encodeBits bits) bits.length (length_encodeBits bits)
      (List.length_pos_of_ne_nil hne)
    have hself : Machine.dist (encodeBits bits) (encodeBits bits) = 0 := (dist_eq_zero_iff rfl).2 rfl
    have hzero : Machine.dist (encodeBits bits) (encodeBits us) = 0 := Nat.le_zero.1 (hself ▸ hmin bits rfl)
    have hcodes : encodeBits bits = encodeBits us :=
      (dist_eq_zero_iff (by rw [length_encodeBits, length_encodeBits, hlen])).1 hzero
    rw [hdecode, walk_inj hlen.symm hcodes]

end Sys2Proof.Proofs
end

section
/-! PROOFS. The system and inspection commands (45_system_ops): `NOP` (R205), `RESET` (R206), `RDSTAT` (R207), `CLRERR`
(R208), `RDPM` (R210) and `RDSV` (R211). -/

namespace Sys2Proof.Proofs

open Sys2Proof.Machine Sys2Proof.Laws

/-! ## Reserved bits of the formats Z, P and V (30_encoding R81) -/

section Reserved

variable {op : BitVec 8} {imm : BitVec 24}

theorem raisesErrOp_of_formatZ {i : Instr} (hop : ∀ x, decodeFields op x = formatZ op x i) (h : imm ≠ 0#24) :
    RaisesErrOp (op ++ imm) :=
  raisesErrOp_of_decode ((decode_append op imm).trans ((hop imm).trans (formatZ_reserved h)))

/-- An operand field with a bit above the low 3 is not one of format P. -/
theorem formatP_reserved {f : Idx → Instr} (h : 8 ≤ imm.toNat) : ∃ e, formatP op imm f = .error e := by
  cases hf : formatP op imm f with
  | error e => exact ⟨e, rfl⟩
  | ok i =>
    obtain ⟨v, -, rfl⟩ := formatP_ok hf
    have hv := v.isLt
    rw [zero_append_eq_setWidth, BitVec.toNat_setWidth] at h
    omega

/-- An operand field with a bit above the low 19 is not one of format V. -/
theorem formatV_reserved {f : BitVec 16 → Idx → Instr} (h : 2 ^ 19 ≤ imm.toNat) :
    ∃ e, formatV op imm f = .error e := by
  cases hf : formatV op imm f with
  | error e => exact ⟨e, rfl⟩
  | ok i =>
    obtain ⟨u, v, -, rfl⟩ := formatV_ok hf
    have hu := u.isLt
    have hv := v.isLt
    simp only [toNat_append_add, BitVec.toNat_ofNat] at h
    omega

end Reserved

/-! ## `NOP`, `RESET` and `CLRERR` (45_system_ops R205, R206, R208) -/

theorem exec_nop (s : State) : exec .nop s = answer 0 s := rfl

theorem exec_reset (s : State) : exec .reset s = answer 0 (resetRegs s) := rfl

theorem exec_clrerr (s : State) : exec .clrerr s = answer 0 (clearErrors s) := rfl

/-- Settles O11: the answer 0 on the state as it was, and the reserved bits of its format. -/
theorem nopDoesNothing : Obligations.NopDoesNothing :=
  ⟨by decide, exec_nop, fun _ => raisesErrOp_of_formatZ fun _ => rfl⟩

/-- Settles O14: the command's two writes, and the reserved bits of its format. -/
theorem clrerrClearsRecord : Obligations.ClrerrClearsRecord :=
  ⟨by decide, exec_clrerr, fun _ => raisesErrOp_of_formatZ fun _ => rfl⟩

/-! ## `RDSTAT` (45_system_ops R207, 10_state R31) -/

theorem exec_rdstat (s : State) : exec .rdstat s = answer (statusWord s) s := rfl

theorem statusWord_toNat (s : State) :
    (statusWord s).toNat = s.n.toNat * 2 ^ 40 + s.t.toNat * 2 ^ 24 + s.lasterr.toNat * 2 ^ 16 +
      s.errflags.toNat * 2 ^ 8 + s.ph.toNat * 2 ^ 3 + s.eflt.toNat * 2 ^ 2 + s.dst.bits.toNat := by
  simp only [statusWord, toNat_append_add, BitVec.toNat_ofNat, BitVec.toNat_ofBool]
  omega

/-- Every field of the status word has the reset value 0. -/
theorem statusWord_resetRegs (s : State) : statusWord (respond 0 (resetRegs s)) = 0 := by
  apply BitVec.eq_of_toNat_eq
  simp [statusWord_toNat, Dst.bits]

/-- Settles O12: the writes of `resetRegs`, the status word of what they leave, and the reserved bits of its format. -/
theorem resetCommandResets : Obligations.ResetCommandResets := by
  refine ⟨by decide, exec_reset, fun s t h => ?status, fun _ => raisesErrOp_of_formatZ fun _ => rfl⟩
  case status =>
    obtain rfl : t = respond 0 (resetRegs s) := answer_next h
    refine ⟨_, exec_rdstat _, ?_⟩
    rw [statusWord_resetRegs]
    rfl

/-- Settles O13: the fields of the status word as numbers, and the reserved bits of its format. -/
theorem rdstatReadsStatus : Obligations.RdstatReadsStatus := by
  refine ⟨by decide, fun s => ⟨okResponse (statusWord s), exec_rdstat s, ?value⟩,
    fun _ => raisesErrOp_of_formatZ fun _ => rfl⟩
  case value =>
    have heflt : s.eflt.toNat * 2 ^ 2 = if s.eflt then 4 else 0 := by cases s.eflt <;> rfl
    rw [okResponse_toNat, statusWord_toNat, heflt]
    cases s.dst <;> rfl

/-! ## `RDPM` (45_system_ops R210) -/

/-- The word of a state index under 21 reserved bits. -/
theorem op_append_idx_eq_or (o : BitVec 8) (i : Idx) : o ++ (0#21 ++ i) = (o ++ 0#24) ||| i.setWidth 32 := by
  rw [op_append_eq_or, zero_append_eq_setWidth 21, BitVec.setWidth_setWidth (by decide)]

/-- The value field takes the 49 low bits of a finite metric. -/
theorem rdpmData_fin_mod (m : Nat) : rdpmData (.fin (m % 2 ^ 49)) = rdpmData (.fin m) := by
  have hval : (Metric.fin (m % 2 ^ 49)).val = (Metric.fin m).val := BitVec.eq_of_toNat_eq (Nat.mod_mod m (2 ^ 49))
  rw [rdpmData, hval]
  rfl

/-- Settles O15: the flag alone for `INF`, the value field for a finite metric, and the two refusals. -/
theorem rdpmReadsMetric : Obligations.RdpmReadsMetric := by
  refine ⟨op_append_idx_eq_or 0x38#8,
    fun s i hd => ⟨okResponse (rdpmData (at8 s.pm i)), exec_rdpm_of_frame i hd, fun hm => ?inf, fun m hm => ?fin⟩,
    fun s i hd => exec_rdpm_idle hd, fun imm himm => ?reserved⟩
  case inf =>
    rw [hm]
    rfl
  case fin => rw [hm, okResponse_toNat, ← rdpmData_fin_mod, rdpmData_fin_toNat (Nat.mod_lt m (Nat.two_pow_pos 49))]
  case reserved =>
    obtain ⟨e, he⟩ := formatP_reserved himm
    exact raisesErrOp_of_decode ((decode_append _ _).trans he)

/-! ## `RDSV` (45_system_ops R211) -/

theorem encode_rdsv_toNat (tt : BitVec 16) (i : Idx) :
    (encode (.rdsv tt i)).toNat = 0x39000000 + (8 * tt.toNat + i.toNat) := by
  show (0x39#8 ++ (0#5 ++ tt ++ i)).toNat = _
  simp only [toNat_append_add, BitVec.toNat_ofNat]
  omega

/-- Settles O16: an entry that is there, the two refusals in their order, and the reserved bits of format V. -/
theorem rdsvReadsEntry : Obligations.RdsvReadsEntry := by
  refine ⟨encode_rdsv_toNat, fun s tt i e hd h1 ht hcap he => ?entry, fun s tt i hd => exec_rdsv_idle hd,
    fun s tt i hd ht => exec_rdsv_range hd ht, fun imm himm => ?reserved⟩
  case entry =>
    rw [exec_rdsv_ok hd h1 ht (svRead_ok.2 ⟨⟨h1, hcap⟩, he⟩), answer, respond, okResponse_zext _ (by decide)]
  case reserved =>
    obtain ⟨e, he⟩ := formatV_reserved himm
    exact raisesErrOp_of_decode ((decode_append _ _).trans he)

end Sys2Proof.Proofs
end

section
/-! PROOFS. The errors of 60_exceptions: when a command answers `ERR_SEQ` (R228), what a failing command changes (R232,
R233), which command raises which error (R235), and the idle block (R248). -/

namespace Sys2Proof.Proofs

open Sys2Proof.Machine Sys2Proof.Laws

/-! ## Nothing sent (60_exceptions R248) -/

theorem step_noInput {s : State} (hin : s.inputs = []) : step s = .next (idle s) := by
  simp only [step, nextInput, hin]

/-- Settles O9: with no input a step is `idle`, which clears the two ports. -/
theorem idleStepKeepsState : Obligations.IdleStepKeepsState := fun _ hin => step_noInput hin

/-! ## What a failing command changes (60_exceptions R232, R233) -/

theorem code_bounds (e : Err) : 1 ≤ e.code.toNat ∧ e.code.toNat ≤ 6 := by cases e <;> decide

/-- `raise` in the form of R232, its flag as a shift by the code (10_state R29). -/
theorem raise_eq_shift (e : Err) {s base : State} (hf : base.errflags = s.errflags) :
    raise e base = { base with
      errflags := s.errflags ||| (1#6 <<< (e.code.toNat - 1)), lasterr := e.code, rsp := some (e.code ++ 0#60)
      cw := none } := by
  rw [raise, hf, flag_eq_shift]
  rfl

section Failures

variable {s t : State} {i : Instr} {w : Word}

/-- The three ways a command can fail: the two exceptions of R233, and on the state as it was. -/
theorem effect_failure_cases (h : Effect s i t) (hf : t.succeeded = false) :
    (∃ b, i = .ebit b ∧ t = raise .bit { s with eflt := true }) ∨
    (∃ len e, i = .dstart len ∧ t = raise e (abandonFrame s)) ∨
    (∃ e, (∀ b, i = .ebit b → e.code ≠ Err.bit.code) ∧ (∀ len, i ≠ .dstart len) ∧ t = raise e s) := by
  cases h with
  | readRefused hi e =>
    refine .inr (.inr ⟨e, ?_, ?_, rfl⟩)
    · rintro b rfl; cases hi
    · rintro len rfl; cases hi
  | ebitBadBit _ _ => exact .inl ⟨_, rfl, rfl⟩
  | dstartRefused e => exact .inr (.inl ⟨_, e, rfl, rfl⟩)
  | ebitFailed _ | dsampRefused | dtermRefused => exact .inr (.inr ⟨.seq, fun _ _ => by decide, nofun, rfl⟩)
  | read _ _ | reset | clrerr | estart | ebit _ _ _ | dstart _ _ _ | dsampHeld _ _ _ | dsampStepped _ _ _ _ _
  | dterm _ _ _ _ => simp at hf

/-- The same of a word: an illegal one fails on the state as it was (30_encoding R88). -/
theorem issue_failure_cases (h : issue s w = .next t) (hf : t.succeeded = false) :
    (∃ b, decode w = .ok (.ebit b) ∧ t = raise .bit { s with eflt := true }) ∨
    (∃ len e, decode w = .ok (.dstart len) ∧ t = raise e (abandonFrame s)) ∨
    (∃ e, (∀ b, decode w = .ok (.ebit b) → e.code ≠ Err.bit.code) ∧ (∀ len, decode w ≠ .ok (.dstart len)) ∧
      t = raise e s) := by
  cases hd : decode w with
  | ok i =>
    rw [issue_legal hd] at h
    simpa only [Except.ok.injEq, ne_eq] using effect_failure_cases (exec_effect h) hf
  | error x =>
    rw [issue_illegal hd] at h
    exact .inr (.inr ⟨.op, nofun, nofun, fail_next h⟩)

end Failures

/-- Settles O46: the base is the state each of the three failures raises its error on. -/
theorem failuresArePrecise : Obligations.FailuresArePrecise := by
  intro w s t h hf
  obtain ⟨b, hd, rfl⟩ | ⟨len, e, hd, rfl⟩ | ⟨e, hbit, hlen, rfl⟩ := issue_failure_cases h hf
  · exact ⟨Err.bit.code, { s with eflt := true }, by decide, by decide, raise_eq_shift .bit rfl, fun _ _ _ => rfl,
      fun _ hd' => (nomatch hd.symm.trans hd'), fun hne _ => absurd rfl (hne b hd)⟩
  · exact ⟨e.code, abandonFrame s, (code_bounds e).1, (code_bounds e).2, raise_eq_shift e rfl,
      fun _ hd' => (nomatch hd.symm.trans hd'), fun _ _ => rfl, fun _ hne => absurd hd (hne len)⟩
  · exact ⟨e.code, s, (code_bounds e).1, (code_bounds e).2, raise_eq_shift e rfl, fun b hd hc => absurd hc (hbit b hd),
      fun len hd => absurd hd (hlen len), fun _ _ => rfl⟩

/-! ## How a command ends (60_exceptions R228, R235) -/

/-- The command succeeded, or answered one of its errors of R235; `ERR_SEQ` only where R228 does not allow it. -/
def EndsAllowed (i : Instr) (s t : State) : Prop :=
  t.succeeded = true ∨ ∃ e ∈ errorsOf i, t.rsp = some (errResponse e) ∧ (e = .seq → ¬ sequenceAllows i s)

section Ends

variable {s t : State} {i : Instr}

theorem endsAllowed_respond (d : BitVec 56) (base : State) : EndsAllowed i s (respond d base) :=
  .inl (respond_succeeded d base)

theorem endsAllowed_seq (base : State) (he : Err.seq ∈ errorsOf i) (hn : ¬ sequenceAllows i s) :
    EndsAllowed i s (raise .seq base) :=
  .inr ⟨.seq, he, rfl, fun _ => hn⟩

theorem endsAllowed_operand {e : Err} (base : State) (he : e ∈ errorsOf i) (hne : e ≠ .seq) :
    EndsAllowed i s (raise e base) :=
  .inr ⟨e, he, rfl, fun h => absurd h hne⟩

/-- Every command, by the cases of its meaning. -/
theorem exec_endsAllowed (h : exec i s = .next t) : EndsAllowed i s t := by
  cases i with
  | nop | reset | rdstat | clrerr | estart | s2b y =>
    obtain rfl := answer_next h
    exact endsAllowed_respond _ _
  | b2s b =>
    obtain ⟨-, rfl⟩ | ⟨u, -, -, rfl⟩ := execB2s_cases h
    · exact endsAllowed_operand _ (by simp [errorsOf]) nofun
    · exact endsAllowed_respond _ _
  | trans q b =>
    obtain ⟨-, rfl⟩ | ⟨-, -, rfl⟩ | ⟨x, u, -, -, rfl⟩ := execTrans_cases h
    · exact endsAllowed_operand _ (by simp [errorsOf]) nofun
    · exact endsAllowed_operand _ (by simp [errorsOf]) nofun
    · exact endsAllowed_respond _ _
  | ebit b =>
    obtain ⟨hf, rfl⟩ | ⟨-, -, rfl⟩ | ⟨-, -, u, -, rfl⟩ := execEbit_cases h
    · exact endsAllowed_seq _ (by simp [errorsOf]) (by simp [sequenceAllows, hf])
    · exact endsAllowed_operand _ (by simp [errorsOf]) nofun
    · exact .inl (respondCw_succeeded _ _ _)
  | dstart len =>
    obtain ⟨-, rfl⟩ | ⟨-, -, -, rfl⟩ | ⟨-, -, -, rfl⟩ := execDstart_cases h
    · exact endsAllowed_operand _ (by simp [errorsOf]) nofun
    · exact endsAllowed_operand _ (by simp [errorsOf]) nofun
    · exact endsAllowed_respond _ _
  | dsamp y =>
    obtain ⟨hr, rfl⟩ | ⟨-, -, -, rfl⟩ | ⟨-, -, -, sv', -, rfl⟩ := execDsamp_cases h
    · refine endsAllowed_seq _ (by simp [errorsOf]) ?_
      rintro ⟨hd, ht⟩
      exact hr.elim (fun hne => hne hd) (fun heq => ht.ne (congrArg BitVec.toNat heq))
    · exact endsAllowed_respond _ _
    · exact endsAllowed_respond _ _
  | dterm =>
    obtain ⟨hr, rfl⟩ | ⟨-, -, db, -, rfl⟩ := execDterm_cases h
    · exact endsAllowed_seq _ (by simp [errorsOf]) fun ha => hr.elim (fun hne => hne ha.1) (fun hne => hne ha.2)
    · exact endsAllowed_respond _ _
  | drd k =>
    obtain ⟨hd, rfl⟩ | ⟨-, -, rfl⟩ | ⟨-, -, b, -, rfl⟩ := execDrd_cases h
    · exact endsAllowed_seq _ (by simp [errorsOf]) hd
    · exact endsAllowed_operand _ (by simp [errorsOf]) nofun
    · exact endsAllowed_respond _ _
  | rdpm x =>
    obtain ⟨hd, rfl⟩ | ⟨-, rfl⟩ := execRdpm_cases h
    · exact endsAllowed_seq _ (by simp [errorsOf]) (not_not.2 hd)
    · exact endsAllowed_respond _ _
  | rdsv tt x =>
    obtain ⟨hd, rfl⟩ | ⟨-, -, rfl⟩ | ⟨-, -, -, e, -, rfl⟩ := execRdsv_cases h
    · exact endsAllowed_seq _ (by simp [errorsOf]) (not_not.2 hd)
    · exact endsAllowed_operand _ (by simp [errorsOf]) nofun
    · exact endsAllowed_respond _ _

/-! ## `ERR_SEQ` (60_exceptions R228) -/

/-- The premise is item 3 of the invariant: `DSAMP` compares `t` and `n` for equality only. -/
theorem exec_of_not_sequenceAllows (ht : s.t.toNat ≤ s.n.toNat) (hn : ¬ sequenceAllows i s) :
    exec i s = fail .seq s := by
  cases i with
  | ebit b => exact exec_ebit_failed (Bool.eq_true_of_not_eq_false hn)
  | dsamp y =>
    refine exec_dsamp_refused (or_iff_not_imp_left.2 fun hd => ?_)
    exact BitVec.eq_of_toNat_eq (ht.antisymm (not_lt.1 fun hlt => hn ⟨not_not.1 hd, hlt⟩))
  | dterm => exact exec_dterm_refused (not_and_or.1 hn)
  | drd k => exact exec_drd_refused hn
  | rdpm x => exact exec_rdpm_idle (not_not.1 hn)
  | rdsv tt x => exact exec_rdsv_idle (not_not.1 hn)
  | nop | reset | rdstat | clrerr | b2s _ | s2b _ | trans _ _ | estart | dstart _ => exact absurd trivial hn

theorem EndsAllowed.rsp_ne_seq (h : EndsAllowed i s t) (ha : sequenceAllows i s) :
    t.rsp ≠ some (errResponse .seq) := by
  intro hseq
  obtain hok | ⟨e, -, hrsp, hnot⟩ := h
  · simp [State.succeeded, hseq, code_ne_zero] at hok
  · exact hnot (errResponse_inj (Option.some.inj (hrsp.symm.trans hseq))) ha

/-- Settles O45: a command that is not allowed is refused, and one that is allowed ends in no `ERR_SEQ`. -/
theorem sequenceErrors : Obligations.SequenceErrors :=
  fun _ _ ht => ⟨fun hn => exec_of_not_sequenceAllows ht hn, fun _ ha h => (exec_endsAllowed h).rsp_ne_seq ha⟩

/-! ## Which command raises which error (60_exceptions R235) -/

theorem EndsAllowed.error_mem (h : EndsAllowed i s t) (hf : t.succeeded = false) :
    ∃ e ∈ errorsOf i, t.rsp = some (errResponse e) := by
  obtain hok | ⟨e, he, hrsp, -⟩ := h
  · exact nomatch hf.symm.trans hok
  · exact ⟨e, he, hrsp⟩

end Ends

/-- Some command of the mnemonic of `i` raises `e` in some state of a legal platform. -/
def CanRaise (i : Instr) (e : Err) : Prop :=
  ∃ (j : Instr) (s t : State), j.mnemonic = i.mnemonic ∧ s.cfg.Legal ∧ exec j s = .next t ∧ t.rsp = some (errResponse e)

theorem canRaise_of_fail {i j : Instr} {e : Err} {s base : State} (h : exec j s = fail e base)
    (hm : j.mnemonic = i.mnemonic) (hc : s.cfg.Legal) : CanRaise i e :=
  ⟨j, s, _, hm, hc, h, rfl⟩

/-- On the suggested platform: at reset, after a failed encode, and in a frame of one bit. -/
theorem canRaise_errorsOf (i : Instr) : ∀ e ∈ errorsOf i, CanRaise i e := by
  have hc : State.reset.cfg.Legal := by decide
  have hidle : State.reset.dst = .idle := rfl
  cases i with
  | nop | reset | rdstat | clrerr | estart | s2b _ => exact List.forall_mem_nil _
  | b2s b =>
    have hbit : CanRaise (.b2s b) .bit := canRaise_of_fail (exec_b2s_badBit (b := 2) (by decide) State.reset) rfl hc
    exact List.forall_mem_singleton.2 hbit
  | trans q b =>
    have hbit : CanRaise (.trans q b) .bit :=
      canRaise_of_fail (exec_trans_badBit (q := 0) (b := 2) (by decide) (by decide) State.reset) rfl hc
    have hidx : CanRaise (.trans q b) .idx :=
      canRaise_of_fail (exec_trans_badState (q := 8) (by decide) 0 State.reset) rfl hc
    exact List.forall_mem_cons.2 ⟨hbit, List.forall_mem_singleton.2 hidx⟩
  | ebit b =>
    have hbit : CanRaise (.ebit b) .bit :=
      canRaise_of_fail (exec_ebit_badBit (s := State.reset) (b := 2) rfl (by decide)) rfl hc
    have hseq : CanRaise (.ebit b) .seq :=
      canRaise_of_fail (exec_ebit_failed (s := { State.reset with eflt := true }) (b := b) rfl) rfl hc
    exact List.forall_mem_cons.2 ⟨hbit, List.forall_mem_singleton.2 hseq⟩
  | dstart len =>
    have hlen : CanRaise (.dstart len) .len :=
      canRaise_of_fail (exec_dstart_len (s := State.reset) (len := 0) (.inl rfl)) rfl hc
    have hcap : CanRaise (.dstart len) .cap := canRaise_of_fail
      (exec_dstart_cap (s := State.reset) (len := 4100) (by decide) (by decide) (by decide)) rfl hc
    exact List.forall_mem_cons.2 ⟨hlen, List.forall_mem_singleton.2 hcap⟩
  | dsamp y =>
    exact List.forall_mem_singleton.2 (canRaise_of_fail (exec_dsamp_refused (s := State.reset) (.inr rfl)) rfl hc)
  | dterm =>
    exact List.forall_mem_singleton.2 (canRaise_of_fail (exec_dterm_refused (s := State.reset) (.inl nofun)) rfl hc)
  | drd k =>
    have hseq : CanRaise (.drd k) .seq :=
      canRaise_of_fail (exec_drd_refused (s := State.reset) (k := k) nofun) rfl hc
    have hidx : CanRaise (.drd k) .idx := canRaise_of_fail
      (exec_drd_range (s := { State.reset with dst := .done, n := 1, t := 1 }) (k := 1) rfl (by decide)) rfl hc
    exact List.forall_mem_cons.2 ⟨hseq, List.forall_mem_singleton.2 hidx⟩
  | rdpm x => exact List.forall_mem_singleton.2 (canRaise_of_fail (exec_rdpm_idle (i := x) hidle) rfl hc)
  | rdsv tt x =>
    have hseq : CanRaise (.rdsv tt x) .seq := canRaise_of_fail (exec_rdsv_idle (tt := tt) (i := x) hidle) rfl hc
    have hidx : CanRaise (.rdsv tt x) .idx := canRaise_of_fail
      (exec_rdsv_range (s := { State.reset with dst := .run, n := 1 }) (tt := 1) (i := x) nofun (.inr (by decide)))
      rfl hc
    exact List.forall_mem_cons.2 ⟨hseq, List.forall_mem_singleton.2 hidx⟩

/-- Settles O47: a failing command ends as it may, and each error of the table has a state that raises it. -/
theorem errorsByCommand : Obligations.ErrorsByCommand :=
  ⟨fun _ _ _ h hf => (exec_endsAllowed h).error_mem hf, fun i e he => canRaise_errorsOf i e he⟩

end Sys2Proof.Proofs
end

section
/-! PROOFS. The reset input (70_reset_and_hazards R255). -/

namespace Sys2Proof.Proofs

open Sys2Proof.Machine

/-- With the reset input next a step is `hardwareReset` on the state from which it has been taken. -/
theorem step_eq_hardwareReset {s : State} {rest : List HostInput} (hin : s.inputs = .resetInput :: rest) :
    step s = .next (hardwareReset { s with inputs := rest }) := by
  have hnext : nextInput s = some (.resetInput, { s with inputs := rest }) := by
    simp only [nextInput, hin]
  simp only [step, hnext]

/-- Settles O8: the step is `hardwareReset`, which writes the registers that have a reset value and clears the ports. -/
theorem resetInputResets : Obligations.ResetInputResets := fun _ _ hin => step_eq_hardwareReset hin

end Sys2Proof.Proofs
end
